-- ==== Sys2Proof/Word.lean ====
section
/-! DEFINITION. The word types of the block: the widths spec/00_scope.md R7 and spec/10_state.md R21 name, and the
shape of a sparse array of words. -/

namespace Sys2Proof

/-- One byte of an image, one 8-bit selector, one 8-bit register. -/
abbrev Byte := BitVec 8

/-- One packed LUT instruction (spec/30_encoding.md R90). -/
abbrev Half := BitVec 16

/-- One operand V, one field value, one DATA word (R7, R100, R101). -/
abbrev Word := BitVec 32

/-- One command word or one response word (R100, R101). -/
abbrev DWord := BitVec 64

/-- A sparse array of `w`-bit cells: pairs of an index and a value. An index not listed reads 0, because every array
of R21 is all zero at reset. In canonical form (`Cells.wf`) the indices rise strictly and no value is 0, so equal
arrays are equal lists. -/
abbrev Cells (w : Nat) := List (Nat × BitVec w)

/-- A byte array of spec/20_memory.md R60: a list of `Host.Cell`. -/
abbrev Memory := Cells 8

end Sys2Proof
end

