-- ==== Sys2Proof/Syntax.lean ====
section
/-! DEFINITION. The instructions: one constructor for each row of spec/opcode_table.json, in the table's order. The
28 LUT16 rows are the micro-instructions the block packs (spec/30_encoding.md R90, R95); the 22 CMD64 rows are the
command words the block performs (R100, R102). Assembler pseudo-commands (R111) expand to these and have none. -/

namespace Sys2Proof

/-- One instruction. A LUT row carries its pad-width class `p` (2 bits) and its operand `d` (8 bits). A command row
carries the fields its command uses, at the width of the port: `f` is F1, `v` is V; ENC and SEQ_PUSH take the opcode
`o` from F1, the pad class `p` from F2 and the operand `d` from V (R105). -/
inductive Instr where
  | stop (p : BitVec 2) (d : Byte)
  | jmpOnCs (p : BitVec 2) (d : Byte)
  | cmdSdr (p : BitVec 2) (d : Byte)
  | cmdDdr (p : BitVec 2) (d : Byte)
  | raddrSdr (p : BitVec 2) (d : Byte)
  | raddrDdr (p : BitVec 2) (d : Byte)
  | caddrSdr (p : BitVec 2) (d : Byte)
  | caddrDdr (p : BitVec 2) (d : Byte)
  | mode1Sdr (p : BitVec 2) (d : Byte)
  | mode1Ddr (p : BitVec 2) (d : Byte)
  | mode2Sdr (p : BitVec 2) (d : Byte)
  | mode2Ddr (p : BitVec 2) (d : Byte)
  | mode4Sdr (p : BitVec 2) (d : Byte)
  | mode4Ddr (p : BitVec 2) (d : Byte)
  | mode8Sdr (p : BitVec 2) (d : Byte)
  | mode8Ddr (p : BitVec 2) (d : Byte)
  | writeSdr (p : BitVec 2) (d : Byte)
  | writeDdr (p : BitVec 2) (d : Byte)
  | readSdr (p : BitVec 2) (d : Byte)
  | readDdr (p : BitVec 2) (d : Byte)
  | learnSdr (p : BitVec 2) (d : Byte)
  | learnDdr (p : BitVec 2) (d : Byte)
  | datszSdr (p : BitVec 2) (d : Byte)
  | datszDdr (p : BitVec 2) (d : Byte)
  | dummySdr (p : BitVec 2) (d : Byte)
  | dummyDdr (p : BitVec 2) (d : Byte)
  | dummyRwdsSdr (p : BitVec 2) (d : Byte)
  | dummyRwdsDdr (p : BitVec 2) (d : Byte)
  | nop
  | enc (o p : Byte) (d : Word)
  | status
  | info
  | rdResult
  | seqClear
  | seqPush (o p : Byte) (d : Word)
  | seqRead (f : Byte)
  | lutClear
  | lutSet (f : Byte)
  | lutRead (v : Word)
  | pcbClear
  | pcbSet (f : Byte) (v : Word)
  | pcbLoadLut
  | pcbFinalize
  | pcbRead (v : Word)
  | ftbClear
  | ftbWrap
  | ftbSet (f : Byte) (v : Word)
  | ftbFinalize
  | outRead (v : Word)
  | outRead32 (v : Word)
deriving DecidableEq, Repr

/-- The bits of one instruction as they are presented: a 16-bit LUT instruction or a 64-bit command word. -/
inductive InstrWord where
  | lut16 (w : Half)
  | cmd64 (w : DWord)
deriving DecidableEq, Repr

end Sys2Proof
end

