-- ==== Sys2Proof/WellFormed.lean ====
section
/-! DEFINITION. When an instruction is well-formed: the part of spec/30_encoding.md R103 that the fields of `Instr`
leave open, which is the range of the field id of PCB_SET (R107) and of FTB_SET (R108). The rest of R103 (CMD in the
table, RSV zero, unused fields zero) is refused by the decoder. -/

namespace Sys2Proof

/-- A PCB_SET field id names a field: 0x01 to 0x0F (R107). -/
def pcbFieldIdOk (f : Byte) : Bool := 1 ≤ f.toNat && f.toNat ≤ 15

/-- An FTB_SET field id names a field: 0x01 to 0x03 (R108). -/
def ftbFieldIdOk (f : Byte) : Bool := 1 ≤ f.toNat && f.toNat ≤ 3

/-- The instruction is well-formed (R103, R107, R108). -/
def Instr.wellFormed (i : Instr) : Bool :=
  match i with
  | .pcbSet f _ => pcbFieldIdOk f
  | .ftbSet f _ => ftbFieldIdOk f
  | .stop _ _ | .jmpOnCs _ _ | .cmdSdr _ _ | .cmdDdr _ _ | .raddrSdr _ _ | .raddrDdr _ _ | .caddrSdr _ _ => true
  | .caddrDdr _ _ | .mode1Sdr _ _ | .mode1Ddr _ _ | .mode2Sdr _ _ | .mode2Ddr _ _ | .mode4Sdr _ _ => true
  | .mode4Ddr _ _ | .mode8Sdr _ _ | .mode8Ddr _ _ | .writeSdr _ _ | .writeDdr _ _ | .readSdr _ _ => true
  | .readDdr _ _ | .learnSdr _ _ | .learnDdr _ _ | .datszSdr _ _ | .datszDdr _ _ | .dummySdr _ _ => true
  | .dummyDdr _ _ | .dummyRwdsSdr _ _ | .dummyRwdsDdr _ _ => true
  | .nop | .enc _ _ _ | .status | .info | .rdResult | .seqClear | .seqPush _ _ _ | .seqRead _ => true
  | .lutClear | .lutSet _ | .lutRead _ | .pcbClear | .pcbLoadLut | .pcbFinalize | .pcbRead _ => true
  | .ftbClear | .ftbWrap | .ftbFinalize | .outRead _ | .outRead32 _ => true

end Sys2Proof
end

