-- ==== Sys2Proof/Decode.lean ====
section
/-! DEFINITION. The decoder and the encoder of the two encodings of spec/30_encoding.md: the 16-bit LUT instruction
(R90, R95) and the 64-bit command word (R100, R102, R103). The decoder is total and rejects by name (R104). -/

namespace Sys2Proof

/-- Why a word is no instruction. -/
inductive DecodeError where
  /-- CMD is in no row of R102 (R109). -/
  | reservedCommand
  /-- RSV, bits [31:24], is not 0 (R103). -/
  | reservedByteNotZero
  /-- A field among F1, F2, V that the command does not use is not 0 (R103). -/
  | unusedFieldNotZero
  /-- The OPCODE of a LUT instruction is in no row of R95. -/
  | reservedOpcode
deriving DecidableEq, Repr

/-- CMD, bits [7:0] (R100). -/
def fieldCmd (w : DWord) : Byte := w.extractLsb' 0 8
/-- F1, bits [15:8] (R100). -/
def fieldF1 (w : DWord) : Byte := w.extractLsb' 8 8
/-- F2, bits [23:16] (R100). -/
def fieldF2 (w : DWord) : Byte := w.extractLsb' 16 8
/-- RSV, bits [31:24] (R100). -/
def fieldRsv (w : DWord) : Byte := w.extractLsb' 24 8
/-- V, bits [63:32] (R100). -/
def fieldV (w : DWord) : Word := w.extractLsb' 32 32

/-- OPCODE, bits [15:10] of a LUT instruction (R90). -/
def lutOpcode (w : Half) : BitVec 6 := w.extractLsb' 10 6
/-- PADS, bits [9:8] of a LUT instruction (R90). -/
def lutPads (w : Half) : BitVec 2 := w.extractLsb' 8 2
/-- OPERAND, bits [7:0] of a LUT instruction (R90). -/
def lutOperand (w : Half) : Byte := w.extractLsb' 0 8

/-- A LUT instruction by its opcode (R95). -/
def decodeOpcode (op : BitVec 6) (p : BitVec 2) (d : Byte) : Except DecodeError Instr :=
  match op.toNat with
  | 0x00 => .ok (.stop p d)
  | 0x01 => .ok (.cmdSdr p d)
  | 0x02 => .ok (.raddrSdr p d)
  | 0x03 => .ok (.caddrSdr p d)
  | 0x04 => .ok (.mode1Sdr p d)
  | 0x05 => .ok (.mode2Sdr p d)
  | 0x06 => .ok (.mode4Sdr p d)
  | 0x07 => .ok (.mode8Sdr p d)
  | 0x08 => .ok (.writeSdr p d)
  | 0x09 => .ok (.readSdr p d)
  | 0x0A => .ok (.learnSdr p d)
  | 0x0B => .ok (.datszSdr p d)
  | 0x0C => .ok (.dummySdr p d)
  | 0x0D => .ok (.dummyRwdsSdr p d)
  | 0x1F => .ok (.jmpOnCs p d)
  | 0x21 => .ok (.cmdDdr p d)
  | 0x22 => .ok (.raddrDdr p d)
  | 0x23 => .ok (.caddrDdr p d)
  | 0x24 => .ok (.mode1Ddr p d)
  | 0x25 => .ok (.mode2Ddr p d)
  | 0x26 => .ok (.mode4Ddr p d)
  | 0x27 => .ok (.mode8Ddr p d)
  | 0x28 => .ok (.writeDdr p d)
  | 0x29 => .ok (.readDdr p d)
  | 0x2A => .ok (.learnDdr p d)
  | 0x2B => .ok (.datszDdr p d)
  | 0x2C => .ok (.dummyDdr p d)
  | 0x2D => .ok (.dummyRwdsDdr p d)
  | _ => .error .reservedOpcode

/-- The instruction `i` if `unused`, the fields its command does not use, are all 0 (R103). -/
def whenUnusedZero (unused : Bool) (i : Instr) : Except DecodeError Instr :=
  if unused then .ok i else .error .unusedFieldNotZero

/-- A command by its code (R102), given the word's fields with RSV already tested. -/
def decodeCommand (cmd f1 f2 : Byte) (v : Word) : Except DecodeError Instr :=
  match cmd.toNat with
  | 0x00 => whenUnusedZero (f1 == 0 && f2 == 0 && v == 0) .nop
  | 0x01 => .ok (.enc f1 f2 v)
  | 0x02 => whenUnusedZero (f1 == 0 && f2 == 0 && v == 0) .status
  | 0x03 => whenUnusedZero (f1 == 0 && f2 == 0 && v == 0) .info
  | 0x04 => whenUnusedZero (f1 == 0 && f2 == 0 && v == 0) .rdResult
  | 0x10 => whenUnusedZero (f1 == 0 && f2 == 0 && v == 0) .seqClear
  | 0x11 => .ok (.seqPush f1 f2 v)
  | 0x12 => whenUnusedZero (f2 == 0 && v == 0) (.seqRead f1)
  | 0x20 => whenUnusedZero (f1 == 0 && f2 == 0 && v == 0) .lutClear
  | 0x21 => whenUnusedZero (f2 == 0 && v == 0) (.lutSet f1)
  | 0x22 => whenUnusedZero (f1 == 0 && f2 == 0) (.lutRead v)
  | 0x30 => whenUnusedZero (f1 == 0 && f2 == 0 && v == 0) .pcbClear
  | 0x31 => whenUnusedZero (f2 == 0) (.pcbSet f1 v)
  | 0x32 => whenUnusedZero (f1 == 0 && f2 == 0 && v == 0) .pcbLoadLut
  | 0x33 => whenUnusedZero (f1 == 0 && f2 == 0 && v == 0) .pcbFinalize
  | 0x34 => whenUnusedZero (f1 == 0 && f2 == 0) (.pcbRead v)
  | 0x40 => whenUnusedZero (f1 == 0 && f2 == 0 && v == 0) .ftbClear
  | 0x41 => whenUnusedZero (f1 == 0 && f2 == 0 && v == 0) .ftbWrap
  | 0x42 => whenUnusedZero (f2 == 0) (.ftbSet f1 v)
  | 0x43 => whenUnusedZero (f1 == 0 && f2 == 0 && v == 0) .ftbFinalize
  | 0x50 => whenUnusedZero (f1 == 0 && f2 == 0) (.outRead v)
  | 0x51 => whenUnusedZero (f1 == 0 && f2 == 0) (.outRead32 v)
  | _ => .error .reservedCommand

/-- The instruction an instruction word stands for (R104). The range of a field id is left to `Instr.wellFormed`. -/
def decode (x : InstrWord) : Except DecodeError Instr :=
  match x with
  | .lut16 w => decodeOpcode (lutOpcode w) (lutPads w) (lutOperand w)
  | .cmd64 w =>
    if fieldRsv w = 0 then decodeCommand (fieldCmd w) (fieldF1 w) (fieldF2 w) (fieldV w)
    else .error .reservedByteNotZero

/-- The LUT instruction of three fields, the operation code in the high bits (R90). -/
def lutWord (op : BitVec 6) (p : BitVec 2) (d : Byte) : InstrWord := .lut16 (op ++ p ++ d)

/-- The command word of its fields with RSV = 0 (R112). -/
def commandWord (cmd f1 f2 : Byte) (v : Word) : InstrWord := .cmd64 (v ++ (0 : Byte) ++ f2 ++ f1 ++ cmd)

/-- The word of an instruction (R95, R102, R112). -/
def encode (i : Instr) : InstrWord :=
  match i with
  | .stop p d => lutWord 0x00 p d
  | .jmpOnCs p d => lutWord 0x1F p d
  | .cmdSdr p d => lutWord 0x01 p d
  | .cmdDdr p d => lutWord 0x21 p d
  | .raddrSdr p d => lutWord 0x02 p d
  | .raddrDdr p d => lutWord 0x22 p d
  | .caddrSdr p d => lutWord 0x03 p d
  | .caddrDdr p d => lutWord 0x23 p d
  | .mode1Sdr p d => lutWord 0x04 p d
  | .mode1Ddr p d => lutWord 0x24 p d
  | .mode2Sdr p d => lutWord 0x05 p d
  | .mode2Ddr p d => lutWord 0x25 p d
  | .mode4Sdr p d => lutWord 0x06 p d
  | .mode4Ddr p d => lutWord 0x26 p d
  | .mode8Sdr p d => lutWord 0x07 p d
  | .mode8Ddr p d => lutWord 0x27 p d
  | .writeSdr p d => lutWord 0x08 p d
  | .writeDdr p d => lutWord 0x28 p d
  | .readSdr p d => lutWord 0x09 p d
  | .readDdr p d => lutWord 0x29 p d
  | .learnSdr p d => lutWord 0x0A p d
  | .learnDdr p d => lutWord 0x2A p d
  | .datszSdr p d => lutWord 0x0B p d
  | .datszDdr p d => lutWord 0x2B p d
  | .dummySdr p d => lutWord 0x0C p d
  | .dummyDdr p d => lutWord 0x2C p d
  | .dummyRwdsSdr p d => lutWord 0x0D p d
  | .dummyRwdsDdr p d => lutWord 0x2D p d
  | .nop => commandWord 0x00 0 0 0
  | .enc o p d => commandWord 0x01 o p d
  | .status => commandWord 0x02 0 0 0
  | .info => commandWord 0x03 0 0 0
  | .rdResult => commandWord 0x04 0 0 0
  | .seqClear => commandWord 0x10 0 0 0
  | .seqPush o p d => commandWord 0x11 o p d
  | .seqRead f => commandWord 0x12 f 0 0
  | .lutClear => commandWord 0x20 0 0 0
  | .lutSet f => commandWord 0x21 f 0 0
  | .lutRead v => commandWord 0x22 0 0 v
  | .pcbClear => commandWord 0x30 0 0 0
  | .pcbSet f v => commandWord 0x31 f 0 v
  | .pcbLoadLut => commandWord 0x32 0 0 0
  | .pcbFinalize => commandWord 0x33 0 0 0
  | .pcbRead v => commandWord 0x34 0 0 v
  | .ftbClear => commandWord 0x40 0 0 0
  | .ftbWrap => commandWord 0x41 0 0 0
  | .ftbSet f v => commandWord 0x42 f 0 v
  | .ftbFinalize => commandWord 0x43 0 0 0
  | .outRead v => commandWord 0x50 0 0 v
  | .outRead32 v => commandWord 0x51 0 0 v

/-- The instruction word of a number of `nbits` bits: 16 bits are a LUT16 row, any other count a CMD64 row whose bits
above `nbits` are 0. -/
def tableWord (nbits w : Nat) : InstrWord :=
  if nbits = 16 then .lut16 (BitVec.ofNat 16 w) else .cmd64 (BitVec.ofNat 64 w)

/-- The instruction the decoder reads from a word of the opcode table; none where it refuses. -/
def decodeTableWord (nbits w : Nat) : Option Instr :=
  match decode (tableWord nbits w) with
  | .ok i => some i
  | .error _ => none

end Sys2Proof
end

