-- ==== Sys2Proof/Config.lean ====
section
/-! DEFINITION. CONFIG = (FAMILY, LAYOUT, TAG, VERSION), the parameters an implementation fixes before the first
command (spec/00_scope.md R5, R6; spec/43_peripheral_block.md R220, R223). Only the shape stands here: the default
instances are in Sys2Proof/Machine/Defaults.lean and the layout invariant WF in Sys2Proof/Machine/Layout.lean. -/

namespace Sys2Proof

/-- The fifteen peripheral fields, in ascending id (spec/30_encoding.md R107). -/
inductive PcbField where
  | readSampleClkSrc
  | csHoldTime
  | csSetupTime
  | columnAddressWidth
  | deviceModeCfgEnable
  | deviceModeSeq
  | deviceModeArg
  | waitTimeCfgCommands
  | deviceType
  | sflashPadType
  | serialClkFreq
  | sflashA1Size
  | sflashA2Size
  | sflashB1Size
  | sflashB2Size
deriving DecidableEq, Repr

/-- The three flash-type trailer fields, in ascending id (R108). -/
inductive FtbField where
  | pageSize
  | sectorSize
  | ipCmdSerialClkFreq
deriving DecidableEq, Repr

/-- A FIELD or TRAILER entry of the layout (R220): the bits `[sh + nb - 1 : sh]` of the little-endian unit of `w`
bytes at byte offset `off`. -/
structure Entry where
  off : Nat
  w : Nat
  sh : Nat
  nb : Nat
deriving DecidableEq, Repr

/-- LAYOUT.CMD_INDEX: the table slot of each named Command (spec/42_lookup_table.md R200, R201). A slot is answered
on the 32-bit DATA port, so it is a word (log 8). -/
structure CmdIndex where
  read : Word
  readStatus : Word
  writeEnable : Word
  eraseSector : Word
  pageProgram : Word
  chipErase : Word
deriving DecidableEq, Repr

/-- LAYOUT (R220). TOTAL_SIZE and PCB_SIZE are answered on the 32-bit DATA port, so they are words (log 8). `field`
holds the fifteen FIELD entries in ascending id, `trailer` the three TRAILER entries (log 9). -/
structure Layout where
  totalSize : Word
  pcbSize : Word
  trailerSize : Nat
  nseq : Nat
  lutOff : Nat
  cmdIndex : CmdIndex
  field : Vector Entry 15
  trailer : Vector Entry 3
deriving DecidableEq, Repr

/-- REGION_ENC, a partial map from a region size in bytes to its stored value (R223): the identity, or a table in
which the first row of a size counts (log 13). -/
inductive RegionEnc where
  | identity
  | table (rows : List (Word × Word))
deriving DecidableEq, Repr

/-- FAMILY (R223). The legal codes of the enumerated fields and the frequency codes are as wide as the 8-bit
registers that store them, the opcodes as wide as the OPCODE field (log 8). -/
structure Family where
  fields : List PcbField
  rscLegal : List Byte
  cawLegal : List Byte
  devTypeLegal : List Byte
  padLegal : List Byte
  freq : List (Word × Byte)
  ipFreq : List (Word × Byte)
  regionEnc : RegionEnc
  opcodes : List (BitVec 6)
deriving DecidableEq, Repr

/-- CONFIG (R5). -/
structure Config where
  family : Family
  layout : Layout
  tag : Word
  version : Word
deriving DecidableEq, Repr

end Sys2Proof
end

