-- ==== Sys2Proof/Machine/Defaults.lean ====
section
/-! DEFINITION. CONFIG_DEFAULT: the default instance the spec gives of each named parameter (spec/00_scope.md R6;
PRESUMED, since the spec marks these values as general knowledge: log 12). State.reset uses it (log 1). -/

namespace Sys2Proof.Machine

/-- LAYOUT_DEFAULT.CMD_INDEX (spec/42_lookup_table.md R201). -/
def cmdIndexDefault : CmdIndex where
  read := 0
  readStatus := 1
  writeEnable := 3
  eraseSector := 5
  pageProgram := 9
  chipErase := 11

/-- An entry of `w` bytes at `off` that fills its unit: sh = 0 and nb = 8 * w (spec/43_peripheral_block.md R222). -/
def wholeEntry (off w : Nat) : Entry where
  off := off
  w := w
  sh := 0
  nb := 8 * w

/-- LAYOUT_DEFAULT (R222, R224; the trailer of spec/44_flash_type_block.md R271). -/
def layoutDefault : Layout where
  totalSize := 512
  pcbSize := 448
  trailerSize := 64
  nseq := 16
  lutOff := 0x080
  cmdIndex := cmdIndexDefault
  field := #v[wholeEntry 0x00C 1, wholeEntry 0x00D 1, wholeEntry 0x00E 1, wholeEntry 0x00F 1, wholeEntry 0x010 1,
    wholeEntry 0x014 4, wholeEntry 0x018 4, wholeEntry 0x012 2, wholeEntry 0x044 1, wholeEntry 0x045 1,
    wholeEntry 0x046 1, wholeEntry 0x050 4, wholeEntry 0x054 4, wholeEntry 0x058 4, wholeEntry 0x05C 4]
  trailer := #v[wholeEntry 0x1C0 4, wholeEntry 0x1C4 4, wholeEntry 0x1C8 1]

/-- All fifteen peripheral fields in ascending id (R223; spec/30_encoding.md R107). -/
def pcbFieldsAll : List PcbField :=
  [.readSampleClkSrc, .csHoldTime, .csSetupTime, .columnAddressWidth, .deviceModeCfgEnable, .deviceModeSeq,
    .deviceModeArg, .waitTimeCfgCommands, .deviceType, .sflashPadType, .serialClkFreq, .sflashA1Size, .sflashA2Size,
    .sflashB1Size, .sflashB2Size]

/-- FREQ and IPFREQ of FAMILY_DEFAULT, from MHz to a code (R223). -/
def freqDefault : List (Word × Byte) :=
  [(30, 1), (50, 2), (60, 3), (75, 4), (80, 5), (100, 6), (120, 7), (133, 8), (166, 9)]

/-- The 28 LUT opcodes of R95. -/
def opcodesDefault : List (BitVec 6) :=
  [0x00, 0x01, 0x02, 0x03, 0x04, 0x05, 0x06, 0x07, 0x08, 0x09, 0x0A, 0x0B, 0x0C, 0x0D, 0x1F,
    0x21, 0x22, 0x23, 0x24, 0x25, 0x26, 0x27, 0x28, 0x29, 0x2A, 0x2B, 0x2C, 0x2D]

/-- FAMILY_DEFAULT (R223). -/
def familyDefault : Family where
  fields := pcbFieldsAll
  rscLegal := [0, 1, 2, 3]
  cawLegal := [0, 3, 12]
  devTypeLegal := [1, 2]
  padLegal := [1, 2, 4, 8]
  freq := freqDefault
  ipFreq := freqDefault
  regionEnc := .identity
  opcodes := opcodesDefault

/-- CONFIG_DEFAULT (R6; TAG is the bytes 46 43 46 42, VERSION the bytes 00 04 01 56). -/
def configDefault : Config where
  family := familyDefault
  layout := layoutDefault
  tag := 0x42464346
  version := 0x56010400

end Sys2Proof.Machine
end

