-- ==== Sys2Proof/Machine/Regs.lean ====
section
/-! DEFINITION. The registers and arrays of the block: exactly the table of spec/10_state.md R21, with its reset
column (spec/70_reset_and_hazards.md R340). -/

namespace Sys2Proof.Machine

/-- The field registers PF_* of the peripheral-block layout engine (R21, R27): each holds the encoded value. -/
structure PcbFields where
  /-- PF_RSC -/
  rsc : Byte
  /-- PF_CSHOLD -/
  csHold : Byte
  /-- PF_CSSETUP -/
  csSetup : Byte
  /-- PF_CAW -/
  caw : Byte
  /-- PF_DMEN -/
  dmEn : Byte
  /-- PF_DMSEQ -/
  dmSeq : Word
  /-- PF_DMARG -/
  dmArg : Word
  /-- PF_WAIT -/
  wait : Half
  /-- PF_DEVTYPE -/
  devType : Byte
  /-- PF_PAD -/
  pad : Byte
  /-- PF_SCLK -/
  sclk : Byte
  /-- PF_A1 -/
  a1 : Word
  /-- PF_A2 -/
  a2 : Word
  /-- PF_B1 -/
  b1 : Word
  /-- PF_B2 -/
  b2 : Word
deriving DecidableEq, Repr

/-- The trailer registers TF_* of the flash-type-block wrapper (R21, R30). -/
structure TrailerFields where
  /-- TF_PAGE -/
  page : Word
  /-- TF_SECTOR -/
  sector : Word
  /-- TF_IPCLK -/
  ipClk : Byte
deriving DecidableEq, Repr

/-- The registers and arrays of R21, stage by stage. -/
structure Regs where
  /-- RESULT: the value of the last ENC that succeeded (R23). -/
  result : Half
  /-- SEQ_SLOT[0..7] (R24). -/
  seqSlot : Vector Half 8
  /-- SEQ_K, values 0 to 8 (R25). -/
  seqK : BitVec 4
  /-- SEQ_ERR (R31). -/
  seqErr : Byte
  /-- LUT_TAB[s][j] at index 8 * s + j (R26). -/
  lutTab : Cells 16
  /-- LUT_ERR (R31). -/
  lutErr : Byte
  /-- PF_* (R27). -/
  pf : PcbFields
  /-- PF_SCLK_SET (R28). -/
  pfSclkSet : Bool
  /-- PCB_LUT, LUT_BYTES bytes (R28). -/
  pcbLut : Memory
  /-- PCB_LUT_SET (R28). -/
  pcbLutSet : Bool
  /-- PCB_ERR (R31). -/
  pcbErr : Byte
  /-- PIMG, PCB_SIZE bytes (R29). -/
  pimg : Memory
  /-- PCB_VALID (R29). -/
  pcbValid : Bool
  /-- FWRAP, PCB_SIZE bytes (R30). -/
  fwrap : Memory
  /-- FTB_WRAPPED (R30). -/
  ftbWrapped : Bool
  /-- TF_* (R30). -/
  tf : TrailerFields
  /-- TF_SET: bit 0 page, bit 1 sector, bit 2 ipclk (R30). -/
  tfSet : BitVec 3
  /-- FTB_ERR (R31). -/
  ftbErr : Byte
  /-- OUT, TOTAL_SIZE bytes (R32). -/
  out : Memory
  /-- OUT_VALID (R32). -/
  outValid : Bool
deriving DecidableEq, Repr

/-- The reset values of the PF_* registers (R21, R340). -/
def pcbFieldsReset : PcbFields where
  rsc := 0x00
  csHold := 0x03
  csSetup := 0x03
  caw := 0x00
  dmEn := 0x00
  dmSeq := 0
  dmArg := 0
  wait := 0
  devType := 0x01
  pad := 0x01
  sclk := 0x00
  a1 := 0
  a2 := 0
  b1 := 0
  b2 := 0

/-- The reset values of the TF_* registers (R21, R340). -/
def trailerFieldsReset : TrailerFields where
  page := 0
  sector := 0
  ipClk := 0

/-- Every register and array at its reset value (R340). -/
def regsReset : Regs where
  result := 0x0000
  seqSlot := Vector.replicate 8 0x0000
  seqK := 0
  seqErr := 0
  lutTab := []
  lutErr := 0
  pf := pcbFieldsReset
  pfSclkSet := false
  pcbLut := []
  pcbLutSet := false
  pcbErr := 0
  pimg := []
  pcbValid := false
  fwrap := []
  ftbWrapped := false
  tf := trailerFieldsReset
  tfSet := 0
  ftbErr := 0
  out := []
  outValid := false

end Sys2Proof.Machine
end

