-- ==== Sys2Proof/Machine/State.lean ====
section
/-! DEFINITION. The state of the model: the registers of R21 (Regs.lean), and three fields of the model's own, the
CONFIG the block was instantiated with, the host's stream of requests and the response port. -/

namespace Sys2Proof.Machine

/-- What the host does next at the block: it presents an instruction word (spec/00_scope.md R4), or it applies reset,
which comes between two command words (spec/70_reset_and_hazards.md R343; DEDUCED, log 4). -/
inductive Request where
  | present (x : InstrWord)
  | reset
deriving DecidableEq, Repr

/-- The state of the block and of its two ports. -/
structure State where
  /-- CONFIG (R5): not state of the block; it is carried here because a step takes no other argument, and no step
  changes it (DESIGN CHOICE, log 1). -/
  cfg : Config
  /-- The registers and arrays of spec/10_state.md R21. -/
  regs : Regs
  /-- The host's requests not yet accepted, in the host's order (R20; DESIGN CHOICE, log 2). -/
  requests : List Request
  /-- The response word of the command performed last, none before the first one after reset (R101, R340;
  DESIGN CHOICE, log 3). -/
  response : Option DWord
deriving DecidableEq, Repr

/-- Why a step stops with a fault. There is no reason: "The block never stalls, never refuses to step and never raises
anything outside the response" (spec/45_status_readout.md R290). Every error of the spec is a status code in the
response word of a next state (spec/60_exceptions.md R310, R317). DEDUCED, log 11. -/
inductive Fault where
deriving DecidableEq, Repr

/-- Why an instruction is refused. -/
inductive Refusal where
  /-- Raised only by an arm of `exec` whose instruction has no meaning yet, with the instruction's mnemonic: none is
  left. Safe: the model stops where the hardware goes on. -/
  | notModelled (mnemonic : String)
deriving DecidableEq, Repr

/-- What performing an instruction answers. -/
abbrev Result := Host.Outcome State Fault Refusal

/-- The machine right after reset (R340), instantiated with the default CONFIG (R6; log 1): every register at its reset
value, no request presented yet (log 2), no response produced (log 3). -/
def State.reset : State where
  cfg := configDefault
  regs := regsReset
  requests := []
  response := none

end Sys2Proof.Machine
end

