-- ==== Sys2Proof/Machine/Ops.lean ====
section
/-! DEFINITION. The named operations: the cells of a sparse array, the two memory primitives MemRead and MemWrite of
spec/00_scope.md section 4, the serialisation LUTSER, and the ways a command ends: respond and raise. Raising an error
is what this hardware has in the place of taking an exception; there is no return from one (spec/60_exceptions.md
R317, R318). -/

namespace Sys2Proof.Machine

/-- The value at an index; an index not listed reads 0, its reset value (spec/10_state.md R21, R340). -/
def Cells.read {w : Nat} (m : Cells w) (a : Nat) : BitVec w :=
  match m with
  | [] => 0
  | (b, u) :: r => if b = a then u else Cells.read r a

/-- The array without any cell at `a`. -/
def Cells.erase {w : Nat} (m : Cells w) (a : Nat) : Cells w :=
  m.filter fun c => c.1 != a

/-- The array with a cell put before the first one of a greater index. -/
def Cells.insert {w : Nat} (m : Cells w) (a : Nat) (v : BitVec w) : Cells w :=
  match m with
  | [] => [(a, v)]
  | (b, u) :: r => if a < b then (a, v) :: (b, u) :: r else (b, u) :: Cells.insert r a v

/-- `B[a] <- v`, in canonical form: writing 0 removes the cell. -/
def Cells.write {w : Nat} (m : Cells w) (a : Nat) (v : BitVec w) : Cells w :=
  if v = 0 then Cells.erase m a else Cells.insert (Cells.erase m a) a v

/-- `B[a + i] <- vs[i]` for each `i` in order. -/
def Cells.writeList {w : Nat} (m : Cells w) (a : Nat) (vs : List (BitVec w)) : Cells w :=
  match vs with
  | [] => m
  | v :: r => Cells.writeList (Cells.write m a v) (a + 1) r

/-- The `n` values from index `a` on. -/
def Cells.readList {w : Nat} (m : Cells w) (a n : Nat) : List (BitVec w) :=
  match n with
  | 0 => []
  | k + 1 => Cells.read m a :: Cells.readList m (a + 1) k

/-- Every index is at least `lo`, the indices rise strictly and no value is 0. -/
def Cells.wfFrom {w : Nat} (lo : Nat) (m : Cells w) : Bool :=
  match m with
  | [] => true
  | (b, u) :: r => decide (lo ≤ b) && u != 0 && Cells.wfFrom (b + 1) r

/-- The array is in canonical form. -/
def Cells.wf {w : Nat} (m : Cells w) : Bool := Cells.wfFrom 0 m

/-- Every index listed is below `n`: the array has at most `n` cells. -/
def Cells.within {w : Nat} (m : Cells w) (n : Nat) : Bool := m.all fun c => decide (c.1 < n)

/-- The array cut to its first `n` cells. -/
def Cells.take {w : Nat} (m : Cells w) (n : Nat) : Cells w := m.filter fun c => decide (c.1 < n)

/-- A byte array is in canonical form. -/
def Memory.wf (m : Memory) : Bool := Cells.wf m

/-- The `n` low bytes of a value, the least significant first (spec/20_memory.md R62). -/
def leBytes (n : Nat) (v : Word) : List Byte :=
  match n with
  | 0 => []
  | k + 1 => v.setWidth 8 :: leBytes k (v >>> 8)

/-- The value of a list of bytes, the least significant first (R62). -/
def leValue (bs : List Byte) : Word :=
  match bs with
  | [] => 0
  | b :: r => b.setWidth 32 ||| (leValue r <<< 8)

/-- MemRead(B, addr, n) for n up to 4, the widest unit of a well-formed layout (spec/00_scope.md section 4; R66). -/
def memRead (m : Memory) (addr n : Nat) : Word := leValue (Cells.readList m addr n)

/-- MemWrite(B, addr, n, v) for n up to 4 (spec/00_scope.md section 4; R66). -/
def memWrite (m : Memory) (addr n : Nat) (v : Word) : Memory := Cells.writeList m addr (leBytes n v)

/-- The index of instruction `j` of table slot `s` in LUT_TAB (spec/10_state.md R26). -/
def lutIndex (s j : Nat) : Nat := 8 * s + j

/-- LUT_BYTES = NSEQ * 16 (spec/00_scope.md R6). -/
def lutBytes (c : Config) : Nat := 16 * c.layout.nseq

/-- LUTSER[a]: byte `a` of the serialised lookup table. Byte `16 * s + 2 * j` is the low byte of instruction `j` of
slot `s`, the next one its high byte (spec/20_memory.md R63). -/
def lutSer (tab : Cells 16) (a : Nat) : Byte :=
  let i := Cells.read tab (lutIndex (a / 16) (a % 16 / 2))
  if a % 2 = 0 then i.extractLsb' 0 8 else i.extractLsb' 8 8

/-- A fresh byte array of `n` bytes with byte `i` at `f i`. -/
def tabulate (f : Nat → Byte) (n : Nat) : Memory := Cells.writeList [] 0 ((List.range n).map f)

/-- The error kinds of spec/60_exceptions.md R310. -/
inductive ErrorKind where
  | invalidFieldValue
  | sequenceOverflow
  | missingRequiredField
  | layoutInvariantViolation
  | invalidCommand
  | outputNotValid
deriving DecidableEq, Repr

/-- code(E) (R310). -/
def errorCode (e : ErrorKind) : Byte :=
  match e with
  | .invalidFieldValue => 1
  | .sequenceOverflow => 2
  | .missingRequiredField => 3
  | .layoutInvariantViolation => 4
  | .invalidCommand => 5
  | .outputNotValid => 6

/-- A response word: DATA in bits [63:32], bits [31:8] zero, STATUS in bits [7:0] (spec/30_encoding.md R101). -/
def responseWord (data : Word) (status : Byte) : DWord := data ++ (0 : BitVec 24) ++ status

/-- respond(d): the command completes with status OK and data word `d` (spec/00_scope.md section 4). -/
def respond (d : Word) (s : State) : Result :=
  .next { s with response := some (responseWord d 0) }

/-- raise code c: the command completes with status `c` and data 0; what was written before stands
(spec/00_scope.md section 4; spec/60_exceptions.md R317). -/
def raiseCode (c : Byte) (s : State) : Result :=
  .next { s with response := some (responseWord 0 c) }

/-- raise E (spec/00_scope.md section 4). -/
def raise (e : ErrorKind) (s : State) : Result := raiseCode (errorCode e) s

/-- The state with its registers replaced. -/
def State.withRegs (s : State) (r : Regs) : State := { s with regs := r }

end Sys2Proof.Machine
end

