-- ==== Sys2Proof/Machine/Flags.lean ====
section
/-! DEFINITION. The flags: the sticky error register of each stage (spec/10_state.md R31), `fail`, which records into
it, and the two status views STATUS and INFO (spec/45_status_readout.md R292, R293). -/

namespace Sys2Proof.Machine

/-- A stage, the builder state of one unit (spec/00_scope.md section 5). -/
inductive Stage where
  | seq
  | lut
  | pcb
  | ftb
deriving DecidableEq, Repr

/-- S_ERR (R31). -/
def stageErr (st : Stage) (r : Regs) : Byte :=
  match st with
  | .seq => r.seqErr
  | .lut => r.lutErr
  | .pcb => r.pcbErr
  | .ftb => r.ftbErr

/-- S_ERR <- c. -/
def setStageErr (st : Stage) (c : Byte) (r : Regs) : Regs :=
  match st with
  | .seq => { r with seqErr := c }
  | .lut => { r with lutErr := c }
  | .pcb => { r with pcbErr := c }
  | .ftb => { r with ftbErr := c }

/-- The registers after `fail S` records code `c`: only the first error of a stage is kept (R31). -/
def recordErr (st : Stage) (c : Byte) (r : Regs) : Regs :=
  if stageErr st r = 0 then setStageErr st c r else r

/-- fail S, code c (spec/00_scope.md section 4). -/
def failCode (st : Stage) (c : Byte) (s : State) : Result :=
  raiseCode c (s.withRegs (recordErr st c s.regs))

/-- fail S, E (spec/00_scope.md section 4). -/
def fail (st : Stage) (e : ErrorKind) (s : State) : Result := failCode st (errorCode e) s

/-- The STATUS view: SEQ_ERR in [7:0], LUT_ERR in [15:8], PCB_ERR in [23:16], FTB_ERR in [31:24] (R292). -/
def statusView (r : Regs) : Word := r.ftbErr ++ r.pcbErr ++ r.lutErr ++ r.seqErr

/-- The INFO view (R293). -/
def infoView (r : Regs) : Word :=
  (0 : BitVec 20) ++ BitVec.ofBool r.outValid ++ r.tfSet ++ BitVec.ofBool r.ftbWrapped ++ BitVec.ofBool r.pcbValid
    ++ BitVec.ofBool r.pfSclkSet ++ BitVec.ofBool r.pcbLutSet ++ r.seqK

end Sys2Proof.Machine
end

