-- ==== Sys2Proof/Machine/Operands.lean ====
section
/-! DEFINITION. The operand forms: the LUT instruction triple (spec/40_instruction_encoder.md R131), the LUT command
selector (spec/30_encoding.md R106; spec/42_lookup_table.md R200), the field ids of PCB_SET and FTB_SET (R107, R108)
with the legal set and the encoding of each field (spec/43_peripheral_block.md R224; spec/44_flash_type_block.md
R272). -/

namespace Sys2Proof.Machine

/-- InstrLegal(o, p, d) (R131, on the ports of R105). -/
def instrLegal (f : Family) (o p : Byte) (d : Word) : Bool :=
  decide (o.toNat < 64) && f.opcodes.contains (o.setWidth 6) && decide (p.toNat < 4) && decide (d.toNat < 256)

/-- instr(o, p, d) = zext_16(o) << 10 | zext_16(p) << 8 | zext_16(d) (R91, R131). -/
def packInstr (o p : Byte) (d : Word) : Half :=
  (o.setWidth 16 <<< 10) ||| (p.setWidth 16 <<< 8) ||| d.setWidth 16

/-- The number of pads of a pad-width class: the code is its base-2 logarithm (R92). -/
def padCount (p : BitVec 2) : Nat := 2 ^ p.toNat

/-- A Command of the lookup table (R200). -/
inductive Command where
  | read
  | readStatus
  | writeEnable
  | eraseSector
  | pageProgram
  | chipErase
  | custom (i : Nat)
deriving DecidableEq, Repr

/-- The slots of the six named Commands (R200). -/
def namedSlots (l : Layout) : List Nat :=
  [l.cmdIndex.read.toNat, l.cmdIndex.readStatus.toNat, l.cmdIndex.writeEnable.toNat, l.cmdIndex.eraseSector.toNat,
    l.cmdIndex.pageProgram.toNat, l.cmdIndex.chipErase.toNat]

/-- fixed_index(C) (R200, R201), as the word LUT_SET answers. -/
def fixedIndex (l : Layout) (c : Command) : Word :=
  match c with
  | .read => l.cmdIndex.read
  | .readStatus => l.cmdIndex.readStatus
  | .writeEnable => l.cmdIndex.writeEnable
  | .eraseSector => l.cmdIndex.eraseSector
  | .pageProgram => l.cmdIndex.pageProgram
  | .chipErase => l.cmdIndex.chipErase
  | .custom i => BitVec.ofNat 32 i

/-- Custom(i) is a Command when `i` is below NSEQ and no named Command's slot (R200). -/
def customCommand (l : Layout) (i : Nat) : Option Command :=
  if i < l.nseq ∧ i ∉ namedSlots l then some (.custom i) else none

/-- The Command a selector selects (R106). -/
def selectCommand (l : Layout) (c : Byte) : Option Command :=
  match c.toNat with
  | 0x01 => some .read
  | 0x02 => some .readStatus
  | 0x03 => some .writeEnable
  | 0x04 => some .eraseSector
  | 0x05 => some .pageProgram
  | 0x06 => some .chipErase
  | n => if 0x80 ≤ n then customCommand l (n - 0x80) else none

/-- The field of a PCB_SET field id (R107). -/
def pcbFieldOf (f : Byte) : Option PcbField :=
  match f.toNat with
  | 0x01 => some .readSampleClkSrc
  | 0x02 => some .csHoldTime
  | 0x03 => some .csSetupTime
  | 0x04 => some .columnAddressWidth
  | 0x05 => some .deviceModeCfgEnable
  | 0x06 => some .deviceModeSeq
  | 0x07 => some .deviceModeArg
  | 0x08 => some .waitTimeCfgCommands
  | 0x09 => some .deviceType
  | 0x0A => some .sflashPadType
  | 0x0B => some .serialClkFreq
  | 0x0C => some .sflashA1Size
  | 0x0D => some .sflashA2Size
  | 0x0E => some .sflashB1Size
  | 0x0F => some .sflashB2Size
  | _ => none

/-- The field of an FTB_SET field id (R108). -/
def ftbFieldOf (f : Byte) : Option FtbField :=
  match f.toNat with
  | 0x01 => some .pageSize
  | 0x02 => some .sectorSize
  | 0x03 => some .ipCmdSerialClkFreq
  | _ => none

/-- The place of a peripheral field among the fifteen, which is its id less 1 (R107). -/
def pcbFieldIndex (f : PcbField) : Fin 15 :=
  match f with
  | .readSampleClkSrc => 0
  | .csHoldTime => 1
  | .csSetupTime => 2
  | .columnAddressWidth => 3
  | .deviceModeCfgEnable => 4
  | .deviceModeSeq => 5
  | .deviceModeArg => 6
  | .waitTimeCfgCommands => 7
  | .deviceType => 8
  | .sflashPadType => 9
  | .serialClkFreq => 10
  | .sflashA1Size => 11
  | .sflashA2Size => 12
  | .sflashB1Size => 13
  | .sflashB2Size => 14

/-- The place of a trailer field among the three, which is its TF_SET bit (R272). -/
def ftbFieldIndex (t : FtbField) : Fin 3 :=
  match t with
  | .pageSize => 0
  | .sectorSize => 1
  | .ipCmdSerialClkFreq => 2

/-- LAYOUT.FIELD[f] (R220). -/
def fieldEntry (l : Layout) (f : PcbField) : Entry := l.field.get (pcbFieldIndex f)

/-- LAYOUT.TRAILER[t] (R220). -/
def trailerEntry (l : Layout) (t : FtbField) : Entry := l.trailer.get (ftbFieldIndex t)

/-- The three trailer fields in ascending id (R272). -/
def ftbFieldsAll : List FtbField := [.pageSize, .sectorSize, .ipCmdSerialClkFreq]

/-- The value of a key in a partial map given as a list: the first row of the key counts (log 13). -/
def mapLookup {w : Nat} (rows : List (Word × BitVec w)) (k : Word) : Option (BitVec w) :=
  match rows with
  | [] => none
  | (a, b) :: r => if a = k then some b else mapLookup r k

/-- FAMILY.REGION_ENC(V), none where it is undefined (R223). -/
def regionEncode (e : RegionEnc) (v : Word) : Option Word :=
  match e with
  | .identity => some v
  | .table rows => mapLookup rows v

/-- A code stored as it is when it is one of the legal codes. -/
def legalCode (codes : List Byte) (v : Word) : Option Word :=
  if codes.any fun c => c.setWidth 32 == v then some v else none

/-- A value stored as it is when `ok` holds. -/
def legalWhen (ok : Bool) (v : Word) : Option Word := if ok then some v else none

/-- A frequency in MHz stored as its code (R223). -/
def freqEncode (m : List (Word × Byte)) (v : Word) : Option Word := (mapLookup m v).map fun c => c.setWidth 32

/-- Legal_f of DEVICE_MODE_SEQ: V[31:16] = 0, V[7:0] ≥ 1 and V[15:8] + V[7:0] ≤ NSEQ (R224). -/
def deviceModeSeqLegal (nseq : Nat) (v : Word) : Bool :=
  v.extractLsb' 16 16 == 0 && decide (1 ≤ (v.extractLsb' 0 8).toNat)
    && decide ((v.extractLsb' 8 8).toNat + (v.extractLsb' 0 8).toNat ≤ nseq)

/-- Enc_f(V) when Legal_f(V), else none: the table of R224. -/
def fieldEncode (c : Config) (f : PcbField) (v : Word) : Option Word :=
  match f with
  | .readSampleClkSrc => legalCode c.family.rscLegal v
  | .csHoldTime => legalWhen (decide (v.toNat ≤ 0xFF)) v
  | .csSetupTime => legalWhen (decide (v.toNat ≤ 0xFF)) v
  | .columnAddressWidth => legalCode c.family.cawLegal v
  | .deviceModeCfgEnable => legalWhen (v == 0 || v == 1) v
  | .deviceModeSeq => legalWhen (deviceModeSeqLegal c.layout.nseq v) v
  | .deviceModeArg => some v
  | .waitTimeCfgCommands => legalWhen (decide (v.toNat ≤ 0xFFFF)) v
  | .deviceType => legalCode c.family.devTypeLegal v
  | .sflashPadType => legalCode c.family.padLegal v
  | .serialClkFreq => freqEncode c.family.freq v
  | .sflashA1Size => regionEncode c.family.regionEnc v
  | .sflashA2Size => regionEncode c.family.regionEnc v
  | .sflashB1Size => regionEncode c.family.regionEnc v
  | .sflashB2Size => regionEncode c.family.regionEnc v

/-- Enc_t(V) when Legal_t(V), else none: the table of R272. -/
def trailerEncode (c : Config) (t : FtbField) (v : Word) : Option Word :=
  match t with
  | .pageSize => legalWhen (decide (1 ≤ v.toNat)) v
  | .sectorSize => legalWhen (decide (1 ≤ v.toNat)) v
  | .ipCmdSerialClkFreq => freqEncode c.family.ipFreq v

/-- REG_f, zero-extended (R224). -/
def getField (pf : PcbFields) (f : PcbField) : Word :=
  match f with
  | .readSampleClkSrc => pf.rsc.setWidth 32
  | .csHoldTime => pf.csHold.setWidth 32
  | .csSetupTime => pf.csSetup.setWidth 32
  | .columnAddressWidth => pf.caw.setWidth 32
  | .deviceModeCfgEnable => pf.dmEn.setWidth 32
  | .deviceModeSeq => pf.dmSeq
  | .deviceModeArg => pf.dmArg
  | .waitTimeCfgCommands => pf.wait.setWidth 32
  | .deviceType => pf.devType.setWidth 32
  | .sflashPadType => pf.pad.setWidth 32
  | .serialClkFreq => pf.sclk.setWidth 32
  | .sflashA1Size => pf.a1
  | .sflashA2Size => pf.a2
  | .sflashB1Size => pf.b1
  | .sflashB2Size => pf.b2

/-- REG_f <- v, at the register's own width (R224). Every encoded value fits it (`getField_setField`). -/
def setField (pf : PcbFields) (f : PcbField) (v : Word) : PcbFields :=
  match f with
  | .readSampleClkSrc => { pf with rsc := v.setWidth 8 }
  | .csHoldTime => { pf with csHold := v.setWidth 8 }
  | .csSetupTime => { pf with csSetup := v.setWidth 8 }
  | .columnAddressWidth => { pf with caw := v.setWidth 8 }
  | .deviceModeCfgEnable => { pf with dmEn := v.setWidth 8 }
  | .deviceModeSeq => { pf with dmSeq := v }
  | .deviceModeArg => { pf with dmArg := v }
  | .waitTimeCfgCommands => { pf with wait := v.setWidth 16 }
  | .deviceType => { pf with devType := v.setWidth 8 }
  | .sflashPadType => { pf with pad := v.setWidth 8 }
  | .serialClkFreq => { pf with sclk := v.setWidth 8 }
  | .sflashA1Size => { pf with a1 := v }
  | .sflashA2Size => { pf with a2 := v }
  | .sflashB1Size => { pf with b1 := v }
  | .sflashB2Size => { pf with b2 := v }

/-- REG_t, zero-extended (R272). -/
def getTrailer (tf : TrailerFields) (t : FtbField) : Word :=
  match t with
  | .pageSize => tf.page
  | .sectorSize => tf.sector
  | .ipCmdSerialClkFreq => tf.ipClk.setWidth 32

/-- REG_t <- v (R272). -/
def setTrailer (tf : TrailerFields) (t : FtbField) (v : Word) : TrailerFields :=
  match t with
  | .pageSize => { tf with page := v }
  | .sectorSize => { tf with sector := v }
  | .ipCmdSerialClkFreq => { tf with ipClk := v.setWidth 8 }

/-- TF_SET[bit_t] <- 1 (R275). -/
def setTrailerBit (b : BitVec 3) (t : FtbField) : BitVec 3 :=
  match t with
  | .pageSize => b ||| 0b001
  | .sectorSize => b ||| 0b010
  | .ipCmdSerialClkFreq => b ||| 0b100

end Sys2Proof.Machine
end

