-- ==== Sys2Proof/Machine/Image.lean ====
section
/-! DEFINITION. The two images: BuildPCB of spec/43_peripheral_block.md R226 and the final image of
spec/44_flash_type_block.md R276. -/

namespace Sys2Proof.Machine

/-- `((1 << nb) - 1) << sh`: the bits of an entry inside its unit (R226). -/
def entryMask (e : Entry) : Word := (((1 : Word) <<< e.nb) - 1) <<< e.sh

/-- The masked write of a value into its entry: the read-modify-write of R226 and R276. -/
def writeEntry (img : Memory) (e : Entry) (v : Word) : Memory :=
  memWrite img e.off e.w ((memRead img e.off e.w &&& ~~~(entryMask e)) ||| ((v <<< e.sh) &&& entryMask e))

/-- The value BuildPCB writes for a field: its register, but 0 for the device mode sequence and argument while
PF_DMEN = 0 (R225 (b), R226). -/
def imageValue (pf : PcbFields) (f : PcbField) : Word :=
  if (f = .deviceModeSeq ∨ f = .deviceModeArg) ∧ pf.dmEn = 0 then 0 else getField pf f

/-- FAMILY.FIELDS in ascending id (R226). -/
def familyFields (c : Config) : List PcbField := pcbFieldsAll.filter fun f => c.family.fields.contains f

/-- The zero-filled image with the tag at 0 and the version at 4 (R226; TAG_OFF and VERSION_OFF of R220). -/
def headerImage (c : Config) : Memory := memWrite (memWrite [] 0 4 c.tag) 4 4 c.version

/-- BuildPCB() (R226): the header, then each field of the family, then PCB_LUT at LUT_OFF. -/
def buildPcb (c : Config) (pf : PcbFields) (lut : Memory) : Memory :=
  Cells.writeList
    ((familyFields c).foldl (fun img f => writeEntry img (fieldEntry c.layout f) (imageValue pf f)) (headerImage c))
    c.layout.lutOff (Cells.readList lut 0 (lutBytes c))

/-- The final image (R276): the PCB_SIZE bytes of the wrapped block followed by a zero trailer, then each trailer
field. -/
def buildFinal (c : Config) (fwrap : Memory) (tf : TrailerFields) : Memory :=
  ftbFieldsAll.foldl (fun img t => writeEntry img (trailerEntry c.layout t) (getTrailer tf t))
    (Cells.take fwrap c.layout.pcbSize.toNat)

end Sys2Proof.Machine
end

