-- ==== Sys2Proof/Machine/Layout.lean ====
section
/-! DEFINITION. WF(LAYOUT, FAMILY), the layout invariant of spec/43_peripheral_block.md R221, item by item. It
depends only on CONFIG. -/

namespace Sys2Proof.Machine

/-- All fifteen FIELD entries (R220; log 9). -/
def fieldEntries (l : Layout) : List Entry := pcbFieldsAll.map (fieldEntry l)

/-- All three TRAILER entries (R220). -/
def trailerEntries (l : Layout) : List Entry := ftbFieldsAll.map (trailerEntry l)

/-- Item 1: TOTAL_SIZE = PCB_SIZE + TRAILER_SIZE. -/
def wfTotal (l : Layout) : Bool := decide (l.totalSize.toNat = l.pcbSize.toNat + l.trailerSize)

/-- Item 2: NSEQ ≥ 1, LUT_OFF ≥ 8 and LUT_OFF + 16 * NSEQ ≤ PCB_SIZE. -/
def wfTable (l : Layout) : Bool :=
  decide (1 ≤ l.nseq) && decide (8 ≤ l.lutOff) && decide (l.lutOff + 16 * l.nseq ≤ l.pcbSize.toNat)

/-- Items 3 and 4, what they share: a unit of 1, 2 or 4 bytes inside `[lo, hi)` and a bit range inside the unit. -/
def entryOk (lo hi : Nat) (e : Entry) : Bool :=
  [1, 2, 4].contains e.w && decide (1 ≤ e.nb) && decide (e.sh + e.nb ≤ 8 * e.w) && decide (lo ≤ e.off)
    && decide (e.off + e.w ≤ hi)

/-- Item 3: the FIELD entries. -/
def wfFields (l : Layout) : Bool := (fieldEntries l).all (entryOk 8 l.pcbSize.toNat)

/-- Item 4: the TRAILER entries. -/
def wfTrailer (l : Layout) : Bool := (trailerEntries l).all (entryOk l.pcbSize.toNat l.totalSize.toNat)

/-- The bits of the image an entry occupies, from the first to one past the last: bit `k` of the little-endian unit at
`off` is bit `8 * off + k` of the image. -/
def entryBits (e : Entry) : Nat × Nat := (8 * e.off + e.sh, 8 * e.off + e.sh + e.nb)

/-- Every region of the image that holds something: the tag, the version, the lookup table, each FIELD entry and each
TRAILER entry (item 5). -/
def imageRegions (l : Layout) : List (Nat × Nat) :=
  (0, 32) :: (32, 64) :: (8 * l.lutOff, 8 * (l.lutOff + 16 * l.nseq))
    :: ((fieldEntries l).map entryBits ++ (trailerEntries l).map entryBits)

/-- One of two bit ranges ends before the other begins. -/
def apart (a b : Nat × Nat) : Bool := decide (a.2 ≤ b.1) || decide (b.2 ≤ a.1)

/-- Any two of the ranges are apart. -/
def allApart (rs : List (Nat × Nat)) : Bool :=
  match rs with
  | [] => true
  | r :: rest => rest.all (apart r) && allApart rest

/-- Item 5: no bit of the image belongs to two regions. -/
def wfDisjoint (l : Layout) : Bool := allApart (imageRegions l)

/-- Item 6: CMD_INDEX is injective on the six named Commands and each value is below NSEQ. -/
def wfCmdIndex (l : Layout) : Bool :=
  decide (namedSlots l).Nodup && (namedSlots l).all fun s => decide (s < l.nseq)

/-- Every code is below 2^nb. -/
def codesFit (codes : List Byte) (nb : Nat) : Bool := codes.all fun c => decide (c.toNat < 2 ^ nb)

/-- Every value a partial map gives is below 2^nb. -/
def mapFits {w : Nat} (rows : List (Word × BitVec w)) (nb : Nat) : Bool :=
  rows.all fun r => match mapLookup rows r.1 with
    | some v => decide (v.toNat < 2 ^ nb)
    | none => true

/-- Every stored region size is below 2^nb. -/
def regionFits (e : RegionEnc) (nb : Nat) : Bool :=
  match e with
  | .identity => decide (32 ≤ nb)
  | .table rows => mapFits rows nb

/-- Every legal DEVICE_MODE_SEQ is below 2^nb: the greatest has the last slot in V[15:8] and all the sequences from it
on in V[7:0]; with NSEQ = 0 none is legal. -/
def deviceModeSeqFits (nseq nb : Nat) : Bool :=
  nseq == 0 || decide (min 255 (nseq - 1) * 256 + min 255 (nseq - min 255 (nseq - 1)) < 2 ^ nb)

/-- Item 7 for one peripheral field: every value legal for `f` has Enc_f(v) < 2^nb (see `fieldFits_iff`). -/
def fieldFits (c : Config) (f : PcbField) (nb : Nat) : Bool :=
  match f with
  | .readSampleClkSrc => codesFit c.family.rscLegal nb
  | .csHoldTime => decide (8 ≤ nb)
  | .csSetupTime => decide (8 ≤ nb)
  | .columnAddressWidth => codesFit c.family.cawLegal nb
  | .deviceModeCfgEnable => decide (1 ≤ nb)
  | .deviceModeSeq => deviceModeSeqFits c.layout.nseq nb
  | .deviceModeArg => decide (32 ≤ nb)
  | .waitTimeCfgCommands => decide (16 ≤ nb)
  | .deviceType => codesFit c.family.devTypeLegal nb
  | .sflashPadType => codesFit c.family.padLegal nb
  | .serialClkFreq => mapFits c.family.freq nb
  | .sflashA1Size => regionFits c.family.regionEnc nb
  | .sflashA2Size => regionFits c.family.regionEnc nb
  | .sflashB1Size => regionFits c.family.regionEnc nb
  | .sflashB2Size => regionFits c.family.regionEnc nb

/-- Item 7 for one trailer field. -/
def trailerFits (c : Config) (t : FtbField) (nb : Nat) : Bool :=
  match t with
  | .pageSize => decide (32 ≤ nb)
  | .sectorSize => decide (32 ≤ nb)
  | .ipCmdSerialClkFreq => mapFits c.family.ipFreq nb

/-- Item 7: every legal value fits its bits, for the fields of FAMILY.FIELDS and the three trailer fields. -/
def wfValues (c : Config) : Bool :=
  (c.family.fields.all fun f => fieldFits c f (fieldEntry c.layout f).nb)
    && ftbFieldsAll.all fun t => trailerFits c t (trailerEntry c.layout t).nb

/-- WF(LAYOUT, FAMILY) (R221). -/
def layoutWf (c : Config) : Bool :=
  wfTotal c.layout && wfTable c.layout && wfFields c.layout && wfTrailer c.layout && wfDisjoint c.layout
    && wfCmdIndex c.layout && wfValues c

end Sys2Proof.Machine
end

