-- ==== Sys2Proof/Machine/Ftb.lean ====
section
/-! DEFINITION. The flash-type-block wrapper (spec/44_flash_type_block.md): FTB_CLEAR, FTB_WRAP, FTB_SET,
FTB_FINALIZE. -/

namespace Sys2Proof.Machine

/-- OUT <- all 0x00; OUT_VALID <- 0: the head of FTB_WRAP, FTB_SET and FTB_FINALIZE. -/
def invalidateOut (r : Regs) : Regs := { r with out := [], outValid := false }

/-- The registers with a new, empty flash-type block (R273). -/
def clearFtb (r : Regs) : Regs :=
  { r with fwrap := [], ftbWrapped := false, tf := trailerFieldsReset, tfSet := 0, ftbErr := 0, out := [],
           outValid := false }

/-- The registers with PIMG copied into FWRAP (R274; a snapshot, spec/20_memory.md R73). -/
def wrapPcb (r : Regs) : Regs := { r with fwrap := r.pimg, ftbWrapped := true }

/-- The registers with an encoded trailer value stored and its TF_SET bit set (R275). -/
def storeTrailer (t : FtbField) (e : Word) (r : Regs) : Regs :=
  { r with tf := setTrailer r.tf t e, tfSet := setTrailerBit r.tfSet t }

/-- The registers with the finished final image (R276). -/
def finishFtb (c : Config) (r : Regs) : Regs := { r with out := buildFinal c r.fwrap r.tf, outValid := true }

/-- FTB_CLEAR (R273). -/
def execFtbClear (s : State) : Result := respond 0 (s.withRegs (clearFtb s.regs))

/-- FTB_WRAP after the invalidation (R274). -/
def ftbWrapImage (s : State) : Result :=
  if s.regs.ftbErr ≠ 0 then raiseCode s.regs.ftbErr s
  else if s.regs.pcbErr ≠ 0 then failCode .ftb s.regs.pcbErr s
  else if s.regs.pcbValid = false then fail .ftb .missingRequiredField s
  else respond 0 (s.withRegs (wrapPcb s.regs))

/-- FTB_WRAP (R274). -/
def execFtbWrap (s : State) : Result := ftbWrapImage (s.withRegs (invalidateOut s.regs))

/-- FTB_SET of a field that exists, after the invalidation (R275). -/
def ftbSetField (t : FtbField) (v : Word) (s : State) : Result :=
  if s.regs.ftbErr ≠ 0 then raiseCode s.regs.ftbErr s
  else
    match trailerEncode s.cfg t v with
    | none => fail .ftb .invalidFieldValue s
    | some e => respond 0 (s.withRegs (storeTrailer t e s.regs))

/-- FTB_SET (R275). A field id outside 0x01 to 0x03 makes the word not well-formed and changes nothing
(spec/30_encoding.md R108; spec/45_status_readout.md R296). -/
def execFtbSet (f : Byte) (v : Word) (s : State) : Result :=
  match ftbFieldOf f with
  | none => raise .invalidCommand s
  | some t => ftbSetField t v (s.withRegs (invalidateOut s.regs))

/-- FTB_FINALIZE after the invalidation (R276). The image is FWRAP followed by TRAILER_SIZE bytes, and its length is
asserted against TOTAL_SIZE. -/
def ftbFinish (s : State) : Result :=
  if s.regs.ftbErr ≠ 0 then raiseCode s.regs.ftbErr s
  else if layoutWf s.cfg = false then raise .layoutInvariantViolation s
  else if s.regs.ftbWrapped = false then raise .missingRequiredField s
  else if s.regs.tfSet ≠ 0b111 then raise .missingRequiredField s
  else if s.cfg.layout.pcbSize.toNat + s.cfg.layout.trailerSize ≠ s.cfg.layout.totalSize.toNat then
    raise .layoutInvariantViolation s
  else respond s.cfg.layout.totalSize (s.withRegs (finishFtb s.cfg s.regs))

/-- FTB_FINALIZE (R276). -/
def execFtbFinalize (s : State) : Result := ftbFinish (s.withRegs (invalidateOut s.regs))

end Sys2Proof.Machine
end

