-- ==== Sys2Proof/Machine/Interface.lean ====
section
/-! DEFINITION. The interface and read-out commands (spec/45_status_readout.md): NOP, STATUS, INFO, RD_RESULT,
OUT_READ, OUT_READ32. None changes a register (spec/20_memory.md R68). -/

namespace Sys2Proof.Machine

/-- NOP (R291). -/
def execNop (s : State) : Result := respond 0 s

/-- STATUS (R292). -/
def execStatus (s : State) : Result := respond (statusView s.regs) s

/-- INFO (R293). -/
def execInfo (s : State) : Result := respond (infoView s.regs) s

/-- RD_RESULT (R294). -/
def execRdResult (s : State) : Result := respond (s.regs.result.setWidth 32) s

/-- OUT_READ (R295): the range test precedes the validity test. -/
def execOutRead (v : Word) (s : State) : Result :=
  if s.cfg.layout.totalSize.toNat ≤ v.toNat then raise .invalidCommand s
  else if s.regs.outValid = false then raise .outputNotValid s
  else respond ((Cells.read s.regs.out v.toNat).setWidth 32) s

/-- OUT_READ32 (R298): `a + 4` is computed on naturals, without wrap. -/
def execOutRead32 (v : Word) (s : State) : Result :=
  if s.cfg.layout.totalSize.toNat < v.toNat + 4 then raise .invalidCommand s
  else if s.regs.outValid = false then raise .outputNotValid s
  else respond (memRead s.regs.out v.toNat 4) s

end Sys2Proof.Machine
end

