-- ==== Sys2Proof/Machine/Lut.lean ====
section
/-! DEFINITION. The LUT serializer (spec/42_lookup_table.md): LUT_CLEAR, LUT_SET, LUT_READ. -/

namespace Sys2Proof.Machine

/-- The registers with an empty table (R202). -/
def clearLut (r : Regs) : Regs := { r with lutTab := [], lutErr := 0 }

/-- The registers with the eight sequence slots copied into table slot `i` (R203; a snapshot, spec/20_memory.md
R73). -/
def mapSequence (i : Nat) (r : Regs) : Regs :=
  { r with lutTab := Cells.writeList r.lutTab (lutIndex i 0) r.seqSlot.toList }

/-- LUT_CLEAR (R202). -/
def execLutClear (s : State) : Result := respond 0 (s.withRegs (clearLut s.regs))

/-- LUT_SET once its selector has selected a Command of fixed index `i` (R203). -/
def lutSetSlot (i : Word) (s : State) : Result :=
  if s.regs.seqErr ≠ 0 then failCode .lut s.regs.seqErr s
  else if s.cfg.layout.nseq ≤ i.toNat then fail .lut .layoutInvariantViolation s
  else respond i (s.withRegs (mapSequence i.toNat s.regs))

/-- LUT_SET (R203). -/
def execLutSet (f : Byte) (s : State) : Result :=
  if s.regs.lutErr ≠ 0 then raiseCode s.regs.lutErr s
  else
    match selectCommand s.cfg.layout f with
    | none => fail .lut .invalidFieldValue s
    | some c => lutSetSlot (fixedIndex s.cfg.layout c) s

/-- LUT_READ (R204). -/
def execLutRead (v : Word) (s : State) : Result :=
  if lutBytes s.cfg ≤ v.toNat then raise .invalidCommand s
  else respond ((lutSer s.regs.lutTab v.toNat).setWidth 32) s

end Sys2Proof.Machine
end

