-- ==== Sys2Proof/Machine/Packer.lean ====
section
/-! DEFINITION. The instruction packer (spec/40_instruction_encoder.md): ENC, and one meaning for each LUT opcode. The
block's effect for a LUT opcode is its packing, "via ENC (rule R130) or SEQ_PUSH" (R140 to R167); a LUT instruction on
its own is performed as ENC of its opcode (DESIGN CHOICE, log 5). What the serial-flash peripheral does with it is
outside the block (spec/00_scope.md section 2). -/

namespace Sys2Proof.Machine

/-- The packer: check, pack into RESULT, answer the packed value (R130, R131). A failure leaves RESULT unchanged. -/
def packInto (o p : Byte) (d : Word) (s : State) : Result :=
  if instrLegal s.cfg.family o p d then
    respond ((packInstr o p d).setWidth 32) (s.withRegs { s.regs with result := packInstr o p d })
  else raise .invalidFieldValue s

/-- The packer on the fields of a LUT instruction, widened to the ports of R105. -/
def packRow (op : BitVec 6) (p : BitVec 2) (d : Byte) (s : State) : Result :=
  packInto (op.setWidth 8) (p.setWidth 8) (d.setWidth 32) s

/-- The packer on a 16-bit LUT instruction given by its bits (R90, R91). -/
def packWord (w : Half) (s : State) : Result :=
  packRow (w.extractLsb' 10 6) (w.extractLsb' 8 2) (w.extractLsb' 0 8) s

/-- ENC (R130). -/
def execEnc (o p : Byte) (d : Word) (s : State) : Result := packInto o p d s

/-- STOP (R140). -/
def execStop (p : BitVec 2) (d : Byte) (s : State) : Result := packRow 0x00 p d s
/-- JMP_ON_CS (R141). -/
def execJmpOnCs (p : BitVec 2) (d : Byte) (s : State) : Result := packRow 0x1F p d s
/-- CMD_SDR (R142). -/
def execCmdSdr (p : BitVec 2) (d : Byte) (s : State) : Result := packRow 0x01 p d s
/-- CMD_DDR (R143). -/
def execCmdDdr (p : BitVec 2) (d : Byte) (s : State) : Result := packRow 0x21 p d s
/-- RADDR_SDR (R144). -/
def execRaddrSdr (p : BitVec 2) (d : Byte) (s : State) : Result := packRow 0x02 p d s
/-- RADDR_DDR (R145). -/
def execRaddrDdr (p : BitVec 2) (d : Byte) (s : State) : Result := packRow 0x22 p d s
/-- CADDR_SDR (R146). -/
def execCaddrSdr (p : BitVec 2) (d : Byte) (s : State) : Result := packRow 0x03 p d s
/-- CADDR_DDR (R147). -/
def execCaddrDdr (p : BitVec 2) (d : Byte) (s : State) : Result := packRow 0x23 p d s
/-- MODE1_SDR (R148). -/
def execMode1Sdr (p : BitVec 2) (d : Byte) (s : State) : Result := packRow 0x04 p d s
/-- MODE1_DDR (R149). -/
def execMode1Ddr (p : BitVec 2) (d : Byte) (s : State) : Result := packRow 0x24 p d s
/-- MODE2_SDR (R150). -/
def execMode2Sdr (p : BitVec 2) (d : Byte) (s : State) : Result := packRow 0x05 p d s
/-- MODE2_DDR (R151). -/
def execMode2Ddr (p : BitVec 2) (d : Byte) (s : State) : Result := packRow 0x25 p d s
/-- MODE4_SDR (R152). -/
def execMode4Sdr (p : BitVec 2) (d : Byte) (s : State) : Result := packRow 0x06 p d s
/-- MODE4_DDR (R153). -/
def execMode4Ddr (p : BitVec 2) (d : Byte) (s : State) : Result := packRow 0x26 p d s
/-- MODE8_SDR (R154). -/
def execMode8Sdr (p : BitVec 2) (d : Byte) (s : State) : Result := packRow 0x07 p d s
/-- MODE8_DDR (R155). -/
def execMode8Ddr (p : BitVec 2) (d : Byte) (s : State) : Result := packRow 0x27 p d s
/-- WRITE_SDR (R156). -/
def execWriteSdr (p : BitVec 2) (d : Byte) (s : State) : Result := packRow 0x08 p d s
/-- WRITE_DDR (R157). -/
def execWriteDdr (p : BitVec 2) (d : Byte) (s : State) : Result := packRow 0x28 p d s
/-- READ_SDR (R158). -/
def execReadSdr (p : BitVec 2) (d : Byte) (s : State) : Result := packRow 0x09 p d s
/-- READ_DDR (R159). -/
def execReadDdr (p : BitVec 2) (d : Byte) (s : State) : Result := packRow 0x29 p d s
/-- LEARN_SDR (R160). -/
def execLearnSdr (p : BitVec 2) (d : Byte) (s : State) : Result := packRow 0x0A p d s
/-- LEARN_DDR (R161). -/
def execLearnDdr (p : BitVec 2) (d : Byte) (s : State) : Result := packRow 0x2A p d s
/-- DATSZ_SDR (R162). -/
def execDatszSdr (p : BitVec 2) (d : Byte) (s : State) : Result := packRow 0x0B p d s
/-- DATSZ_DDR (R163). -/
def execDatszDdr (p : BitVec 2) (d : Byte) (s : State) : Result := packRow 0x2B p d s
/-- DUMMY_SDR (R164). -/
def execDummySdr (p : BitVec 2) (d : Byte) (s : State) : Result := packRow 0x0C p d s
/-- DUMMY_DDR (R165). -/
def execDummyDdr (p : BitVec 2) (d : Byte) (s : State) : Result := packRow 0x2C p d s
/-- DUMMY_RWDS_SDR (R166). -/
def execDummyRwdsSdr (p : BitVec 2) (d : Byte) (s : State) : Result := packRow 0x0D p d s
/-- DUMMY_RWDS_DDR (R167). -/
def execDummyRwdsDdr (p : BitVec 2) (d : Byte) (s : State) : Result := packRow 0x2D p d s

end Sys2Proof.Machine
end

