-- ==== Sys2Proof/Machine/Pcb.lean ====
section
/-! DEFINITION. The peripheral-block layout engine (spec/43_peripheral_block.md): PCB_CLEAR, PCB_SET, PCB_LOAD_LUT,
PCB_FINALIZE, PCB_READ. -/

namespace Sys2Proof.Machine

/-- PIMG <- all 0x00; PCB_VALID <- 0: the head of PCB_SET, PCB_LOAD_LUT and PCB_FINALIZE. -/
def invalidatePcb (r : Regs) : Regs := { r with pimg := [], pcbValid := false }

/-- The registers with a new, empty peripheral block (R227). -/
def clearPcb (r : Regs) : Regs :=
  { r with pf := pcbFieldsReset, pfSclkSet := false, pcbLut := [], pcbLutSet := false, pcbErr := 0, pimg := [],
           pcbValid := false }

/-- The registers with an encoded field value stored; storing SERIAL_CLK_FREQ sets PF_SCLK_SET (R228). -/
def storeField (f : PcbField) (e : Word) (r : Regs) : Regs :=
  { r with pf := setField r.pf f e, pfSclkSet := r.pfSclkSet || f == .serialClkFreq }

/-- The registers with the serialised table copied into PCB_LUT (R229; a snapshot, spec/20_memory.md R73). -/
def loadLut (c : Config) (r : Regs) : Regs :=
  { r with pcbLut := tabulate (lutSer r.lutTab) (lutBytes c), pcbLutSet := true }

/-- The registers with a finished image (R230). -/
def finishPcb (c : Config) (r : Regs) : Regs := { r with pimg := buildPcb c r.pf r.pcbLut, pcbValid := true }

/-- PCB_CLEAR (R227). -/
def execPcbClear (s : State) : Result := respond 0 (s.withRegs (clearPcb s.regs))

/-- PCB_SET of a field that exists, after the invalidation (R228). -/
def pcbSetField (f : PcbField) (v : Word) (s : State) : Result :=
  if s.regs.pcbErr ≠ 0 then raiseCode s.regs.pcbErr s
  else if s.cfg.family.fields.contains f then
    match fieldEncode s.cfg f v with
    | none => fail .pcb .invalidFieldValue s
    | some e => respond 0 (s.withRegs (storeField f e s.regs))
  else fail .pcb .invalidFieldValue s

/-- PCB_SET (R228). A field id outside 0x01 to 0x0F makes the word not well-formed and changes nothing
(spec/30_encoding.md R107; spec/45_status_readout.md R296). -/
def execPcbSet (f : Byte) (v : Word) (s : State) : Result :=
  match pcbFieldOf f with
  | none => raise .invalidCommand s
  | some g => pcbSetField g v (s.withRegs (invalidatePcb s.regs))

/-- PCB_LOAD_LUT after the invalidation (R229). -/
def pcbLoad (s : State) : Result :=
  if s.regs.pcbErr ≠ 0 then raiseCode s.regs.pcbErr s
  else if s.regs.lutErr ≠ 0 then failCode .pcb s.regs.lutErr s
  else respond 0 (s.withRegs (loadLut s.cfg s.regs))

/-- PCB_LOAD_LUT (R229). -/
def execPcbLoadLut (s : State) : Result := pcbLoad (s.withRegs (invalidatePcb s.regs))

/-- PCB_FINALIZE after the invalidation (R230). -/
def pcbFinish (s : State) : Result :=
  if s.regs.pcbErr ≠ 0 then raiseCode s.regs.pcbErr s
  else if layoutWf s.cfg = false then raise .layoutInvariantViolation s
  else if s.regs.pcbLutSet = false then raise .missingRequiredField s
  else if s.regs.pfSclkSet = false then raise .missingRequiredField s
  else if s.regs.pf.dmEn = 1 ∧ s.regs.pf.dmSeq = 0 then raise .missingRequiredField s
  else respond s.cfg.layout.pcbSize (s.withRegs (finishPcb s.cfg s.regs))

/-- PCB_FINALIZE (R230). -/
def execPcbFinalize (s : State) : Result := pcbFinish (s.withRegs (invalidatePcb s.regs))

/-- PCB_READ (R231). -/
def execPcbRead (v : Word) (s : State) : Result :=
  if s.cfg.layout.pcbSize.toNat ≤ v.toNat then raise .invalidCommand s
  else if s.regs.pcbValid = false then raise .outputNotValid s
  else respond ((Cells.read s.regs.pimg v.toNat).setWidth 32) s

end Sys2Proof.Machine
end

