-- ==== Sys2Proof/Machine/Sequence.lean ====
section
/-! DEFINITION. The sequence assembler (spec/41_sequence_assembler.md): SEQ_CLEAR, SEQ_PUSH, SEQ_READ. -/

namespace Sys2Proof.Machine

/-- SEQ_SLOT[i], for i below 8. -/
def seqRead (r : Regs) (i : Nat) : Half := r.seqSlot.toList.getD i 0

/-- The registers with an empty sequence accumulator (R180). -/
def clearSeq (r : Regs) : Regs := { r with seqSlot := Vector.replicate 8 0x0000, seqK := 0, seqErr := 0 }

/-- The registers with one instruction appended at SEQ_K (R181). In the unreachable states with SEQ_K above 8 no slot
is written and SEQ_K wraps in its 4 bits (DESIGN CHOICE, log 10). -/
def pushSeq (i : Half) (r : Regs) : Regs :=
  { r with seqSlot := r.seqSlot.setIfInBounds r.seqK.toNat i, seqK := r.seqK + 1 }

/-- SEQ_CLEAR (R180). -/
def execSeqClear (s : State) : Result := respond 0 (s.withRegs (clearSeq s.regs))

/-- SEQ_PUSH (R181). -/
def execSeqPush (o p : Byte) (d : Word) (s : State) : Result :=
  if s.regs.seqErr ≠ 0 then raiseCode s.regs.seqErr s
  else if s.regs.seqK = 8 then fail .seq .sequenceOverflow s
  else if instrLegal s.cfg.family o p d then
    respond ((s.regs.seqK + 1).setWidth 32) (s.withRegs (pushSeq (packInstr o p d) s.regs))
  else fail .seq .invalidFieldValue s

/-- SEQ_READ (R182). -/
def execSeqRead (i : Byte) (s : State) : Result :=
  if 8 ≤ i.toNat then raise .invalidCommand s
  else respond ((seqRead s.regs i.toNat).setWidth 32) s

end Sys2Proof.Machine
end

