-- ==== Sys2Proof/Machine/Dispatch.lean ====
section
/-! DEFINITION. The dispatch: the meaning of each instruction, one arm for each constructor of Instr. -/

namespace Sys2Proof.Machine

def exec (i : Instr) (s : State) : Host.Outcome State Fault Refusal :=
  match i with
  | .stop p d => Sys2Proof.Machine.execStop p d s
  | .jmpOnCs p d => Sys2Proof.Machine.execJmpOnCs p d s
  | .cmdSdr p d => Sys2Proof.Machine.execCmdSdr p d s
  | .cmdDdr p d => Sys2Proof.Machine.execCmdDdr p d s
  | .raddrSdr p d => Sys2Proof.Machine.execRaddrSdr p d s
  | .raddrDdr p d => Sys2Proof.Machine.execRaddrDdr p d s
  | .caddrSdr p d => Sys2Proof.Machine.execCaddrSdr p d s
  | .caddrDdr p d => Sys2Proof.Machine.execCaddrDdr p d s
  | .mode1Sdr p d => Sys2Proof.Machine.execMode1Sdr p d s
  | .mode1Ddr p d => Sys2Proof.Machine.execMode1Ddr p d s
  | .mode2Sdr p d => Sys2Proof.Machine.execMode2Sdr p d s
  | .mode2Ddr p d => Sys2Proof.Machine.execMode2Ddr p d s
  | .mode4Sdr p d => Sys2Proof.Machine.execMode4Sdr p d s
  | .mode4Ddr p d => Sys2Proof.Machine.execMode4Ddr p d s
  | .mode8Sdr p d => Sys2Proof.Machine.execMode8Sdr p d s
  | .mode8Ddr p d => Sys2Proof.Machine.execMode8Ddr p d s
  | .writeSdr p d => Sys2Proof.Machine.execWriteSdr p d s
  | .writeDdr p d => Sys2Proof.Machine.execWriteDdr p d s
  | .readSdr p d => Sys2Proof.Machine.execReadSdr p d s
  | .readDdr p d => Sys2Proof.Machine.execReadDdr p d s
  | .learnSdr p d => Sys2Proof.Machine.execLearnSdr p d s
  | .learnDdr p d => Sys2Proof.Machine.execLearnDdr p d s
  | .datszSdr p d => Sys2Proof.Machine.execDatszSdr p d s
  | .datszDdr p d => Sys2Proof.Machine.execDatszDdr p d s
  | .dummySdr p d => Sys2Proof.Machine.execDummySdr p d s
  | .dummyDdr p d => Sys2Proof.Machine.execDummyDdr p d s
  | .dummyRwdsSdr p d => Sys2Proof.Machine.execDummyRwdsSdr p d s
  | .dummyRwdsDdr p d => Sys2Proof.Machine.execDummyRwdsDdr p d s
  | .nop => Sys2Proof.Machine.execNop s
  | .enc o p d => Sys2Proof.Machine.execEnc o p d s
  | .status => Sys2Proof.Machine.execStatus s
  | .info => Sys2Proof.Machine.execInfo s
  | .rdResult => Sys2Proof.Machine.execRdResult s
  | .seqClear => Sys2Proof.Machine.execSeqClear s
  | .seqPush o p d => Sys2Proof.Machine.execSeqPush o p d s
  | .seqRead f => Sys2Proof.Machine.execSeqRead f s
  | .lutClear => Sys2Proof.Machine.execLutClear s
  | .lutSet f => Sys2Proof.Machine.execLutSet f s
  | .lutRead v => Sys2Proof.Machine.execLutRead v s
  | .pcbClear => Sys2Proof.Machine.execPcbClear s
  | .pcbSet f v => Sys2Proof.Machine.execPcbSet f v s
  | .pcbLoadLut => Sys2Proof.Machine.execPcbLoadLut s
  | .pcbFinalize => Sys2Proof.Machine.execPcbFinalize s
  | .pcbRead v => Sys2Proof.Machine.execPcbRead v s
  | .ftbClear => Sys2Proof.Machine.execFtbClear s
  | .ftbWrap => Sys2Proof.Machine.execFtbWrap s
  | .ftbSet f v => Sys2Proof.Machine.execFtbSet f v s
  | .ftbFinalize => Sys2Proof.Machine.execFtbFinalize s
  | .outRead v => Sys2Proof.Machine.execOutRead v s
  | .outRead32 v => Sys2Proof.Machine.execOutRead32 v s

end Sys2Proof.Machine
end

