-- ==== Sys2Proof/Machine/Port.lean ====
section
/-! DEFINITION. The request port: accepting a request, the words that run an instruction, and what happens to the
others (spec/45_status_readout.md R290, R296; spec/70_reset_and_hazards.md R340). -/

namespace Sys2Proof.Machine

/-- The state with the request at the head of the stream accepted. -/
def acceptRequest (s : State) (rest : List Request) : State := { s with requests := rest }

/-- The well-formed instruction of a word, if there is one (spec/30_encoding.md R103, R104). -/
def runnable (x : InstrWord) : Option Instr :=
  match decode x with
  | .ok i => if i.wellFormed then some i else none
  | .error _ => none

/-- Reset (R340, R343): every register and array at its reset value, CONFIG kept, no response word produced. -/
def applyReset (s : State) : Result := .next { s with regs := regsReset, response := none }

/-- A word that runs no instruction. A command word that is not well-formed is answered InvalidCommand with no state
change (R290, R296). A LUT instruction whose opcode is in no row of R95 goes to the packer as any other (R131; log 5):
the packer rejects it unless FAMILY.OPCODES holds its opcode. -/
def answerUnrunnable (x : InstrWord) (s : State) : Result :=
  match x with
  | .cmd64 _ => raise .invalidCommand s
  | .lut16 w => packWord w s

end Sys2Proof.Machine
end

