-- ==== Sys2Proof/Machine/Step.lean ====
section
/-! DEFINITION. The step (spec/45_status_readout.md R290): take the host's next request, perform it completely. -/

namespace Sys2Proof.Machine

/-- One step: the next request is accepted and performed. A well-formed instruction word runs its instruction; any
other is answered as Port.lean says. With no request nothing happens (R320, R326; log 2). -/
def step (s : State) : Host.Outcome State Fault Refusal :=
  match s.requests with
  | [] => .next s
  | .reset :: rest => applyReset (acceptRequest s rest)
  | .present x :: rest =>
    match runnable x with
    | some i => exec i (acceptRequest s rest)
    | none => answerUnrunnable x (acceptRequest s rest)

/-- The state whose next step runs the instruction of `nbits` bits `w`: the host presents it next, before the requests
it has already lined up. -/
def State.withFetchWord (s : State) (nbits w : Nat) : State :=
  { s with requests := .present (tableWord nbits w) :: s.requests }

end Sys2Proof.Machine
end

