-- ==== Sys2Proof/Safety.lean ====
section
/-! DEFINITION. What a good state is (the invariants of spec/10_state.md R25, R28 to R33), what a run of commands is,
and which unit a command belongs to. -/

namespace Sys2Proof.Machine

/-- R25, R33 (c): SEQ_K is at most 8 and every slot from SEQ_K on is the no-op. -/
def SeqInv (r : Regs) : Prop :=
  r.seqK.toNat ≤ 8 ∧ ∀ i, r.seqK.toNat ≤ i → i < 8 → seqRead r i = 0

/-- R33 (d): the codes each sticky error register can hold. -/
def StickyInv (r : Regs) : Prop :=
  r.seqErr.toNat ∈ [0, 1, 2] ∧ r.lutErr.toNat ∈ [0, 1, 2, 4] ∧ r.pcbErr.toNat ∈ [0, 1, 2, 4]
    ∧ r.ftbErr.toNat ∈ [0, 1, 2, 3, 4]

/-- Every array is in canonical form and no longer than spec/20_memory.md R60 says. -/
def ArrayInv (c : Config) (r : Regs) : Prop :=
  (Cells.wf r.lutTab = true ∧ Cells.within r.lutTab (8 * c.layout.nseq) = true)
    ∧ (Memory.wf r.pcbLut = true ∧ Cells.within r.pcbLut (lutBytes c) = true)
    ∧ (Memory.wf r.pimg = true ∧ Cells.within r.pimg c.layout.pcbSize.toNat = true)
    ∧ (Memory.wf r.fwrap = true ∧ Cells.within r.fwrap c.layout.pcbSize.toNat = true)
    ∧ (Memory.wf r.out = true ∧ Cells.within r.out c.layout.totalSize.toNat = true)

/-- Every PF_* register holds its reset value or the encoding of a legal value (spec/43_peripheral_block.md R232 (e)),
and SERIAL_CLK_FREQ a legal one once PF_SCLK_SET is 1 (R28). -/
def FieldsLegal (c : Config) (pf : PcbFields) (sclkSet : Bool) : Prop :=
  (∀ f, getField pf f = getField pcbFieldsReset f ∨ ∃ v, fieldEncode c f v = some (getField pf f))
    ∧ (sclkSet = true → ∃ v, fieldEncode c .serialClkFreq v = some (getField pf .serialClkFreq))

/-- R29, R33 (a): PIMG is the image of the present registers while PCB_VALID is 1, and all zero while it is 0. -/
def PcbInv (c : Config) (r : Regs) : Prop :=
  (r.pcbValid = false → r.pimg = [])
    ∧ (r.pcbValid = true → r.pcbErr = 0 ∧ r.pcbLutSet = true ∧ r.pfSclkSet = true ∧ layoutWf c = true
        ∧ r.pimg = buildPcb c r.pf r.pcbLut)

/-- A byte array is an image some PCB_FINALIZE produced from legal field values (spec/44_flash_type_block.md R277
(b)). -/
def IsPcbImage (c : Config) (m : Memory) : Prop :=
  layoutWf c = true ∧ ∃ pf lut, FieldsLegal c pf true ∧ m = buildPcb c pf lut

/-- R30: FWRAP holds such an image once FTB_WRAPPED is 1, and a TF_* register the encoding of a legal value once its
TF_SET bit is 1. -/
def WrapInv (c : Config) (r : Regs) : Prop :=
  (r.ftbWrapped = true → IsPcbImage c r.fwrap)
    ∧ ∀ t, r.tfSet.getLsbD (ftbFieldIndex t).val = true → ∃ v, trailerEncode c t v = some (getTrailer r.tf t)

/-- R32, R33 (b): OUT is the image of the present registers while OUT_VALID is 1, and all zero while it is 0. -/
def OutInv (c : Config) (r : Regs) : Prop :=
  (r.outValid = false → r.out = [])
    ∧ (r.outValid = true → r.ftbErr = 0 ∧ r.ftbWrapped = true ∧ r.tfSet = 0b111 ∧ layoutWf c = true
        ∧ r.out = buildFinal c r.fwrap r.tf)

/-- A good state of the block. -/
structure Inv (s : State) : Prop where
  seq : SeqInv s.regs
  sticky : StickyInv s.regs
  arrays : ArrayInv s.cfg s.regs
  fields : FieldsLegal s.cfg s.regs.pf s.regs.pfSclkSet
  pcb : PcbInv s.cfg s.regs
  wrap : WrapInv s.cfg s.regs
  out : OutInv s.cfg s.regs

/-- Bit `n` of a byte array: bit `n % 8` of byte `n / 8`. A little-endian unit at byte `off` has its bit `k` at
`8 * off + k` (spec/20_memory.md R62). -/
def imageBit (m : Memory) (n : Nat) : Bool := (Cells.read m (n / 8)).getLsbD (n % 8)

/-- The state after performing a list of instructions in order, none if one stops. -/
def execAll (s : State) (is : List Instr) : Option State :=
  match is with
  | [] => some s
  | i :: rest =>
    match exec i s with
    | .next t => execAll t rest
    | .fault _ => none
    | .refused _ => none

/-- The unit a command belongs to (spec/30_encoding.md R102). -/
inductive BlockUnit where
  | interface
  | packer
  | sequence
  | table
  | pcb
  | ftb
deriving DecidableEq, Repr

/-- The unit of an instruction (R102); a LUT opcode belongs to the packer. -/
def unitOf (i : Instr) : BlockUnit :=
  match i with
  | .nop | .status | .info | .outRead _ | .outRead32 _ => .interface
  | .enc _ _ _ | .rdResult => .packer
  | .seqClear | .seqPush _ _ _ | .seqRead _ => .sequence
  | .lutClear | .lutSet _ | .lutRead _ => .table
  | .pcbClear | .pcbSet _ _ | .pcbLoadLut | .pcbFinalize | .pcbRead _ => .pcb
  | .ftbClear | .ftbWrap | .ftbSet _ _ | .ftbFinalize => .ftb
  | .stop _ _ | .jmpOnCs _ _ | .cmdSdr _ _ | .cmdDdr _ _ | .raddrSdr _ _ | .raddrDdr _ _ | .caddrSdr _ _ => .packer
  | .caddrDdr _ _ | .mode1Sdr _ _ | .mode1Ddr _ _ | .mode2Sdr _ _ | .mode2Ddr _ _ | .mode4Sdr _ _ => .packer
  | .mode4Ddr _ _ | .mode8Sdr _ _ | .mode8Ddr _ _ | .writeSdr _ _ | .writeDdr _ _ | .readSdr _ _ => .packer
  | .readDdr _ _ | .learnSdr _ _ | .learnDdr _ _ | .datszSdr _ _ | .datszDdr _ _ | .dummySdr _ _ => .packer
  | .dummyDdr _ _ | .dummyRwdsSdr _ _ | .dummyRwdsDdr _ _ => .packer

/-- The command is completed with status OK and data word `d`, the registers are `r`, and nothing else has changed. -/
def doneWith (s : State) (r : Regs) (d : Word) : Result :=
  .next { cfg := s.cfg, regs := r, requests := s.requests, response := some (responseWord d 0) }

/-- The command is completed with the error code `c` and data 0, the registers are `r`, and nothing else has
changed. -/
def failedWith (s : State) (r : Regs) (c : Byte) : Result :=
  .next { cfg := s.cfg, regs := r, requests := s.requests, response := some (responseWord 0 c) }

/-- STATUS of the response port: bits [7:0] of the response word (R101). -/
def statusOf (s : State) : Option Byte := s.response.map fun r => r.extractLsb' 0 8

end Sys2Proof.Machine
end

