-- ==== Sys2Proof/Certificates/Slice0/Obligations.lean ====
section
/-! DEFINITION. The statements for the provers. Before them stand the tables of the spec they are stated against, in
the spec's own numbers: the command table (R102), the well-formed command word (R103), the slot a selector selects
(R106, R200), the legal values of each field (R224, R272). -/

namespace Sys2Proof.Machine

/-- One row of R102: the command's code and whether it uses F1, F2, V. -/
structure CommandRow where
  code : Nat
  usesF1 : Bool
  usesF2 : Bool
  usesV : Bool

/-- The table of R102. -/
def commandTable : List CommandRow :=
  [⟨0x00, false, false, false⟩, ⟨0x01, true, true, true⟩, ⟨0x02, false, false, false⟩, ⟨0x03, false, false, false⟩,
    ⟨0x04, false, false, false⟩, ⟨0x10, false, false, false⟩, ⟨0x11, true, true, true⟩, ⟨0x12, true, false, false⟩,
    ⟨0x20, false, false, false⟩, ⟨0x21, true, false, false⟩, ⟨0x22, false, false, true⟩, ⟨0x30, false, false, false⟩,
    ⟨0x31, true, false, true⟩, ⟨0x32, false, false, false⟩, ⟨0x33, false, false, false⟩, ⟨0x34, false, false, true⟩,
    ⟨0x40, false, false, false⟩, ⟨0x41, false, false, false⟩, ⟨0x42, true, false, true⟩, ⟨0x43, false, false, false⟩,
    ⟨0x50, false, false, true⟩, ⟨0x51, false, false, true⟩]

/-- A command word is well-formed (R103, with the field ids of R107 and R108). -/
def wordWellFormed (w : DWord) : Prop :=
  ∃ row ∈ commandTable, w.toNat % 2 ^ 8 = row.code ∧ w.toNat / 2 ^ 24 % 2 ^ 8 = 0
    ∧ (row.usesF1 = false → w.toNat / 2 ^ 8 % 2 ^ 8 = 0) ∧ (row.usesF2 = false → w.toNat / 2 ^ 16 % 2 ^ 8 = 0)
    ∧ (row.usesV = false → w.toNat / 2 ^ 32 = 0)
    ∧ (row.code = 0x31 → 0x01 ≤ w.toNat / 2 ^ 8 % 2 ^ 8 ∧ w.toNat / 2 ^ 8 % 2 ^ 8 ≤ 0x0F)
    ∧ (row.code = 0x42 → 0x01 ≤ w.toNat / 2 ^ 8 % 2 ^ 8 ∧ w.toNat / 2 ^ 8 % 2 ^ 8 ≤ 0x03)

/-- A command code is reserved (R109). -/
def reservedCode (c : Nat) : Prop :=
  0x05 ≤ c ∧ c ≤ 0x0F ∨ 0x13 ≤ c ∧ c ≤ 0x1F ∨ 0x23 ≤ c ∧ c ≤ 0x2F ∨ 0x35 ≤ c ∧ c ≤ 0x3F ∨ 0x44 ≤ c ∧ c ≤ 0x4F
    ∨ 0x52 ≤ c ∧ c ≤ 0xFF

/-- The instruction stands for the command word of these fields with RSV = 0 (R102, R112). -/
def encodedAs (i : Instr) (cmd f1 f2 : Byte) (v : Word) : Prop :=
  decode (.cmd64 (v ++ (0 : Byte) ++ f2 ++ f1 ++ cmd)) = .ok i

/-- The legal instruction triple of R131, in numbers. -/
def tripleLegal (f : Family) (o p : Byte) (d : Word) : Prop :=
  o.toNat < 64 ∧ o.setWidth 6 ∈ f.opcodes ∧ p.toNat < 4 ∧ d.toNat < 256

/-- The packed instruction of R91, in numbers. -/
def packedNat (o p d : Nat) : Nat := o * 1024 + p * 256 + d

/-- A LUT opcode of R95: its value and its constructor. -/
structure LutRow where
  opcode : Byte
  make : BitVec 2 → Byte → Instr

/-- The map of R95, the single data rate column first. -/
def lutRows : List LutRow :=
  [⟨0x00, .stop⟩, ⟨0x01, .cmdSdr⟩, ⟨0x02, .raddrSdr⟩, ⟨0x03, .caddrSdr⟩, ⟨0x04, .mode1Sdr⟩, ⟨0x05, .mode2Sdr⟩,
    ⟨0x06, .mode4Sdr⟩, ⟨0x07, .mode8Sdr⟩, ⟨0x08, .writeSdr⟩, ⟨0x09, .readSdr⟩, ⟨0x0A, .learnSdr⟩, ⟨0x0B, .datszSdr⟩,
    ⟨0x0C, .dummySdr⟩, ⟨0x0D, .dummyRwdsSdr⟩, ⟨0x1F, .jmpOnCs⟩, ⟨0x21, .cmdDdr⟩, ⟨0x22, .raddrDdr⟩, ⟨0x23, .caddrDdr⟩,
    ⟨0x24, .mode1Ddr⟩, ⟨0x25, .mode2Ddr⟩, ⟨0x26, .mode4Ddr⟩, ⟨0x27, .mode8Ddr⟩, ⟨0x28, .writeDdr⟩, ⟨0x29, .readDdr⟩,
    ⟨0x2A, .learnDdr⟩, ⟨0x2B, .datszDdr⟩, ⟨0x2C, .dummyDdr⟩, ⟨0x2D, .dummyRwdsDdr⟩]

/-- An OPCODE value is reserved under the default map (R95). -/
def reservedOpcode (o : Nat) : Prop := 0x0E ≤ o ∧ o ≤ 0x1E ∨ o = 0x20 ∨ 0x2E ≤ o ∧ o ≤ 0x3F

/-- What one of the rules R140 to R167 says of its opcode: the words of the pattern are the row's, and ENC and SEQ_PUSH
pack it for every pad class below 4 and operand below 256 and reject it otherwise. `base` is the pattern's match. -/
def opcodeRule (make : BitVec 2 → Byte → Instr) (op : Byte) (base : Nat) : Prop :=
  (∀ p d, encode (make p d) = .lut16 (BitVec.ofNat 16 (base + p.toNat * 256 + d.toNat))
      ∧ decode (.lut16 (BitVec.ofNat 16 (base + p.toNat * 256 + d.toNat))) = .ok (make p d))
    ∧ ∀ (s : State) (p : Byte) (d : Word), op.setWidth 6 ∈ s.cfg.family.opcodes →
      (p.toNat < 4 → d.toNat < 256 →
        exec (.enc op p d) s
            = doneWith s { s.regs with result := BitVec.ofNat 16 (base + p.toNat * 256 + d.toNat) }
                (BitVec.ofNat 32 (base + p.toNat * 256 + d.toNat))
          ∧ (s.regs.seqErr = 0 → s.regs.seqK.toNat < 8 →
              exec (.seqPush op p d) s
                = doneWith s
                    { s.regs with
                      seqSlot := s.regs.seqSlot.setIfInBounds s.regs.seqK.toNat
                        (BitVec.ofNat 16 (base + p.toNat * 256 + d.toNat))
                      seqK := s.regs.seqK + 1 }
                    (BitVec.ofNat 32 (s.regs.seqK.toNat + 1))))
        ∧ (4 ≤ p.toNat ∨ 256 ≤ d.toNat →
          exec (.enc op p d) s = failedWith s s.regs 1
            ∧ (s.regs.seqErr = 0 → s.regs.seqK.toNat < 8 →
                exec (.seqPush op p d) s = failedWith s { s.regs with seqErr := 1 } 1))

/-- The selector `f` selects a Command whose slot is `i` (R106, R200). -/
def selectsSlot (l : Layout) (f : Byte) (i : Nat) : Prop :=
  f.toNat = 0x01 ∧ i = l.cmdIndex.read.toNat ∨ f.toNat = 0x02 ∧ i = l.cmdIndex.readStatus.toNat
    ∨ f.toNat = 0x03 ∧ i = l.cmdIndex.writeEnable.toNat ∨ f.toNat = 0x04 ∧ i = l.cmdIndex.eraseSector.toNat
    ∨ f.toNat = 0x05 ∧ i = l.cmdIndex.pageProgram.toNat ∨ f.toNat = 0x06 ∧ i = l.cmdIndex.chipErase.toNat
    ∨ f.toNat = 0x80 + i ∧ i < l.nseq ∧ i ∉ [l.cmdIndex.read.toNat, l.cmdIndex.readStatus.toNat,
        l.cmdIndex.writeEnable.toNat, l.cmdIndex.eraseSector.toNat, l.cmdIndex.pageProgram.toNat,
        l.cmdIndex.chipErase.toNat]

/-- A partial map gives `e` for `v`: the first row of `v` counts (log 13). -/
def mapGives {w : Nat} (rows : List (Word × BitVec w)) (v : Word) (e : Nat) : Prop :=
  ∃ before c after, rows = before ++ (v, c) :: after ∧ (∀ r ∈ before, r.1 ≠ v) ∧ e = c.toNat

/-- REGION_ENC gives `e` for `v` (R223). -/
def regionGives (m : RegionEnc) (v : Word) (e : Nat) : Prop :=
  match m with
  | .identity => e = v.toNat
  | .table rows => mapGives rows v e

/-- FREQ and IPFREQ of FAMILY_DEFAULT, the frequency in MHz and its code (R223). -/
def defaultFrequencies : List (Nat × Nat) :=
  [(30, 1), (50, 2), (60, 3), (75, 4), (80, 5), (100, 6), (120, 7), (133, 8), (166, 9)]

/-- The table of R224: `v` is legal for the field and `e` is what is stored. -/
def fieldTable (c : Config) (f : PcbField) (v : Word) (e : Nat) : Prop :=
  match f with
  | .readSampleClkSrc => e = v.toNat ∧ ∃ code ∈ c.family.rscLegal, code.toNat = v.toNat
  | .csHoldTime => e = v.toNat ∧ v.toNat ≤ 0xFF
  | .csSetupTime => e = v.toNat ∧ v.toNat ≤ 0xFF
  | .columnAddressWidth => e = v.toNat ∧ ∃ code ∈ c.family.cawLegal, code.toNat = v.toNat
  | .deviceModeCfgEnable => e = v.toNat ∧ (v.toNat = 0 ∨ v.toNat = 1)
  | .deviceModeSeq =>
    e = v.toNat ∧ v.toNat / 2 ^ 16 = 0 ∧ 1 ≤ v.toNat % 2 ^ 8
      ∧ v.toNat / 2 ^ 8 % 2 ^ 8 + v.toNat % 2 ^ 8 ≤ c.layout.nseq
  | .deviceModeArg => e = v.toNat
  | .waitTimeCfgCommands => e = v.toNat ∧ v.toNat ≤ 0xFFFF
  | .deviceType => e = v.toNat ∧ ∃ code ∈ c.family.devTypeLegal, code.toNat = v.toNat
  | .sflashPadType => e = v.toNat ∧ ∃ code ∈ c.family.padLegal, code.toNat = v.toNat
  | .serialClkFreq => mapGives c.family.freq v e
  | .sflashA1Size => regionGives c.family.regionEnc v e
  | .sflashA2Size => regionGives c.family.regionEnc v e
  | .sflashB1Size => regionGives c.family.regionEnc v e
  | .sflashB2Size => regionGives c.family.regionEnc v e

/-- The table of R272: `v` is legal for the trailer field and `e` is what is stored. -/
def trailerTable (c : Config) (t : FtbField) (v : Word) (e : Nat) : Prop :=
  match t with
  | .pageSize => e = v.toNat ∧ 1 ≤ v.toNat
  | .sectorSize => e = v.toNat ∧ 1 ≤ v.toNat
  | .ipCmdSerialClkFreq => mapGives c.family.ipFreq v e

/-- The value `v` stands in the bits of the entry: bit `k` of the value at bit `8 * off + sh + k` of the image, for
`k` below nb (R220). -/
def entryHolds (m : Memory) (e : Entry) (v : Word) : Prop :=
  ∀ k < e.nb, imageBit m (8 * e.off + e.sh + k) = v.getLsbD k

/-- Bit `n` of the image is one of the entry's (R220). -/
def inEntry (e : Entry) (n : Nat) : Prop := 8 * e.off + e.sh ≤ n ∧ n < 8 * e.off + e.sh + e.nb

/-- The registers with the peripheral image zeroed and invalid (R228 to R230). -/
def pcbStale (r : Regs) : Regs := { r with pimg := [], pcbValid := false }

/-- The registers with the final image zeroed and invalid (R274 to R276). -/
def outStale (r : Regs) : Regs := { r with out := [], outValid := false }

/-- What a command does before its first test (R317): the six commands that invalidate an image first do so, when
their word is well-formed, and every other command does nothing. -/
def headOf (i : Instr) (r : Regs) : Regs :=
  match i with
  | .pcbSet f _ => if 1 ≤ f.toNat ∧ f.toNat ≤ 15 then pcbStale r else r
  | .pcbLoadLut | .pcbFinalize => pcbStale r
  | .ftbSet f _ => if 1 ≤ f.toNat ∧ f.toNat ≤ 3 then outStale r else r
  | .ftbWrap | .ftbFinalize => outStale r
  | _ => r

/-- The stage an instruction records its failure in (R31, R316): the setters record in their own stage, and no other
instruction records anything. -/
def recordsIn (i : Instr) : Option Stage :=
  match i with
  | .seqPush _ _ _ => some .seq
  | .lutSet _ => some .lut
  | .pcbSet _ _ | .pcbLoadLut => some .pcb
  | .ftbWrap | .ftbSet _ _ => some .ftb
  | _ => none

/-- The field id of a trailer field in FTB_SET (R108). -/
def ftbIdOf (t : FtbField) : Byte := BitVec.ofNat 8 ((ftbFieldIndex t).val + 1)

/-- PCB_FINALIZE finds something missing (R230): the table, the serial clock frequency, or the sequence of an enabled
device mode. -/
def pcbMissing (r : Regs) : Prop :=
  r.pcbLutSet = false ∨ r.pfSclkSet = false ∨ r.pf.dmEn = 1 ∧ r.pf.dmSeq = 0

/-- The commands that supply what PCB_FINALIZE finds missing, each only if it is missing: the table, the clock frequency
`mhz`, the device mode sequence `dm`. -/
def pcbSupplies (r : Regs) (mhz dm : Word) : List Instr :=
  (if r.pcbLutSet then [] else [.pcbLoadLut]) ++ (if r.pfSclkSet then [] else [.pcbSet 0x0B mhz])
    ++ if r.pf.dmEn = 1 ∧ r.pf.dmSeq = 0 then [.pcbSet 0x06 dm] else []

/-- FTB_FINALIZE finds something missing (R276): the wrapped block or a trailer field. -/
def ftbMissing (r : Regs) : Prop := r.ftbWrapped = false ∨ r.tfSet ≠ 0b111

/-- The commands that supply what FTB_FINALIZE finds missing, each only if it is missing: the wrapped block, and the
value `v t` of each trailer field `t`. -/
def ftbSupplies (r : Regs) (v : FtbField → Word) : List Instr :=
  (if r.ftbWrapped then [] else [.ftbWrap])
    ++ (ftbFieldsAll.filter fun t => !r.tfSet.getLsbD (ftbFieldIndex t).val).map fun t => .ftbSet (ftbIdOf t) (v t)

/-- The CLEAR command of a stage (R31). -/
def clearOf (st : Stage) : Instr :=
  match st with
  | .seq => .seqClear
  | .lut => .lutClear
  | .pcb => .pcbClear
  | .ftb => .ftbClear

/-- The eight read commands of R68. -/
def isRead (i : Instr) : Prop :=
  i = .status ∨ i = .info ∨ i = .rdResult ∨ (∃ f, i = .seqRead f) ∨ (∃ v, i = .lutRead v) ∨ (∃ v, i = .pcbRead v)
    ∨ (∃ v, i = .outRead v) ∨ ∃ v, i = .outRead32 v

/-- The command SEQ_PUSH of a triple. -/
def pushOf (x : Byte × Byte × Word) : Instr := .seqPush x.1 x.2.1 x.2.2

end Sys2Proof.Machine

open Sys2Proof Sys2Proof.Machine

/-! ## Encodings -/

/-- Decoding the encoding of an instruction gives it back, for every instruction and every operand. -/
def Obligations.DecodeOfEncode : Prop := ∀ i : Instr, decode (encode i) = .ok i

/-- A word that decodes to an instruction is that instruction's encoding: no bit of a word is ignored, and no two words
stand for one instruction. -/
def Obligations.EncodeOfDecode : Prop := ∀ (x : InstrWord) (i : Instr), decode x = .ok i → encode i = x

/-- R103: the command words that run an instruction are the well-formed ones; any other is answered InvalidCommand and
changes no state. -/
def Obligations.CommandWordsWellFormed : Prop :=
  (∀ w : DWord, (∃ i, runnable (.cmd64 w) = some i) ↔ wordWellFormed w)
    ∧ ∀ (w : DWord) (s : State), ¬ wordWellFormed w → answerUnrunnable (.cmd64 w) s = failedWith s s.regs 5

/-- R109: a reserved command code runs nothing, whatever the other fields hold, and is answered InvalidCommand. -/
def Obligations.ReservedCommandCodes : Prop :=
  ∀ (w : DWord) (s : State), reservedCode (w.toNat % 2 ^ 8) →
    runnable (.cmd64 w) = none ∧ answerUnrunnable (.cmd64 w) s = failedWith s s.regs 5

/-- R91 (an inference of the spec from R90): packing is a bijection between the triples of an opcode below 64, a pad
class below 4 and an operand below 256, and the 16-bit values, and unpacking takes the three bit fields. -/
def Obligations.PackingIsBijection : Prop :=
  (∀ (o p : Byte) (d : Word), o.toNat < 64 → p.toNat < 4 → d.toNat < 256 →
      packInstr o p d = BitVec.ofNat 16 (packedNat o.toNat p.toNat d.toNat)
        ∧ (packInstr o p d).extractLsb' 10 6 = o.setWidth 6 ∧ (packInstr o p d).extractLsb' 8 2 = p.setWidth 2
        ∧ (packInstr o p d).extractLsb' 0 8 = d.setWidth 8)
    ∧ ∀ w : Half, packInstr ((w.extractLsb' 10 6).setWidth 8) ((w.extractLsb' 8 2).setWidth 8)
        ((w.extractLsb' 0 8).setWidth 32) = w

/-- R95 (its values are marked general knowledge, log 12): the map of the LUT opcodes, its reserved values, and their
rejection by ENC and SEQ_PUSH under the default family. The default OPCODES are the values of the map, and each DDR
opcode is its SDR opcode with bit 5 set. -/
def Obligations.LutOpcodeMap : Prop :=
  (∀ row ∈ lutRows, ∀ p d, decode (.lut16 (row.opcode.setWidth 6 ++ p ++ d)) = .ok (row.make p d))
    ∧ (∀ w : Half, decode (.lut16 w) = .error .reservedOpcode ↔ reservedOpcode (w.extractLsb' 10 6).toNat)
    ∧ (∀ o : BitVec 6, o ∈ familyDefault.opcodes ↔ ∃ row ∈ lutRows, row.opcode.toNat = o.toNat)
    ∧ (∀ k < 13, (lutRows.map LutRow.opcode)[15 + k]? = (lutRows.map LutRow.opcode)[1 + k]?.map (· ||| 0x20))
    ∧ ∀ (o p : Byte) (d : Word) (s : State), s.cfg.family = familyDefault → reservedOpcode o.toNat →
        exec (.enc o p d) s = failedWith s s.regs 1
          ∧ (s.regs.seqErr = 0 → s.regs.seqK.toNat < 8 →
              exec (.seqPush o p d) s = failedWith s { s.regs with seqErr := 1 } 1)

/-- A word of each unit, written out from the spec, decodes to its instruction (30_encoding.md R110 and R112,
45_status_readout.md R291, 95_test_vectors.md sections 2.1 to 2.6). -/
def Obligations.SampleWordsDecode : Prop :=
  decode (.lut16 0x04EB) = .ok (.cmdSdr 0 0xEB) ∧ decode (.lut16 0x0A18) = .ok (.raddrSdr 2 0x18)
    ∧ decode (.cmd64 0x0000000000000000) = .ok .nop ∧ decode (.cmd64 0x000000EB00000101) = .ok (.enc 0x01 0 0xEB)
    ∧ decode (.cmd64 0x0000001800020211) = .ok (.seqPush 0x02 0x02 0x18)
    ∧ decode (.cmd64 0x0000000000008221) = .ok (.lutSet 0x82)
    ∧ decode (.cmd64 0x0000001E00000B31) = .ok (.pcbSet 0x0B 30)
    ∧ decode (.cmd64 0x0000010000000142) = .ok (.ftbSet 0x01 256)
    ∧ decode (.cmd64 0x000001C000000051) = .ok (.outRead32 0x1C0)

/-! ## The step -/

/-- When the instruction word the host presents next decodes to a well-formed instruction, step is exec of that
instruction, with the word taken off the request stream; a word that runs no instruction is answered as the port does, a
reset request resets, and with no request nothing happens (the stream is the model's own, logs 2 and 4). -/
def Obligations.StepRunsPresentedInstruction : Prop :=
  (∀ (s : State) (x : InstrWord) (rest : List Request) (i : Instr),
      s.requests = .present x :: rest → decode x = .ok i → i.wellFormed = true →
        step s = exec i { s with requests := rest })
    ∧ (∀ (s : State) (x : InstrWord) (rest : List Request), s.requests = .present x :: rest → runnable x = none →
        step s = answerUnrunnable x { s with requests := rest })
    ∧ (∀ (s : State) (rest : List Request), s.requests = .reset :: rest →
        step s = applyReset { s with requests := rest })
    ∧ ∀ s : State, s.requests = [] → step s = .next s

/-- Step always answers a next state: no state and no request makes the machine stop (R290; the request stream is the
model's own, log 2). -/
def Obligations.StepIsTotal : Prop := ∀ s : State, ∃ t, step s = .next t

/-- R101: every command word produces exactly one response word, with bits [31:8] zero and DATA 0 whenever STATUS is
not 0; in a good state STATUS is one of the codes 0 to 6 of R310. The same of the 28 LUT instructions on their own and
of a bare 16-bit word is the model's choice (log 5). -/
def Obligations.EveryWordAnswered : Prop :=
  (∀ (i : Instr) (s t : State), exec i s = .next t →
      ∃ r, t.response = some r ∧ r.extractLsb' 8 24 = 0 ∧ (r.extractLsb' 0 8 ≠ 0 → r.extractLsb' 32 32 = 0)
        ∧ (Inv s → (r.extractLsb' 0 8).toNat ≤ 6))
    ∧ (∀ (x : InstrWord) (s t : State), answerUnrunnable x s = .next t →
      ∃ r, t.response = some r ∧ r.extractLsb' 8 24 = 0 ∧ (r.extractLsb' 0 8 ≠ 0 → r.extractLsb' 32 32 = 0)
        ∧ (r.extractLsb' 0 8).toNat ≤ 6)
    ∧ ∀ (d : Word) (c : Byte), (responseWord d c).extractLsb' 0 8 = c ∧ (responseWord d c).extractLsb' 32 32 = d

/-- R340: every register at its reset value, and a reset request brings the block there from any state without touching
CONFIG. That the response port then shows no word is the model's choice (log 3), and so is that a reset is a request of
the stream (log 4); R340 says that reset produces no response word. -/
def Obligations.ResetSetsEveryRegister : Prop :=
  (∀ s : State, ∃ t, applyReset s = .next t ∧ t.regs = State.reset.regs ∧ t.cfg = s.cfg ∧ t.response = none)
    ∧ (let r := State.reset.regs
       r.result = 0 ∧ (∀ i < 8, seqRead r i = 0) ∧ r.seqK = 0 ∧ r.seqErr = 0
        ∧ (∀ a, Cells.read r.lutTab a = 0) ∧ r.lutErr = 0
        ∧ r.pf.rsc = 0 ∧ r.pf.csHold = 3 ∧ r.pf.csSetup = 3 ∧ r.pf.caw = 0 ∧ r.pf.dmEn = 0 ∧ r.pf.dmSeq = 0
        ∧ r.pf.dmArg = 0 ∧ r.pf.wait = 0 ∧ r.pf.devType = 1 ∧ r.pf.pad = 1 ∧ r.pf.sclk = 0 ∧ r.pfSclkSet = false
        ∧ r.pf.a1 = 0 ∧ r.pf.a2 = 0 ∧ r.pf.b1 = 0 ∧ r.pf.b2 = 0
        ∧ (∀ a, Cells.read r.pcbLut a = 0) ∧ r.pcbLutSet = false ∧ r.pcbErr = 0
        ∧ (∀ a, Cells.read r.pimg a = 0) ∧ r.pcbValid = false
        ∧ (∀ a, Cells.read r.fwrap a = 0) ∧ r.ftbWrapped = false ∧ r.tf.page = 0 ∧ r.tf.sector = 0 ∧ r.tf.ipClk = 0
        ∧ r.tfSet = 0 ∧ r.ftbErr = 0 ∧ (∀ a, Cells.read r.out a = 0) ∧ r.outValid = false)

/-! ## The instruction packer -/

/-- R130, R131: ENC packs a legal triple into RESULT and answers it, and rejects any other triple with
InvalidFieldValue and no change to a register. -/
def Obligations.EncPacksOrRejects : Prop :=
  ∀ (o p : Byte) (d : Word) (s : State),
    encodedAs (.enc o p d) 0x01 o p d
      ∧ (tripleLegal s.cfg.family o p d →
          exec (.enc o p d) s
            = doneWith s { s.regs with result := BitVec.ofNat 16 (packedNat o.toNat p.toNat d.toNat) }
                (BitVec.ofNat 32 (packedNat o.toNat p.toNat d.toNat)))
      ∧ (¬ tripleLegal s.cfg.family o p d → exec (.enc o p d) s = failedWith s s.regs 1)

/-- R132 (an inference of the spec from R91 and R131): the fields of RESULT after a legal ENC, different legal triples
pack differently, and the response depends on no register. -/
def Obligations.PackerLaws : Prop :=
  (∀ (o p : Byte) (d : Word) (s t : State), tripleLegal s.cfg.family o p d → exec (.enc o p d) s = .next t →
      (t.regs.result.extractLsb' 10 6).toNat = o.toNat ∧ (t.regs.result.extractLsb' 8 2).toNat = p.toNat
        ∧ (t.regs.result.extractLsb' 0 8).toNat = d.toNat)
    ∧ (∀ (f : Family) (o p o' p' : Byte) (d d' : Word), tripleLegal f o p d → tripleLegal f o' p' d' →
        packInstr o p d = packInstr o' p' d' → o = o' ∧ p = p' ∧ d = d')
    ∧ ∀ (o p : Byte) (d : Word) (s s' t t' : State), s.cfg = s'.cfg → exec (.enc o p d) s = .next t →
        exec (.enc o p d) s' = .next t' → t.response = t'.response

/-- R140 to R149: the first ten rows of the opcode table. -/
def Obligations.OpcodesStopToMode1Ddr : Prop :=
  opcodeRule .stop 0x00 0x0000 ∧ opcodeRule .jmpOnCs 0x1F 0x7C00 ∧ opcodeRule .cmdSdr 0x01 0x0400
    ∧ opcodeRule .cmdDdr 0x21 0x8400 ∧ opcodeRule .raddrSdr 0x02 0x0800 ∧ opcodeRule .raddrDdr 0x22 0x8800
    ∧ opcodeRule .caddrSdr 0x03 0x0C00 ∧ opcodeRule .caddrDdr 0x23 0x8C00 ∧ opcodeRule .mode1Sdr 0x04 0x1000
    ∧ opcodeRule .mode1Ddr 0x24 0x9000

/-- R150 to R159: the next ten rows of the opcode table. -/
def Obligations.OpcodesMode2SdrToReadDdr : Prop :=
  opcodeRule .mode2Sdr 0x05 0x1400 ∧ opcodeRule .mode2Ddr 0x25 0x9400 ∧ opcodeRule .mode4Sdr 0x06 0x1800
    ∧ opcodeRule .mode4Ddr 0x26 0x9800 ∧ opcodeRule .mode8Sdr 0x07 0x1C00 ∧ opcodeRule .mode8Ddr 0x27 0x9C00
    ∧ opcodeRule .writeSdr 0x08 0x2000 ∧ opcodeRule .writeDdr 0x28 0xA000 ∧ opcodeRule .readSdr 0x09 0x2400
    ∧ opcodeRule .readDdr 0x29 0xA400

/-- R160 to R167: the last eight LUT rows of the opcode table. -/
def Obligations.OpcodesLearnSdrToDummyRwdsDdr : Prop :=
  opcodeRule .learnSdr 0x0A 0x2800 ∧ opcodeRule .learnDdr 0x2A 0xA800 ∧ opcodeRule .datszSdr 0x0B 0x2C00
    ∧ opcodeRule .datszDdr 0x2B 0xAC00 ∧ opcodeRule .dummySdr 0x0C 0x3000 ∧ opcodeRule .dummyDdr 0x2C 0xB000
    ∧ opcodeRule .dummyRwdsSdr 0x0D 0x3400 ∧ opcodeRule .dummyRwdsDdr 0x2D 0xB400

/-- A LUT instruction on its own is performed as ENC of its opcode, for each of the 28 rows: STOP, JMP_ON_CS, and CMD,
RADDR, CADDR, MODE1, MODE2, MODE4, MODE8, WRITE, READ, LEARN, DATSZ, DUMMY, DUMMY_RWDS each SDR and DDR (the model's
choice, log 5). A family without the opcode rejects it. -/
def Obligations.LutInstructionPerformedAsEnc : Prop :=
  ∀ row ∈ lutRows, ∀ (p : BitVec 2) (d : Byte) (s : State),
    (row.opcode.setWidth 6 ∈ s.cfg.family.opcodes →
        exec (row.make p d) s
          = doneWith s { s.regs with result := BitVec.ofNat 16 (packedNat row.opcode.toNat p.toNat d.toNat) }
              (BitVec.ofNat 32 (packedNat row.opcode.toNat p.toNat d.toNat)))
      ∧ (row.opcode.setWidth 6 ∉ s.cfg.family.opcodes → exec (row.make p d) s = failedWith s s.regs 1)

/-! ## The sequence assembler -/

/-- R180: SEQ_CLEAR empties the accumulator and clears SEQ_ERR, whatever the state. -/
def Obligations.SeqClearStartsEmpty : Prop :=
  encodedAs .seqClear 0x10 0 0 0
    ∧ ∀ s : State, exec .seqClear s
        = doneWith s { s.regs with seqSlot := Vector.replicate 8 0, seqK := 0, seqErr := 0 } 0

/-- R181: SEQ_PUSH appends a legal instruction; the sticky error comes before the overflow, the overflow before the
field test, and a failed push changes no slot and no count. -/
def Obligations.SeqPushAppendsOrFails : Prop :=
  ∀ (o p : Byte) (d : Word) (s : State),
    encodedAs (.seqPush o p d) 0x11 o p d
      ∧ (s.regs.seqErr ≠ 0 → exec (.seqPush o p d) s = failedWith s s.regs s.regs.seqErr)
      ∧ (s.regs.seqErr = 0 → s.regs.seqK.toNat = 8 →
          exec (.seqPush o p d) s = failedWith s { s.regs with seqErr := 2 } 2)
      ∧ (s.regs.seqErr = 0 → s.regs.seqK.toNat < 8 → ¬ tripleLegal s.cfg.family o p d →
          exec (.seqPush o p d) s = failedWith s { s.regs with seqErr := 1 } 1)
      ∧ (s.regs.seqErr = 0 → s.regs.seqK.toNat < 8 → tripleLegal s.cfg.family o p d →
          exec (.seqPush o p d) s
            = doneWith s
                { s.regs with
                  seqSlot := s.regs.seqSlot.setIfInBounds s.regs.seqK.toNat
                    (BitVec.ofNat 16 (packedNat o.toNat p.toNat d.toNat))
                  seqK := s.regs.seqK + 1 }
                (BitVec.ofNat 32 (s.regs.seqK.toNat + 1)))

/-- R182: SEQ_READ answers a slot below 8 and refuses any other index, and changes no register. -/
def Obligations.SeqReadAnswersSlot : Prop :=
  ∀ (f : Byte) (s : State),
    encodedAs (.seqRead f) 0x12 f 0 0
      ∧ (∀ h : f.toNat < 8, exec (.seqRead f) s = doneWith s s.regs ((s.regs.seqSlot[f.toNat]).setWidth 32))
      ∧ (8 ≤ f.toNat → exec (.seqRead f) s = failedWith s s.regs 5)

/-- R184 (an inference of the spec from R180, R181 and R183): after SEQ_CLEAR and k pushes of legal instructions, k at
most 8, the accumulator reads as those instructions followed by no-ops; after 9 or more pushes of any instructions
SEQ_ERR is 2, or the 1 of an earlier illegal one, and every LUT_SET that reads the sequence fails. -/
def Obligations.SequenceLaw : Prop :=
  (∀ (s : State) (xs : List (Byte × Byte × Word)), xs.length ≤ 8 →
      (∀ x ∈ xs, tripleLegal s.cfg.family x.1 x.2.1 x.2.2) →
      ∃ t, execAll s (.seqClear :: xs.map pushOf) = some t ∧ t.regs.seqErr = 0 ∧ t.regs.seqK.toNat = xs.length
        ∧ ∀ j < 8, seqRead t.regs j = (xs.map fun x => packInstr x.1 x.2.1 x.2.2).getD j 0)
    ∧ ∀ (s : State) (xs : List (Byte × Byte × Word)), 9 ≤ xs.length →
      ∃ t, execAll s (.seqClear :: xs.map pushOf) = some t
        ∧ (t.regs.seqErr = 2
            ∨ t.regs.seqErr = 1 ∧ ∃ x ∈ xs, ¬ tripleLegal s.cfg.family x.1 x.2.1 x.2.2)
        ∧ ∀ f u, exec (.lutSet f) t = .next u → statusOf u ≠ some 0 ∧ u.regs.lutTab = t.regs.lutTab

/-! ## The LUT serializer -/

/-- R200, R106: the slot map is a function of the selector, and under a well-formed CMD_INDEX it is injective over every
Command and stays inside the table. -/
def Obligations.SlotMapInjective : Prop :=
  (∀ (l : Layout) (f : Byte) (i : Nat),
      (∃ c, selectCommand l f = some c ∧ (fixedIndex l c).toNat = i) ↔ selectsSlot l f i)
    ∧ ∀ (l : Layout), (namedSlots l).Nodup → (∀ i ∈ namedSlots l, i < l.nseq) →
        ∀ (f f' : Byte) (i : Nat), selectsSlot l f i → i < l.nseq ∧ (selectsSlot l f' i → f = f')

/-- R201 (values marked general knowledge, log 12): the default selectors with their slots, byte offsets in the table
and byte offsets in the image; every other selector is no Command. -/
def Obligations.DefaultSlots : Prop :=
  (∀ row ∈ [(0x01, 0, 0x00, 0x080), (0x02, 1, 0x10, 0x090), (0x03, 3, 0x30, 0x0B0), (0x04, 5, 0x50, 0x0D0),
      (0x05, 9, 0x90, 0x110), (0x06, 11, 0xB0, 0x130)],
      selectsSlot layoutDefault (BitVec.ofNat 8 row.1) row.2.1 ∧ row.2.2.1 = 16 * row.2.1
        ∧ row.2.2.2 = layoutDefault.lutOff + 16 * row.2.1)
    ∧ (∀ i ∈ [2, 4, 6, 7, 8, 10, 12, 13, 14, 15], selectsSlot layoutDefault (BitVec.ofNat 8 (0x80 + i)) i)
    ∧ (∀ f : Byte, f.toNat ∈ [0x80, 0x81, 0x83, 0x85, 0x89, 0x8B] ∨ 0x90 ≤ f.toNat ∨ f.toNat = 0
        ∨ 0x07 ≤ f.toNat ∧ f.toNat ≤ 0x7F → ∀ i, ¬ selectsSlot layoutDefault f i)
    ∧ layoutDefault.lutOff = 0x80

/-- R202: LUT_CLEAR empties the table and clears LUT_ERR, whatever the state. -/
def Obligations.LutClearEmptiesTable : Prop :=
  encodedAs .lutClear 0x20 0 0 0
    ∧ ∀ s : State, exec .lutClear s = doneWith s { s.regs with lutTab := [], lutErr := 0 } 0

/-- R203: LUT_SET copies the eight slots of the accumulator into the table slot its selector selects and nowhere else;
its tests in order are the sticky error, the selector, the sequence's error, the slot bound. -/
def Obligations.LutSetMapsSequence : Prop :=
  ∀ (f : Byte) (s : State),
    encodedAs (.lutSet f) 0x21 f 0 0
      ∧ (s.regs.lutErr ≠ 0 → exec (.lutSet f) s = failedWith s s.regs s.regs.lutErr)
      ∧ (s.regs.lutErr = 0 → (∀ i, ¬ selectsSlot s.cfg.layout f i) →
          exec (.lutSet f) s = failedWith s { s.regs with lutErr := 1 } 1)
      ∧ ∀ i, selectsSlot s.cfg.layout f i → s.regs.lutErr = 0 →
          (s.regs.seqErr ≠ 0 → exec (.lutSet f) s = failedWith s { s.regs with lutErr := s.regs.seqErr } s.regs.seqErr)
            ∧ (s.regs.seqErr = 0 → s.cfg.layout.nseq ≤ i →
                exec (.lutSet f) s = failedWith s { s.regs with lutErr := 4 } 4)
            ∧ (s.regs.seqErr = 0 → i < s.cfg.layout.nseq →
                ∃ tab, exec (.lutSet f) s = doneWith s { s.regs with lutTab := tab } (BitVec.ofNat 32 i)
                  ∧ ∀ k, Cells.read tab k
                      = if 8 * i ≤ k ∧ k < 8 * i + 8 then seqRead s.regs (k - 8 * i) else Cells.read s.regs.lutTab k)

/-- R204: LUT_READ answers a byte of the serialised table and refuses an offset past it, and changes no register. -/
def Obligations.LutReadAnswersByte : Prop :=
  ∀ (v : Word) (s : State),
    encodedAs (.lutRead v) 0x22 0 0 v
      ∧ (v.toNat < 16 * s.cfg.layout.nseq →
          exec (.lutRead v) s = doneWith s s.regs ((lutSer s.regs.lutTab v.toNat).setWidth 32))
      ∧ (16 * s.cfg.layout.nseq ≤ v.toNat → exec (.lutRead v) s = failedWith s s.regs 5)

/-- R63 (an inference of the spec from R62): instruction j of slot s stands at byte 16 * s + 2 * j, its low byte first.
-/
def Obligations.TableSerialisation : Prop :=
  ∀ (tab : Cells 16) (s j : Nat), j < 8 →
    lutSer tab (16 * s + 2 * j) = (Cells.read tab (8 * s + j)).extractLsb' 0 8
      ∧ lutSer tab (16 * s + 2 * j + 1) = (Cells.read tab (8 * s + j)).extractLsb' 8 8

/-- Where LUT_SET stores, byte by byte of the serialised table: the sixteen bytes of the slot it answers hold the
sequence, every other byte is as before, and after LUT_CLEAR every byte is 0 (42_lookup_table.md section of R206). -/
def Obligations.LutSetStoresOneSlot : Prop :=
  (∀ (f : Byte) (s t : State) (i : Nat), selectsSlot s.cfg.layout f i → exec (.lutSet f) s = .next t →
      statusOf t = some 0 →
        (∀ j < 8, lutSer t.regs.lutTab (16 * i + 2 * j) = (seqRead s.regs j).extractLsb' 0 8
          ∧ lutSer t.regs.lutTab (16 * i + 2 * j + 1) = (seqRead s.regs j).extractLsb' 8 8)
        ∧ ∀ a, a < 16 * i ∨ 16 * i + 16 ≤ a → lutSer t.regs.lutTab a = lutSer s.regs.lutTab a)
    ∧ ∀ (s t : State) (a : Nat), exec .lutClear s = .next t → lutSer t.regs.lutTab a = 0

/-! ## The peripheral-block layout engine -/

/-- R227: PCB_CLEAR starts a new peripheral block, whatever the state, and leaves FWRAP and OUT alone. -/
def Obligations.PcbClearStartsEmpty : Prop :=
  encodedAs .pcbClear 0x30 0 0 0
    ∧ ∀ s : State, exec .pcbClear s
        = doneWith s
            { s.regs with
              pf := State.reset.regs.pf, pfSclkSet := false, pcbLut := [], pcbLutSet := false, pcbErr := 0
              pimg := [], pcbValid := false } 0

/-- R224: the field of each id, its legal values and what is stored, its register, and its place in the default layout;
storing a legal value makes the register read as what is stored and leaves the other registers alone. The default
entries are values the spec marks general knowledge (log 12), and of two rows of FREQ or REGION_ENC with one key the
first counts by the model's choice (log 13). -/
def Obligations.PeripheralFieldTable : Prop :=
  (∀ (c : Config) (f : PcbField) (v e : Word), fieldEncode c f v = some e ↔ fieldTable c f v e.toNat)
    ∧ (∀ (c : Config) (f g : PcbField) (v e : Word) (pf : PcbFields), fieldTable c f v e.toNat →
        getField (setField pf f e) f = e ∧ (g ≠ f → getField (setField pf f e) g = getField pf g))
    ∧ (∀ b : Byte, pcbFieldOf b = if 1 ≤ b.toNat then pcbFieldsAll[b.toNat - 1]? else none)
    ∧ pcbFieldsAll.map (fun f => ((fieldEntry layoutDefault f).off, (fieldEntry layoutDefault f).w))
        = [(0x00C, 1), (0x00D, 1), (0x00E, 1), (0x00F, 1), (0x010, 1), (0x014, 4), (0x018, 4), (0x012, 2), (0x044, 1),
            (0x045, 1), (0x046, 1), (0x050, 4), (0x054, 4), (0x058, 4), (0x05C, 4)]

/-- R228: PCB_SET invalidates the image, then stores a legal value of a field the family has, and fails on any other;
a field id that names no field is answered InvalidCommand and changes nothing, an inference of the model from R107 and
R296 (log 6). The maps of the legal values are read as log 13 says. -/
def Obligations.PcbSetStoresOrFails : Prop :=
  ∀ (b : Byte) (v : Word) (s : State),
    encodedAs (.pcbSet b v) 0x31 b 0 v
      ∧ (pcbFieldOf b = none → exec (.pcbSet b v) s = failedWith s s.regs 5)
      ∧ ∀ f, pcbFieldOf b = some f →
          (s.regs.pcbErr ≠ 0 → exec (.pcbSet b v) s = failedWith s (pcbStale s.regs) s.regs.pcbErr)
            ∧ (s.regs.pcbErr = 0 → f ∉ s.cfg.family.fields ∨ (∀ e, ¬ fieldTable s.cfg f v e) →
                exec (.pcbSet b v) s = failedWith s { pcbStale s.regs with pcbErr := 1 } 1)
            ∧ ∀ e : Word, s.regs.pcbErr = 0 → f ∈ s.cfg.family.fields → fieldTable s.cfg f v e.toNat →
                exec (.pcbSet b v) s
                  = doneWith s
                      { pcbStale s.regs with
                        pf := setField s.regs.pf f e
                        pfSclkSet := if f = .serialClkFreq then true else s.regs.pfSclkSet } 0

/-- R229: PCB_LOAD_LUT invalidates the image, then copies the LUT_BYTES bytes of the serialised table into PCB_LUT; a
failed table makes the peripheral block fail with the table's code. -/
def Obligations.PcbLoadLutCopiesTable : Prop :=
  encodedAs .pcbLoadLut 0x32 0 0 0
    ∧ ∀ s : State,
      (s.regs.pcbErr ≠ 0 → exec .pcbLoadLut s = failedWith s (pcbStale s.regs) s.regs.pcbErr)
        ∧ (s.regs.pcbErr = 0 → s.regs.lutErr ≠ 0 →
            exec .pcbLoadLut s = failedWith s { pcbStale s.regs with pcbErr := s.regs.lutErr } s.regs.lutErr)
        ∧ (s.regs.pcbErr = 0 → s.regs.lutErr = 0 →
            ∃ lut, exec .pcbLoadLut s = doneWith s { pcbStale s.regs with pcbLut := lut, pcbLutSet := true } 0
              ∧ Memory.wf lut = true
              ∧ ∀ a, Cells.read lut a = if a < 16 * s.cfg.layout.nseq then lutSer s.regs.lutTab a else 0)

/-- R230: PCB_FINALIZE invalidates the image, then builds it when nothing is missing; its refusals in order are the
sticky error, the layout invariant, the table, the clock frequency, the device mode sequence, and none is recorded. -/
def Obligations.PcbFinalizeBuildsOrRefuses : Prop :=
  encodedAs .pcbFinalize 0x33 0 0 0
    ∧ ∀ s : State,
      (s.regs.pcbErr ≠ 0 → exec .pcbFinalize s = failedWith s (pcbStale s.regs) s.regs.pcbErr)
        ∧ (s.regs.pcbErr = 0 → layoutWf s.cfg = false → exec .pcbFinalize s = failedWith s (pcbStale s.regs) 4)
        ∧ (s.regs.pcbErr = 0 → layoutWf s.cfg = true →
            s.regs.pcbLutSet = false ∨ s.regs.pfSclkSet = false ∨ s.regs.pf.dmEn = 1 ∧ s.regs.pf.dmSeq = 0 →
              exec .pcbFinalize s = failedWith s (pcbStale s.regs) 3)
        ∧ (s.regs.pcbErr = 0 → layoutWf s.cfg = true → s.regs.pcbLutSet = true → s.regs.pfSclkSet = true →
            ¬ (s.regs.pf.dmEn = 1 ∧ s.regs.pf.dmSeq = 0) →
              exec .pcbFinalize s
                = doneWith s
                    { s.regs with pimg := buildPcb s.cfg s.regs.pf s.regs.pcbLut, pcbValid := true }
                    s.cfg.layout.pcbSize)

/-- R231: PCB_READ answers a byte of a valid peripheral image; the range test comes before the validity test; no
register changes. -/
def Obligations.PcbReadAnswersByte : Prop :=
  ∀ (v : Word) (s : State),
    encodedAs (.pcbRead v) 0x34 0 0 v
      ∧ (s.cfg.layout.pcbSize.toNat ≤ v.toNat → exec (.pcbRead v) s = failedWith s s.regs 5)
      ∧ (v.toNat < s.cfg.layout.pcbSize.toNat → s.regs.pcbValid = false →
          exec (.pcbRead v) s = failedWith s s.regs 6)
      ∧ (v.toNat < s.cfg.layout.pcbSize.toNat → s.regs.pcbValid = true →
          exec (.pcbRead v) s = doneWith s s.regs ((Cells.read s.regs.pimg v.toNat).setWidth 32))

/-- R226: what BuildPCB puts into the image under a well-formed layout, bit by bit: the tag at 0, the version at 4, each
field of the family in its entry (0 for the device mode sequence and argument while device mode is disabled), PCB_LUT at
LUT_OFF, and 0 in every other bit. -/
def Obligations.PcbImageContents : Prop :=
  ∀ (c : Config) (pf : PcbFields) (lut : Memory), layoutWf c = true →
    (∀ i < 4, Cells.read (buildPcb c pf lut) i = c.tag.extractLsb' (8 * i) 8)
      ∧ (∀ i < 4, Cells.read (buildPcb c pf lut) (4 + i) = c.version.extractLsb' (8 * i) 8)
      ∧ (∀ f ∈ c.family.fields, entryHolds (buildPcb c pf lut) (fieldEntry c.layout f)
          (if (f = .deviceModeSeq ∨ f = .deviceModeArg) ∧ pf.dmEn = 0 then 0 else getField pf f))
      ∧ (∀ a < 16 * c.layout.nseq, Cells.read (buildPcb c pf lut) (c.layout.lutOff + a) = Cells.read lut a)
      ∧ (∀ n, 64 ≤ n → (∀ f ∈ c.family.fields, ¬ inEntry (fieldEntry c.layout f) n) →
          ¬ (8 * c.layout.lutOff ≤ n ∧ n < 8 * (c.layout.lutOff + 16 * c.layout.nseq)) →
            imageBit (buildPcb c pf lut) n = false)

/-- R225: a region size is stored as REGION_ENC gives it, under the default family the byte count itself, and while
PF_DMEN is 0 the bits of the device mode sequence and argument are 0 in the image whatever their registers hold. The
default family is the spec's general knowledge (log 12), and a table REGION_ENC is read as log 13 says. -/
def Obligations.DerivedFields : Prop :=
  (∀ (c : Config) (f : PcbField) (v : Word),
      f ∈ [PcbField.sflashA1Size, .sflashA2Size, .sflashB1Size, .sflashB2Size] →
        fieldEncode c f v = regionEncode c.family.regionEnc v
          ∧ (c.family = familyDefault → fieldEncode c f v = some v))
    ∧ ∀ (c : Config) (pf : PcbFields) (lut : Memory) (f : PcbField), layoutWf c = true → pf.dmEn = 0 →
        f = .deviceModeSeq ∨ f = .deviceModeArg → entryHolds (buildPcb c pf lut) (fieldEntry c.layout f) 0

/-- R221: WF is exactly the seven items; an ill-formed layout makes both finalize commands fail with
LayoutInvariantViolation, unless their stage has failed before, and LUT_SET fail with it for the one Command whose slot
is outside the table. That items 3 and 5 speak of all fifteen FIELD entries whatever the family has is the model's
inference (log 9), and the maps of item 7 are read as log 13 says. -/
def Obligations.LayoutInvariantIsSevenItems : Prop :=
  (∀ c : Config, layoutWf c = true ↔
    (c.layout.totalSize.toNat = c.layout.pcbSize.toNat + c.layout.trailerSize)
      ∧ (1 ≤ c.layout.nseq ∧ 8 ≤ c.layout.lutOff ∧ c.layout.lutOff + 16 * c.layout.nseq ≤ c.layout.pcbSize.toNat)
      ∧ (∀ f, let e := fieldEntry c.layout f
          (e.w = 1 ∨ e.w = 2 ∨ e.w = 4) ∧ 1 ≤ e.nb ∧ e.sh + e.nb ≤ 8 * e.w ∧ 8 ≤ e.off
            ∧ e.off + e.w ≤ c.layout.pcbSize.toNat)
      ∧ (∀ t, let e := trailerEntry c.layout t
          (e.w = 1 ∨ e.w = 2 ∨ e.w = 4) ∧ 1 ≤ e.nb ∧ e.sh + e.nb ≤ 8 * e.w ∧ c.layout.pcbSize.toNat ≤ e.off
            ∧ e.off + e.w ≤ c.layout.totalSize.toNat)
      ∧ ((imageRegions c.layout).Pairwise fun a b => ∀ n, ¬ ((a.1 ≤ n ∧ n < a.2) ∧ b.1 ≤ n ∧ n < b.2))
      ∧ ((namedSlots c.layout).Nodup ∧ ∀ i ∈ namedSlots c.layout, i < c.layout.nseq)
      ∧ ((∀ f ∈ c.family.fields, ∀ (v : Word) (e : Nat), fieldTable c f v e → e < 2 ^ (fieldEntry c.layout f).nb)
        ∧ ∀ (t : FtbField) (v : Word) (e : Nat), trailerTable c t v e → e < 2 ^ (trailerEntry c.layout t).nb))
    ∧ (∀ s : State, layoutWf s.cfg = false →
        (s.regs.pcbErr = 0 → exec .pcbFinalize s = failedWith s (pcbStale s.regs) 4)
          ∧ (s.regs.ftbErr = 0 → exec .ftbFinalize s = failedWith s (outStale s.regs) 4))
    ∧ ∀ (s : State) (f : Byte) (i : Nat), s.regs.lutErr = 0 → s.regs.seqErr = 0 → selectsSlot s.cfg.layout f i →
        s.cfg.layout.nseq ≤ i → exec (.lutSet f) s = failedWith s { s.regs with lutErr := 4 } 4

/-- R222, R223, R271, R6 (values marked general knowledge, log 12): the default layout satisfies WF under the default
family, every default FIELD and TRAILER entry fills its unit, the default sizes, slots, field offsets and trailer
offsets, the default fields, legal codes, frequency maps and region encoding, and the default TAG and VERSION. -/
def Obligations.DefaultLayoutWellFormed : Prop :=
  layoutWf configDefault = true
    ∧ (layoutDefault.totalSize = 512 ∧ layoutDefault.pcbSize = 448 ∧ layoutDefault.trailerSize = 64
      ∧ layoutDefault.nseq = 16 ∧ layoutDefault.lutOff = 0x80 ∧ namedSlots layoutDefault = [0, 1, 3, 5, 9, 11])
    ∧ [PcbField.readSampleClkSrc, .csHoldTime, .csSetupTime, .columnAddressWidth, .deviceModeCfgEnable,
        .waitTimeCfgCommands, .deviceModeSeq, .deviceModeArg, .deviceType, .sflashPadType, .serialClkFreq,
        .sflashA1Size, .sflashA2Size, .sflashB1Size, .sflashB2Size].map
          (fun f => ((fieldEntry layoutDefault f).off, (fieldEntry layoutDefault f).w))
        = [(0x00C, 1), (0x00D, 1), (0x00E, 1), (0x00F, 1), (0x010, 1), (0x012, 2), (0x014, 4), (0x018, 4), (0x044, 1),
            (0x045, 1), (0x046, 1), (0x050, 4), (0x054, 4), (0x058, 4), (0x05C, 4)]
    ∧ (∀ f, (fieldEntry layoutDefault f).sh = 0
        ∧ (fieldEntry layoutDefault f).nb = 8 * (fieldEntry layoutDefault f).w)
    ∧ ftbFieldsAll.map (fun t => ((trailerEntry layoutDefault t).off, (trailerEntry layoutDefault t).w))
        = [(0x1C0, 4), (0x1C4, 4), (0x1C8, 1)]
    ∧ (∀ u, (trailerEntry layoutDefault u).sh = 0
        ∧ (trailerEntry layoutDefault u).nb = 8 * (trailerEntry layoutDefault u).w)
    ∧ configDefault.layout = layoutDefault ∧ configDefault.family = familyDefault
    ∧ (∀ f, f ∈ familyDefault.fields)
    ∧ (∀ b, (b ∈ familyDefault.rscLegal ↔ b.toNat ∈ [0, 1, 2, 3]) ∧ (b ∈ familyDefault.cawLegal ↔ b.toNat ∈ [0, 3, 12])
        ∧ (b ∈ familyDefault.devTypeLegal ↔ b.toNat ∈ [1, 2]) ∧ (b ∈ familyDefault.padLegal ↔ b.toNat ∈ [1, 2, 4, 8]))
    ∧ (∀ v e, (mapGives familyDefault.freq v e ↔ (v.toNat, e) ∈ defaultFrequencies)
        ∧ (mapGives familyDefault.ipFreq v e ↔ (v.toNat, e) ∈ defaultFrequencies)
        ∧ (regionGives familyDefault.regionEnc v e ↔ e = v.toNat))
    ∧ configDefault.tag.toNat = 0x42464346 ∧ configDefault.version.toNat = 0x56010400

/-! ## The flash-type-block wrapper -/

/-- R273: FTB_CLEAR starts a new flash-type block, whatever the state, and leaves the peripheral block alone. -/
def Obligations.FtbClearStartsEmpty : Prop :=
  encodedAs .ftbClear 0x40 0 0 0
    ∧ ∀ s : State, exec .ftbClear s
        = doneWith s
            { s.regs with
              fwrap := [], ftbWrapped := false, tf := State.reset.regs.tf, tfSet := 0, ftbErr := 0, out := []
              outValid := false } 0

/-- R274: FTB_WRAP invalidates the final image, then copies a valid peripheral image into FWRAP; a failed or unfinished
peripheral block makes the flash-type block fail. -/
def Obligations.FtbWrapCopiesImage : Prop :=
  encodedAs .ftbWrap 0x41 0 0 0
    ∧ ∀ s : State,
      (s.regs.ftbErr ≠ 0 → exec .ftbWrap s = failedWith s (outStale s.regs) s.regs.ftbErr)
        ∧ (s.regs.ftbErr = 0 → s.regs.pcbErr ≠ 0 →
            exec .ftbWrap s = failedWith s { outStale s.regs with ftbErr := s.regs.pcbErr } s.regs.pcbErr)
        ∧ (s.regs.ftbErr = 0 → s.regs.pcbErr = 0 → s.regs.pcbValid = false →
            exec .ftbWrap s = failedWith s { outStale s.regs with ftbErr := 3 } 3)
        ∧ (s.regs.ftbErr = 0 → s.regs.pcbErr = 0 → s.regs.pcbValid = true →
            exec .ftbWrap s = doneWith s { outStale s.regs with fwrap := s.regs.pimg, ftbWrapped := true } 0)

/-- R272: the trailer field of each id, its legal values and what is stored, its register and its TF_SET bit; storing a
legal value makes the register read as what is stored and leaves the other two alone; FTB_FINALIZE fails until each has
been set. Of two rows of IPFREQ with one key the first counts by the model's choice (log 13). -/
def Obligations.TrailerFieldTable : Prop :=
  (∀ (c : Config) (t : FtbField) (v e : Word), trailerEncode c t v = some e ↔ trailerTable c t v e.toNat)
    ∧ (∀ (c : Config) (t u : FtbField) (v e : Word) (tf : TrailerFields), trailerTable c t v e.toNat →
        getTrailer (setTrailer tf t e) t = e ∧ (u ≠ t → getTrailer (setTrailer tf t e) u = getTrailer tf u))
    ∧ (∀ (b : BitVec 3) (t : FtbField) (k : Nat), (setTrailerBit b t).getLsbD k
        = (b.getLsbD k || decide (k = (ftbFieldIndex t).val)))
    ∧ (∀ b : Byte, ftbFieldOf b = if 1 ≤ b.toNat then ftbFieldsAll[b.toNat - 1]? else none)
    ∧ ∀ (s : State) (t : FtbField), s.regs.ftbErr = 0 → layoutWf s.cfg = true →
        s.regs.tfSet.getLsbD (ftbFieldIndex t).val = false →
          exec .ftbFinalize s = failedWith s (outStale s.regs) 3

/-- R275: FTB_SET invalidates the final image, then stores a legal value and sets its TF_SET bit, and fails on any other
value; a field id that names no field is answered InvalidCommand and changes nothing, an inference of the model from
R108 and R296 (log 6). The map IPFREQ is read as log 13 says. -/
def Obligations.FtbSetStoresOrFails : Prop :=
  ∀ (b : Byte) (v : Word) (s : State),
    encodedAs (.ftbSet b v) 0x42 b 0 v
      ∧ (ftbFieldOf b = none → exec (.ftbSet b v) s = failedWith s s.regs 5)
      ∧ ∀ t, ftbFieldOf b = some t →
          (s.regs.ftbErr ≠ 0 → exec (.ftbSet b v) s = failedWith s (outStale s.regs) s.regs.ftbErr)
            ∧ (s.regs.ftbErr = 0 → (∀ e, ¬ trailerTable s.cfg t v e) →
                exec (.ftbSet b v) s = failedWith s { outStale s.regs with ftbErr := 1 } 1)
            ∧ ∀ e : Word, s.regs.ftbErr = 0 → trailerTable s.cfg t v e.toNat →
                exec (.ftbSet b v) s
                  = doneWith s
                      { outStale s.regs with
                        tf := setTrailer s.regs.tf t e
                        tfSet := s.regs.tfSet ||| BitVec.ofNat 3 (2 ^ (ftbFieldIndex t).val) } 0

/-- R276: FTB_FINALIZE invalidates the final image, then builds it when the wrap and the three trailer fields are there;
its refusals in order are the sticky error, the layout invariant, what is missing, and none is recorded. -/
def Obligations.FtbFinalizeBuildsOrRefuses : Prop :=
  encodedAs .ftbFinalize 0x43 0 0 0
    ∧ ∀ s : State,
      (s.regs.ftbErr ≠ 0 → exec .ftbFinalize s = failedWith s (outStale s.regs) s.regs.ftbErr)
        ∧ (s.regs.ftbErr = 0 → layoutWf s.cfg = false → exec .ftbFinalize s = failedWith s (outStale s.regs) 4)
        ∧ (s.regs.ftbErr = 0 → layoutWf s.cfg = true → s.regs.ftbWrapped = false ∨ s.regs.tfSet ≠ 0b111 →
            exec .ftbFinalize s = failedWith s (outStale s.regs) 3)
        ∧ (s.regs.ftbErr = 0 → layoutWf s.cfg = true → s.regs.ftbWrapped = true → s.regs.tfSet = 0b111 →
            exec .ftbFinalize s
              = doneWith s { s.regs with out := buildFinal s.cfg s.regs.fwrap s.regs.tf, outValid := true }
                  s.cfg.layout.totalSize)

/-- R270, R276: the final image under a well-formed layout: the PCB_SIZE bytes of FWRAP, then the trailer with each
field in its entry and 0 in every other bit, and nothing past TOTAL_SIZE. -/
def Obligations.FinalImageContents : Prop :=
  ∀ (c : Config) (fwrap : Memory) (tf : TrailerFields), layoutWf c = true →
    (∀ a < c.layout.pcbSize.toNat, Cells.read (buildFinal c fwrap tf) a = Cells.read fwrap a)
      ∧ (∀ t, entryHolds (buildFinal c fwrap tf) (trailerEntry c.layout t) (getTrailer tf t))
      ∧ (∀ n, 8 * c.layout.pcbSize.toNat ≤ n → (∀ t, ¬ inEntry (trailerEntry c.layout t) n) →
          imageBit (buildFinal c fwrap tf) n = false)
      ∧ Cells.within (buildFinal c fwrap tf) c.layout.totalSize.toNat = true

/-! ## Interface and read-out -/

/-- R291 to R294: NOP answers 0, STATUS the four sticky error registers, INFO the progress bits, RD_RESULT the last
packed instruction; none changes a register. -/
def Obligations.StatusReadouts : Prop :=
  (encodedAs .nop 0x00 0 0 0 ∧ encodedAs .status 0x02 0 0 0 ∧ encodedAs .info 0x03 0 0 0
      ∧ encodedAs .rdResult 0x04 0 0 0)
    ∧ ∀ s : State,
      exec .nop s = doneWith s s.regs 0
        ∧ exec .status s
            = doneWith s s.regs (BitVec.ofNat 32 (s.regs.seqErr.toNat + s.regs.lutErr.toNat * 2 ^ 8
                + s.regs.pcbErr.toNat * 2 ^ 16 + s.regs.ftbErr.toNat * 2 ^ 24))
        ∧ exec .info s
            = doneWith s s.regs (BitVec.ofNat 32 (s.regs.seqK.toNat + s.regs.pcbLutSet.toNat * 2 ^ 4
                + s.regs.pfSclkSet.toNat * 2 ^ 5 + s.regs.pcbValid.toNat * 2 ^ 6 + s.regs.ftbWrapped.toNat * 2 ^ 7
                + s.regs.tfSet.toNat * 2 ^ 8 + s.regs.outValid.toNat * 2 ^ 11))
        ∧ exec .rdResult s = doneWith s s.regs (BitVec.ofNat 32 s.regs.result.toNat)

/-- R295: OUT_READ answers a byte of a valid final image; the range test comes before the validity test; no register
changes. -/
def Obligations.OutReadAnswersByte : Prop :=
  ∀ (v : Word) (s : State),
    encodedAs (.outRead v) 0x50 0 0 v
      ∧ (s.cfg.layout.totalSize.toNat ≤ v.toNat → exec (.outRead v) s = failedWith s s.regs 5)
      ∧ (v.toNat < s.cfg.layout.totalSize.toNat → s.regs.outValid = false →
          exec (.outRead v) s = failedWith s s.regs 6)
      ∧ (v.toNat < s.cfg.layout.totalSize.toNat → s.regs.outValid = true →
          exec (.outRead v) s = doneWith s s.regs ((Cells.read s.regs.out v.toNat).setWidth 32))

/-- R298: OUT_READ32 answers four bytes of a valid final image, little-endian, at any alignment; the bound is computed
without wrap and tested before the validity; no register changes. -/
def Obligations.OutRead32AnswersWord : Prop :=
  ∀ (v : Word) (s : State),
    encodedAs (.outRead32 v) 0x51 0 0 v
      ∧ (s.cfg.layout.totalSize.toNat < v.toNat + 4 → exec (.outRead32 v) s = failedWith s s.regs 5)
      ∧ (v.toNat + 4 ≤ s.cfg.layout.totalSize.toNat → s.regs.outValid = false →
          exec (.outRead32 v) s = failedWith s s.regs 6)
      ∧ (v.toNat + 4 ≤ s.cfg.layout.totalSize.toNat → s.regs.outValid = true →
          exec (.outRead32 v) s
            = doneWith s s.regs (Cells.read s.regs.out (v.toNat + 3) ++ Cells.read s.regs.out (v.toNat + 2)
                ++ Cells.read s.regs.out (v.toNat + 1) ++ Cells.read s.regs.out v.toNat))

/-- R68: a read command changes no register and no byte, and performed again it answers the same. -/
def Obligations.ReadsHaveNoSideEffects : Prop :=
  ∀ (i : Instr) (s : State), isRead i →
    ∃ t, exec i s = .next t ∧ t.regs = s.regs ∧ t.cfg = s.cfg ∧ exec i t = .next t

/-! ## The whole machine -/

/-- Every step keeps the invariant: the sequence accumulator is padded with no-ops (R25), the sticky registers hold
only the codes of R33 (d), every array is in canonical form and inside its size (R60), every field register holds a
legal encoding or its reset value (R232 (e)), PIMG and OUT are the images of the present registers while their valid
bits are 1 and all zero otherwise (R29, R32, R33 (a) and (b)), and FWRAP is an image built from legal values (R277 (b)).
From any state that meets it, reached from reset or not. -/
def Obligations.StepKeepsInvariant : Prop := ∀ s t : State, Inv s → step s = .next t → Inv t

/-- The invariant holds after reset. -/
def Obligations.InvariantAtReset : Prop := Inv State.reset

/-- R31: only the stage's own CLEAR turns a sticky error off; while it is on no command changes it, so the first error
wins; a command that turns it on answers its code, which in a good state is one of 1 to 4. -/
def Obligations.FirstErrorSticks : Prop :=
  ∀ (i : Instr) (st : Stage) (s t : State), exec i s = .next t →
    (i = clearOf st → stageErr st t.regs = 0)
      ∧ (i ≠ clearOf st → stageErr st s.regs ≠ 0 → stageErr st t.regs = stageErr st s.regs)
      ∧ (stageErr st s.regs = 0 → stageErr st t.regs ≠ 0 → statusOf t = some (stageErr st t.regs))
      ∧ (Inv s → (stageErr st t.regs).toNat ≤ 4)

/-- No step changes CONFIG (R5; that CONFIG stands in State is the model's choice, log 1). -/
def Obligations.ConfigNeverChanges : Prop := ∀ s t : State, step s = .next t → t.cfg = s.cfg

/-- R341 (an inference of the spec from R340 and the CLEAR rules): the four CLEAR commands, in any order and from any
state, give the reset values of every register but RESULT, which they keep. -/
def Obligations.ClearsGiveReset : Prop :=
  ∀ (is : List Instr) (s : State), is.Perm [.seqClear, .lutClear, .pcbClear, .ftbClear] →
    ∃ t, execAll s is = some t ∧ t.regs = { State.reset.regs with result := s.regs.result }

/-- R317: the only writes of a command that fails are the invalidation at its head and, for a setter, the sticky error
of its own stage, which was 0 before and becomes the code answered; every other failing command changes nothing. -/
def Obligations.FailingCommandWrites : Prop :=
  ∀ (i : Instr) (s t : State), exec i s = .next t → statusOf t ≠ some 0 →
    t.cfg = s.cfg ∧ t.requests = s.requests
      ∧ (t.regs = headOf i s.regs
        ∨ ∃ st c, recordsIn i = some st ∧ stageErr st s.regs = 0 ∧ statusOf t = some c
            ∧ t.regs = setStageErr st c (headOf i s.regs))

/-- R313: a failed stage makes the stage above it fail with its code when that reads it, up to FTB_ERR, and
FTB_FINALIZE then refuses with it; clearing a lower stage does not clear the copies. -/
def Obligations.ErrorsPropagateUpward : Prop :=
  ∀ (s : State) (f : Byte) (i : Nat), s.regs.seqErr ≠ 0 → s.regs.lutErr = 0 → s.regs.pcbErr = 0 → s.regs.ftbErr = 0 →
    selectsSlot s.cfg.layout f i →
      ∃ t, execAll s [.lutSet f, .pcbLoadLut, .ftbWrap, .seqClear, .ftbFinalize] = some t
        ∧ t.regs.seqErr = 0 ∧ t.regs.lutErr = s.regs.seqErr ∧ t.regs.pcbErr = s.regs.seqErr
        ∧ t.regs.ftbErr = s.regs.seqErr ∧ statusOf t = some s.regs.seqErr ∧ t.regs.outValid = false

/-- A rejected value reaches no image: once a setter of the peripheral block or of the flash-type block has failed, no
list of commands without that stage's CLEAR makes its image valid again (43_peripheral_block.md section of R232,
60_exceptions.md section of R315). -/
def Obligations.FailedStageBuildsNothing : Prop :=
  (∀ (is : List Instr) (s t : State), s.regs.pcbErr ≠ 0 → s.regs.pcbValid = false → Instr.pcbClear ∉ is →
      execAll s is = some t → t.regs.pcbErr = s.regs.pcbErr ∧ t.regs.pcbValid = false)
    ∧ ∀ (is : List Instr) (s t : State), s.regs.ftbErr ≠ 0 → s.regs.outValid = false → Instr.ftbClear ∉ is →
      execAll s is = some t → t.regs.ftbErr = s.regs.ftbErr ∧ t.regs.outValid = false

/-- R35: the response and the next registers depend only on the registers, CONFIG and the command word. -/
def Obligations.NoHiddenState : Prop :=
  ∀ (s s' t t' : State) (x : InstrWord) (rest rest' : List Request), s.regs = s'.regs → s.cfg = s'.cfg →
    s.requests = .present x :: rest → s'.requests = .present x :: rest' → step s = .next t → step s' = .next t' →
      t.regs = t'.regs ∧ t.response = t'.response

/-- R277 (an inference of the spec from R232, R274 and R276): in a good state with OUT_VALID = 1 the final image begins
with the tag, is no longer than TOTAL_SIZE, has 0 in every trailer bit outside the entries, and each trailer entry holds
the encoding of a legal value. -/
def Obligations.ValidImageIsComplete : Prop :=
  ∀ s : State, Inv s → s.regs.outValid = true →
    Cells.within s.regs.out s.cfg.layout.totalSize.toNat = true
      ∧ memRead s.regs.out 0 4 = s.cfg.tag
      ∧ (∃ pf lut, FieldsLegal s.cfg pf true ∧ ∀ a < s.cfg.layout.pcbSize.toNat,
          Cells.read s.regs.out a = Cells.read (buildPcb s.cfg pf lut) a)
      ∧ (∀ n, 8 * s.cfg.layout.pcbSize.toNat ≤ n → (∀ t, ¬ inEntry (trailerEntry s.cfg.layout t) n) →
          imageBit s.regs.out n = false)
      ∧ ∀ t, ∃ v e, trailerEncode s.cfg t v = some e ∧ getTrailer s.regs.tf t = e
          ∧ entryHolds s.regs.out (trailerEntry s.cfg.layout t) e

/-- The frame of every command, unit by unit: a command writes only the registers of its own unit, so a copy taken by a
higher unit is never changed from below (the "written by" column of 10_state.md section 2; 20_memory.md section of
R73). -/
def Obligations.UnitsWriteTheirOwnRegisters : Prop :=
  ∀ (i : Instr) (s t : State), exec i s = .next t →
    (unitOf i ≠ .packer → t.regs.result = s.regs.result)
      ∧ (unitOf i ≠ .sequence →
          t.regs.seqSlot = s.regs.seqSlot ∧ t.regs.seqK = s.regs.seqK ∧ t.regs.seqErr = s.regs.seqErr)
      ∧ (unitOf i ≠ .table → t.regs.lutTab = s.regs.lutTab ∧ t.regs.lutErr = s.regs.lutErr)
      ∧ (unitOf i ≠ .pcb →
          t.regs.pf = s.regs.pf ∧ t.regs.pfSclkSet = s.regs.pfSclkSet ∧ t.regs.pcbLut = s.regs.pcbLut
            ∧ t.regs.pcbLutSet = s.regs.pcbLutSet ∧ t.regs.pcbErr = s.regs.pcbErr ∧ t.regs.pimg = s.regs.pimg
            ∧ t.regs.pcbValid = s.regs.pcbValid)
      ∧ (unitOf i ≠ .ftb →
          t.regs.fwrap = s.regs.fwrap ∧ t.regs.ftbWrapped = s.regs.ftbWrapped ∧ t.regs.tf = s.regs.tf
            ∧ t.regs.tfSet = s.regs.tfSet ∧ t.regs.ftbErr = s.regs.ftbErr ∧ t.regs.out = s.regs.out
            ∧ t.regs.outValid = s.regs.outValid)
      ∧ t.cfg = s.cfg ∧ t.requests = s.requests

/-- R314: a failing finalize records nothing: it writes only the invalidation at its head. When something is missing,
PCB_FINALIZE or FTB_FINALIZE answers MissingRequiredField, and supplying all that is missing (the table, the clock
frequency, the device mode sequence; the wrapped block, the trailer fields) and finalising again succeeds. Finalising
again with no change in between builds the same image. The maps of the legal values are read as log 13 says. -/
def Obligations.FinalizeFailureIsNotSticky : Prop :=
  (∀ s t : State, exec .pcbFinalize s = .next t → statusOf t ≠ some 0 → t.regs = pcbStale s.regs)
    ∧ (∀ s t : State, exec .ftbFinalize s = .next t → statusOf t ≠ some 0 → t.regs = outStale s.regs)
    ∧ (∀ (s : State) (mhz dm : Word), s.regs.pcbErr = 0 → layoutWf s.cfg = true → pcbMissing s.regs →
        (s.regs.pcbLutSet = false → s.regs.lutErr = 0) →
        (s.regs.pfSclkSet = false → PcbField.serialClkFreq ∈ s.cfg.family.fields
          ∧ ∃ e : Word, fieldTable s.cfg .serialClkFreq mhz e.toNat) →
        (s.regs.pf.dmEn = 1 ∧ s.regs.pf.dmSeq = 0 → PcbField.deviceModeSeq ∈ s.cfg.family.fields
          ∧ ∃ e : Word, fieldTable s.cfg .deviceModeSeq dm e.toNat) →
          ∃ t u, exec .pcbFinalize s = .next t ∧ statusOf t = some 3
            ∧ execAll t (pcbSupplies s.regs mhz dm ++ [.pcbFinalize]) = some u ∧ statusOf u = some 0
            ∧ u.regs.pcbValid = true)
    ∧ (∀ (s : State) (v : FtbField → Word), s.regs.ftbErr = 0 → layoutWf s.cfg = true → ftbMissing s.regs →
        (s.regs.ftbWrapped = false → s.regs.pcbErr = 0 ∧ s.regs.pcbValid = true) →
        (∀ f, s.regs.tfSet.getLsbD (ftbFieldIndex f).val = false → ∃ e : Word, trailerTable s.cfg f (v f) e.toNat) →
          ∃ t u, exec .ftbFinalize s = .next t ∧ statusOf t = some 3
            ∧ execAll t (ftbSupplies s.regs v ++ [.ftbFinalize]) = some u ∧ statusOf u = some 0
            ∧ u.regs.outValid = true)
    ∧ (∀ s t : State, exec .pcbFinalize s = .next t → statusOf t = some 0 →
        ∃ u, exec .pcbFinalize t = .next u ∧ u.regs = t.regs)
    ∧ ∀ s t : State, exec .ftbFinalize s = .next t → statusOf t = some 0 →
        ∃ u, exec .ftbFinalize t = .next u ∧ u.regs = t.regs
end

