-- ==== Sys2Proof/Laws/Cells.lean ====
section
/-! SUPPORT. The laws of a sparse array: reading after writing, the canonical form, and when two arrays are equal. -/

namespace Sys2Proof.Machine

variable {w : Nat}

@[simp] theorem Cells.read_nil (a : Nat) : Cells.read ([] : Cells w) a = 0 := rfl

theorem Cells.read_cons (b : Nat) (u : BitVec w) (r : Cells w) (a : Nat) :
    Cells.read ((b, u) :: r) a = if b = a then u else Cells.read r a := rfl

theorem Cells.read_erase (m : Cells w) (a b : Nat) :
    Cells.read (Cells.erase m a) b = if b = a then 0 else Cells.read m b := by
  induction m with
  | nil => simp [Cells.erase]
  | cons c r ih =>
    obtain ⟨k, u⟩ := c
    simp only [Cells.erase] at ih ⊢
    by_cases hk : k = a
    · subst hk
      simp only [List.filter_cons, bne_self_eq_false, Bool.false_eq_true, ↓reduceIte, ih, Cells.read_cons]
      by_cases hb : b = k
      · simp [hb]
      · simp [hb, Ne.symm hb]
    · have : (k != a) = true := by simp [hk]
      simp only [List.filter_cons, this, ↓reduceIte, Cells.read_cons, ih]
      by_cases hb : k = b
      · subst hb; simp [hk]
      · simp [hb]

theorem Cells.read_insert_self (m : Cells w) (a : Nat) (v : BitVec w) (h : ∀ c ∈ m, c.1 ≠ a) :
    Cells.read (Cells.insert m a v) a = v := by
  induction m with
  | nil => simp [Cells.insert, Cells.read_cons]
  | cons c r ih =>
    obtain ⟨k, u⟩ := c
    have hk : k ≠ a := h (k, u) (by simp)
    simp only [Cells.insert]
    split
    · simp [Cells.read_cons]
    · rw [Cells.read_cons, if_neg hk]
      exact ih fun c hc => h c (by simp [hc])

theorem Cells.read_insert_other (m : Cells w) (a b : Nat) (v : BitVec w) (h : b ≠ a) :
    Cells.read (Cells.insert m a v) b = Cells.read m b := by
  induction m with
  | nil => simp [Cells.insert, Cells.read_cons, Ne.symm h]
  | cons c r ih =>
    obtain ⟨k, u⟩ := c
    simp only [Cells.insert]
    split
    · simp [Cells.read_cons, Ne.symm h]
    · simp [Cells.read_cons, ih]

/-- Everything a write does: the cell written reads the value, every other cell reads as before. -/
theorem Cells.read_write (m : Cells w) (a b : Nat) (v : BitVec w) :
    Cells.read (Cells.write m a v) b = if b = a then v else Cells.read m b := by
  unfold Cells.write
  split
  next hv => subst hv; exact Cells.read_erase m a b
  next =>
    by_cases h : b = a
    · subst h
      rw [if_pos rfl]
      exact Cells.read_insert_self _ _ _ fun c hc => by
        have := (List.mem_filter.mp hc).2
        simpa using this
    · rw [if_neg h, Cells.read_insert_other _ _ _ _ h, Cells.read_erase, if_neg h]

/-- Everything a list of writes does. -/
theorem Cells.read_writeList (m : Cells w) (a : Nat) (vs : List (BitVec w)) (b : Nat) :
    Cells.read (Cells.writeList m a vs) b
      = if a ≤ b ∧ b < a + vs.length then vs.getD (b - a) 0 else Cells.read m b := by
  induction vs generalizing m a with
  | nil => simp only [Cells.writeList, List.length_nil]; rw [if_neg (by omega)]
  | cons v r ih =>
    simp only [Cells.writeList, ih, Cells.read_write, List.length_cons]
    by_cases h : b = a
    · subst h; rw [if_neg (by omega), if_pos rfl, if_pos (by omega)]; simp
    · rw [if_neg h]
      by_cases h2 : a + 1 ≤ b ∧ b < a + 1 + r.length
      · rw [if_pos h2, if_pos (by omega)]
        have : b - a = (b - (a + 1)) + 1 := by omega
        rw [this]; simp
      · rw [if_neg h2, if_neg (by omega)]

@[simp] theorem Cells.readList_length (m : Cells w) (a n : Nat) : (Cells.readList m a n).length = n := by
  induction n generalizing a with
  | zero => rfl
  | succ n ih => simp [Cells.readList, ih]

theorem Cells.readList_getD (m : Cells w) (a n i : Nat) (h : i < n) :
    (Cells.readList m a n).getD i 0 = Cells.read m (a + i) := by
  induction n generalizing a i with
  | zero => omega
  | succ n ih =>
    cases i with
    | zero => simp [Cells.readList]
    | succ i =>
      simp only [Cells.readList, List.getD_cons_succ]
      rw [ih (a + 1) i (by omega)]
      congr 1; omega

theorem Cells.readList_congr (m m' : Cells w) (a n : Nat) (h : ∀ i < n, Cells.read m (a + i) = Cells.read m' (a + i)) :
    Cells.readList m a n = Cells.readList m' a n := by
  induction n generalizing a with
  | zero => rfl
  | succ n ih =>
    simp only [Cells.readList]
    rw [ih (a + 1) fun i hi => by have := h (i + 1) (by omega); rwa [show a + 1 + i = a + (i + 1) by omega]]
    have := h 0 (by omega)
    simp only [Nat.add_zero] at this
    rw [this]

theorem Cells.read_take (m : Cells w) (n a : Nat) :
    Cells.read (Cells.take m n) a = if a < n then Cells.read m a else 0 := by
  induction m with
  | nil => simp [Cells.take]
  | cons c r ih =>
    obtain ⟨k, u⟩ := c
    simp only [Cells.take] at ih ⊢
    by_cases hk : k < n
    · rw [List.filter_cons_of_pos (by simpa using hk), Cells.read_cons, Cells.read_cons, ih]
      by_cases h : k = a
      · subst h; simp [hk]
      · simp [h]
    · rw [List.filter_cons_of_neg (by simpa using hk), ih, Cells.read_cons]
      by_cases h : k = a
      · subst h; simp [hk]
      · simp [h]

/-! The canonical form. -/

theorem Cells.wfFrom_mono {lo lo' : Nat} (h : lo' ≤ lo) (m : Cells w) (hm : Cells.wfFrom lo m = true) :
    Cells.wfFrom lo' m = true := by
  cases m with
  | nil => rfl
  | cons c r =>
    obtain ⟨k, u⟩ := c
    simp only [Cells.wfFrom, Bool.and_eq_true, decide_eq_true_eq] at hm ⊢
    exact ⟨⟨by omega, hm.1.2⟩, hm.2⟩

theorem Cells.wfFrom_filter (p : Nat × BitVec w → Bool) (lo : Nat) (m : Cells w) (hm : Cells.wfFrom lo m = true) :
    Cells.wfFrom lo (m.filter p) = true := by
  induction m generalizing lo with
  | nil => rfl
  | cons c r ih =>
    obtain ⟨k, u⟩ := c
    simp only [Cells.wfFrom, Bool.and_eq_true, decide_eq_true_eq] at hm
    simp only [List.filter_cons]
    split
    · simp only [Cells.wfFrom, Bool.and_eq_true, decide_eq_true_eq]
      exact ⟨hm.1, ih _ hm.2⟩
    · exact Cells.wfFrom_mono (by omega) _ (ih _ hm.2)

theorem Cells.wfFrom_insert (lo : Nat) (m : Cells w) (a : Nat) (v : BitVec w) (hv : v ≠ 0) (ha : lo ≤ a)
    (hne : ∀ c ∈ m, c.1 ≠ a) (hm : Cells.wfFrom lo m = true) : Cells.wfFrom lo (Cells.insert m a v) = true := by
  induction m generalizing lo with
  | nil => simpa [Cells.insert, Cells.wfFrom, ha] using hv
  | cons c r ih =>
    obtain ⟨k, u⟩ := c
    have hk : k ≠ a := hne (k, u) (by simp)
    simp only [Cells.wfFrom, Bool.and_eq_true, decide_eq_true_eq] at hm
    simp only [Cells.insert]
    split
    · simp only [Cells.wfFrom, Bool.and_eq_true, decide_eq_true_eq]
      exact ⟨⟨ha, by simpa using hv⟩, ⟨by omega, hm.1.2⟩, hm.2⟩
    · simp only [Cells.wfFrom, Bool.and_eq_true, decide_eq_true_eq]
      exact ⟨hm.1, ih _ (by omega) (fun c hc => hne c (by simp [hc])) hm.2⟩

/-- A write keeps the canonical form. -/
theorem Cells.wf_write (m : Cells w) (a : Nat) (v : BitVec w) (hm : Cells.wf m = true) :
    Cells.wf (Cells.write m a v) = true := by
  unfold Cells.wf Cells.write at *
  split
  · exact Cells.wfFrom_filter _ _ _ hm
  next hv =>
    refine Cells.wfFrom_insert _ _ _ _ hv (Nat.zero_le _) (fun c hc => ?_) (Cells.wfFrom_filter _ _ _ hm)
    simpa using (List.mem_filter.mp hc).2

/-- A list of writes keeps the canonical form. -/
theorem Cells.wf_writeList (m : Cells w) (a : Nat) (vs : List (BitVec w)) (hm : Cells.wf m = true) :
    Cells.wf (Cells.writeList m a vs) = true := by
  induction vs generalizing m a with
  | nil => exact hm
  | cons v r ih => exact ih _ _ (Cells.wf_write m a v hm)

/-- Cutting an array keeps the canonical form. -/
theorem Cells.wf_take (m : Cells w) (n : Nat) (hm : Cells.wf m = true) : Cells.wf (Cells.take m n) = true :=
  Cells.wfFrom_filter _ _ _ hm

/-- A multi-byte write keeps the canonical form of a byte array. -/
theorem Memory.wf_memWrite (m : Memory) (a n : Nat) (v : Word) (hm : Memory.wf m = true) :
    Memory.wf (memWrite m a n v) = true := Cells.wf_writeList m a _ hm

/-- A tabulated byte array is in canonical form. -/
theorem Memory.wf_tabulate (f : Nat → Byte) (n : Nat) : Memory.wf (tabulate f n) = true :=
  Cells.wf_writeList [] 0 _ rfl

/-! The bound. -/

theorem Cells.within_iff (m : Cells w) (n : Nat) : Cells.within m n = true ↔ ∀ c ∈ m, c.1 < n := by
  simp [Cells.within]

theorem Cells.within_write (m : Cells w) (n a : Nat) (v : BitVec w) (ha : a < n) (hm : Cells.within m n = true) :
    Cells.within (Cells.write m a v) n = true := by
  rw [Cells.within_iff] at hm ⊢
  have he : ∀ c ∈ Cells.erase m a, c.1 < n := fun c hc => hm c (List.mem_filter.mp hc).1
  unfold Cells.write
  split
  · exact he
  · generalize Cells.erase m a = r at he
    induction r with
    | nil => simpa [Cells.insert] using ha
    | cons d r ih =>
      obtain ⟨k, u⟩ := d
      simp only [Cells.insert]
      split
      · intro c hc
        rcases List.mem_cons.mp hc with rfl | hc
        · exact ha
        · exact he c hc
      · intro c hc
        rcases List.mem_cons.mp hc with rfl | hc
        · exact he _ (by simp)
        · exact ih (fun c hc => he c (by simp [hc])) c hc

/-- Writes below the bound keep the bound. -/
theorem Cells.within_writeList (m : Cells w) (n a : Nat) (vs : List (BitVec w)) (ha : a + vs.length ≤ n)
    (hm : Cells.within m n = true) : Cells.within (Cells.writeList m a vs) n = true := by
  induction vs generalizing m a with
  | nil => exact hm
  | cons v r ih =>
    simp only [List.length_cons] at ha
    exact ih _ _ (by omega) (Cells.within_write m n a v (by omega) hm)

theorem Cells.within_take (m : Cells w) (n : Nat) : Cells.within (Cells.take m n) n = true := by
  rw [Cells.within_iff]
  intro c hc
  simpa using (List.mem_filter.mp hc).2

theorem Cells.within_mono (m : Cells w) {n n' : Nat} (h : n ≤ n') (hm : Cells.within m n = true) :
    Cells.within m n' = true := by
  rw [Cells.within_iff] at hm ⊢
  intro c hc
  have := hm c hc
  omega

/-- A cell past the bound reads 0. -/
theorem Cells.read_of_within (m : Cells w) (n a : Nat) (hm : Cells.within m n = true) (ha : n ≤ a) :
    Cells.read m a = 0 := by
  rw [Cells.within_iff] at hm
  induction m with
  | nil => rfl
  | cons c r ih =>
    obtain ⟨k, u⟩ := c
    have : k < n := hm (k, u) (by simp)
    rw [Cells.read_cons, if_neg (by omega)]
    exact ih fun c hc => hm c (by simp [hc])

/-! Equality. -/

theorem Cells.read_eq_zero_of_lt (lo : Nat) (m : Cells w) (hm : Cells.wfFrom lo m = true) (a : Nat) (ha : a < lo) :
    Cells.read m a = 0 := by
  induction m generalizing lo with
  | nil => rfl
  | cons c r ih =>
    obtain ⟨k, u⟩ := c
    simp only [Cells.wfFrom, Bool.and_eq_true, decide_eq_true_eq] at hm
    rw [Cells.read_cons, if_neg (by omega)]
    exact ih _ hm.2 (by omega)

theorem Cells.ext_from (lo : Nat) (m m' : Cells w) (hm : Cells.wfFrom lo m = true) (hm' : Cells.wfFrom lo m' = true)
    (h : ∀ a, Cells.read m a = Cells.read m' a) : m = m' := by
  induction m generalizing m' lo with
  | nil =>
    cases m' with
    | nil => rfl
    | cons c r =>
      obtain ⟨k, u⟩ := c
      simp only [Cells.wfFrom, Bool.and_eq_true, decide_eq_true_eq, bne_iff_ne] at hm'
      exact absurd (by simpa [Cells.read_cons] using (h k).symm) hm'.1.2
  | cons c r ih =>
    obtain ⟨k, u⟩ := c
    simp only [Cells.wfFrom, Bool.and_eq_true, decide_eq_true_eq, bne_iff_ne] at hm
    cases m' with
    | nil => exact absurd (by simpa [Cells.read_cons] using h k) hm.1.2
    | cons c' r' =>
      obtain ⟨k', u'⟩ := c'
      simp only [Cells.wfFrom, Bool.and_eq_true, decide_eq_true_eq, bne_iff_ne] at hm'
      have hk : k = k' := by
        rcases Nat.lt_trichotomy k k' with hlt | heq | hgt
        · have := h k
          rw [Cells.read_cons, if_pos rfl, Cells.read_cons, if_neg (by omega),
            Cells.read_eq_zero_of_lt _ r' hm'.2 k (by omega)] at this
          exact absurd this hm.1.2
        · exact heq
        · have := h k'
          rw [Cells.read_cons, if_neg (by omega), Cells.read_cons, if_pos rfl,
            Cells.read_eq_zero_of_lt _ r hm.2 k' (by omega)] at this
          exact absurd this.symm hm'.1.2
      subst hk
      have hu : u = u' := by simpa [Cells.read_cons] using h k
      subst hu
      refine congrArg _ (ih (k + 1) r' hm.2 hm'.2 fun a => ?_)
      by_cases ha : a = k
      · subst ha
        rw [Cells.read_eq_zero_of_lt _ r hm.2 a (by omega), Cells.read_eq_zero_of_lt _ r' hm'.2 a (by omega)]
      · have := h a
        rwa [Cells.read_cons, if_neg (Ne.symm ha), Cells.read_cons, if_neg (Ne.symm ha)] at this

/-- Two arrays in canonical form that read alike everywhere are equal. -/
theorem Cells.ext (m m' : Cells w) (hm : Cells.wf m = true) (hm' : Cells.wf m' = true)
    (h : ∀ a, Cells.read m a = Cells.read m' a) : m = m' := Cells.ext_from 0 m m' hm hm' h

end Sys2Proof.Machine
end

