-- ==== Sys2Proof/Laws/Bits.lean ====
section
/-! SUPPORT. The bits of a byte array: what MemRead, MemWrite and the masked write of an entry do, bit by bit. -/

namespace Sys2Proof.Machine

@[simp] theorem leBytes_length (n : Nat) (v : Word) : (leBytes n v).length = n := by
  induction n generalizing v with
  | zero => rfl
  | succ n ih => simp [leBytes, ih]

theorem leBytes_getD (n i : Nat) (v : Word) (h : i < n) : (leBytes n v).getD i 0 = (v >>> (8 * i)).setWidth 8 := by
  induction n generalizing v i with
  | zero => omega
  | succ n ih =>
    cases i with
    | zero => simp [leBytes]
    | succ i =>
      simp only [leBytes, List.getD_cons_succ]
      rw [ih i (v >>> 8) (by omega), ← BitVec.shiftRight_add]
      congr 2; omega

/-- Every byte after a multi-byte write. -/
theorem read_memWrite (m : Memory) (a n : Nat) (v : Word) (b : Nat) :
    Cells.read (memWrite m a n v) b
      = if a ≤ b ∧ b < a + n then (v >>> (8 * (b - a))).setWidth 8 else Cells.read m b := by
  unfold memWrite
  rw [Cells.read_writeList, leBytes_length]
  split
  · rw [leBytes_getD _ _ _ (by omega)]
  · rfl

/-- Every bit after a multi-byte write. -/
theorem imageBit_memWrite (m : Memory) (a n : Nat) (v : Word) (b : Nat) :
    imageBit (memWrite m a n v) b
      = if 8 * a ≤ b ∧ b < 8 * (a + n) then v.getLsbD (b - 8 * a) else imageBit m b := by
  unfold imageBit
  rw [read_memWrite]
  by_cases h : 8 * a ≤ b ∧ b < 8 * (a + n)
  · rw [if_pos (by omega), if_pos h, BitVec.getLsbD_setWidth, BitVec.getLsbD_ushiftRight]
    have : b % 8 < 8 := Nat.mod_lt _ (by omega)
    simp only [this, decide_true, Bool.true_and]
    congr 1; omega
  · rw [if_neg (by omega), if_neg h]

theorem leValue_getLsbD (bs : List Byte) (k : Nat) (hk : k < 32) :
    (leValue bs).getLsbD k = (bs.getD (k / 8) 0).getLsbD (k % 8) := by
  induction bs generalizing k with
  | nil => simp [leValue]
  | cons b r ih =>
    simp only [leValue, BitVec.getLsbD_or, BitVec.getLsbD_setWidth, BitVec.getLsbD_shiftLeft, hk, decide_true,
      Bool.true_and]
    by_cases h : k < 8
    · have h0 : k / 8 = 0 := by omega
      have h1 : k % 8 = k := by omega
      simp [h, h0, h1]
    · have h0 : k / 8 = (k - 8) / 8 + 1 := by omega
      have h1 : k % 8 = (k - 8) % 8 := by omega
      rw [ih (k - 8) (by omega), h0, h1, List.getD_cons_succ]
      simp [h, BitVec.getLsbD_of_ge b k (by omega)]

/-- The bits of a multi-byte read of at most four bytes. -/
theorem memRead_getLsbD (m : Memory) (a n k : Nat) (hk : k < 32) :
    (memRead m a n).getLsbD k = (decide (k < 8 * n) && imageBit m (8 * a + k)) := by
  unfold memRead imageBit
  rw [leValue_getLsbD _ _ hk]
  by_cases h : k < 8 * n
  · rw [Cells.readList_getD _ _ _ _ (by omega)]
    have h0 : (8 * a + k) / 8 = a + k / 8 := by omega
    have h1 : (8 * a + k) % 8 = k % 8 := by omega
    simp [h, h0, h1]
  · rw [List.getD_eq_default _ _ (by rw [Cells.readList_length]; omega)]
    simp [h]

/-- A multi-byte read sees only the bytes it reads. -/
theorem memRead_congr (m m' : Memory) (a n : Nat) (h : ∀ i < n, Cells.read m (a + i) = Cells.read m' (a + i)) :
    memRead m a n = memRead m' a n := by
  unfold memRead; rw [Cells.readList_congr m m' a n h]

theorem ones_getLsbD (n k : Nat) (hk : k < 32) : (((1 : Word) <<< n) - 1).getLsbD k = decide (k < n) := by
  by_cases h : n < 32
  · have hlt : 2 ^ n < 2 ^ 32 := Nat.pow_lt_pow_right (by omega) h
    have : ((1 : Word) <<< n) - 1 = BitVec.ofNat 32 (2 ^ n - 1) := by
      apply BitVec.eq_of_toNat_eq
      have hp : 0 < 2 ^ n := Nat.pos_of_ne_zero (by positivity)
      have h1 : (1 : Word).toNat = 1 := rfl
      simp only [BitVec.toNat_sub, BitVec.toNat_shiftLeft, BitVec.toNat_ofNat, Nat.shiftLeft_eq, h1]
      omega
    rw [this, BitVec.getLsbD_ofNat]
    simp [hk, Nat.testBit_two_pow_sub_one]
  · have : ((1 : Word) <<< n) = 0 := by
      apply BitVec.eq_of_toNat_eq
      have h1 : (1 : Word).toNat = 1 := rfl
      have h0 : (0 : Word).toNat = 0 := rfl
      obtain ⟨j, rfl⟩ := Nat.exists_eq_add_of_le (Nat.le_of_not_lt h)
      simp only [BitVec.toNat_shiftLeft, Nat.shiftLeft_eq, Nat.pow_add, h0, h1]
      omega
    rw [this]
    have e : (0 : Word) - 1 = BitVec.allOnes 32 := by decide
    rw [e, BitVec.getLsbD_allOnes]
    simp [hk]; omega

/-- The bits of an entry's mask. -/
theorem entryMask_getLsbD (e : Entry) (k : Nat) (hk : k < 32) :
    (entryMask e).getLsbD k = (decide (e.sh ≤ k) && decide (k < e.sh + e.nb)) := by
  unfold entryMask
  rw [BitVec.getLsbD_shiftLeft]
  by_cases h : k < e.sh
  · simp [h]
  · rw [ones_getLsbD _ _ (by omega)]
    have h1 : e.sh ≤ k := by omega
    have h2 : (k - e.sh < e.nb) ↔ (k < e.sh + e.nb) := by omega
    simp [hk, h, h1, h2]

/-- An entry whose bit range lies inside a unit of at most four bytes (R221, items 3 and 4). -/
def EntryFits (e : Entry) : Prop := e.w ≤ 4 ∧ e.sh + e.nb ≤ 8 * e.w

/-- Everything the masked write of an entry does: the entry's own bits take the value's, every other bit of the image
stays. -/
theorem imageBit_writeEntry (m : Memory) (e : Entry) (v : Word) (h : EntryFits e) (b : Nat) :
    imageBit (writeEntry m e v) b
      = if (entryBits e).1 ≤ b ∧ b < (entryBits e).2 then v.getLsbD (b - (entryBits e).1) else imageBit m b := by
  obtain ⟨hw, hs⟩ := h
  unfold writeEntry
  rw [imageBit_memWrite]
  have e1 : (entryBits e).1 = 8 * e.off + e.sh := rfl
  have e2 : (entryBits e).2 = 8 * e.off + e.sh + e.nb := rfl
  by_cases hu : 8 * e.off ≤ b ∧ b < 8 * (e.off + e.w)
  · rw [if_pos hu]
    have hk : b - 8 * e.off < 32 := by omega
    rw [BitVec.getLsbD_or, BitVec.getLsbD_and, BitVec.getLsbD_and, BitVec.getLsbD_not, entryMask_getLsbD _ _ hk,
      memRead_getLsbD _ _ _ _ hk, BitVec.getLsbD_shiftLeft]
    have hb : 8 * e.off + (b - 8 * e.off) = b := by omega
    have hin : b - 8 * e.off < 8 * e.w := by omega
    by_cases hr : (entryBits e).1 ≤ b ∧ b < (entryBits e).2
    · rw [if_pos hr]
      have h1 : e.sh ≤ b - 8 * e.off := by omega
      have h2 : b - 8 * e.off < e.sh + e.nb := by omega
      have h3 : ¬ b - 8 * e.off < e.sh := by omega
      have h4 : b - 8 * e.off - e.sh = b - (entryBits e).1 := by omega
      simp [hk, h1, h2, h3, h4]
    · rw [if_neg hr]
      have h1 : (decide (e.sh ≤ b - 8 * e.off) && decide (b - 8 * e.off < e.sh + e.nb)) = false := by
        rw [Bool.and_eq_false_iff, decide_eq_false_iff_not, decide_eq_false_iff_not]; omega
      simp [hk, h1, hb, hin]
  · rw [if_neg hu, if_neg (by omega)]

/-- The masked write of an entry keeps the canonical form. -/
theorem Memory.wf_writeEntry (m : Memory) (e : Entry) (v : Word) (hm : Memory.wf m = true) :
    Memory.wf (writeEntry m e v) = true := Memory.wf_memWrite m _ _ _ hm

/-- The masked write of an entry inside the bound keeps the bound. -/
theorem within_writeEntry (m : Memory) (e : Entry) (v : Word) (n : Nat) (he : e.off + e.w ≤ n)
    (hm : Cells.within m n = true) : Cells.within (writeEntry m e v) n = true :=
  Cells.within_writeList m n _ _ (by rw [leBytes_length]; exact he) hm

/-- A byte is determined by its eight bits. -/
theorem read_eq_of_imageBit (m m' : Memory) (a : Nat) (h : ∀ k < 8, imageBit m (8 * a + k) = imageBit m' (8 * a + k)) :
    Cells.read m a = Cells.read m' a := by
  apply BitVec.eq_of_getLsbD_eq
  intro k hk
  have := h k hk
  unfold imageBit at this
  rwa [show (8 * a + k) / 8 = a by omega, show (8 * a + k) % 8 = k by omega] at this

end Sys2Proof.Machine
end

