-- ==== Sys2Proof/Laws/State.lean ====
section
/-! SUPPORT. One lemma per field per update of the state, each true by rfl, so that no proof unfolds an update. -/

namespace Sys2Proof.Machine

variable (s : State) (r : Regs)

@[simp] theorem withRegs_cfg : (s.withRegs r).cfg = s.cfg := rfl
@[simp] theorem withRegs_regs : (s.withRegs r).regs = r := rfl
@[simp] theorem withRegs_requests : (s.withRegs r).requests = s.requests := rfl
@[simp] theorem withRegs_response : (s.withRegs r).response = s.response := rfl
@[simp] theorem withRegs_withRegs (q : Regs) : (s.withRegs r).withRegs q = s.withRegs q := rfl
@[simp] theorem withRegs_self : s.withRegs s.regs = s := rfl
@[simp] theorem acceptRequest_cfg (l : List Request) : (acceptRequest s l).cfg = s.cfg := rfl
@[simp] theorem acceptRequest_regs (l : List Request) : (acceptRequest s l).regs = s.regs := rfl
@[simp] theorem acceptRequest_requests (l : List Request) : (acceptRequest s l).requests = l := rfl
@[simp] theorem acceptRequest_response (l : List Request) : (acceptRequest s l).response = s.response := rfl

/-! `clearSeq` -/

@[simp] theorem clearSeq_result : (clearSeq r).result = r.result := rfl
@[simp] theorem clearSeq_seqSlot : (clearSeq r).seqSlot = Vector.replicate 8 0x0000 := rfl
@[simp] theorem clearSeq_seqK : (clearSeq r).seqK = 0 := rfl
@[simp] theorem clearSeq_seqErr : (clearSeq r).seqErr = 0 := rfl
@[simp] theorem clearSeq_lutTab : (clearSeq r).lutTab = r.lutTab := rfl
@[simp] theorem clearSeq_lutErr : (clearSeq r).lutErr = r.lutErr := rfl
@[simp] theorem clearSeq_pf : (clearSeq r).pf = r.pf := rfl
@[simp] theorem clearSeq_pfSclkSet : (clearSeq r).pfSclkSet = r.pfSclkSet := rfl
@[simp] theorem clearSeq_pcbLut : (clearSeq r).pcbLut = r.pcbLut := rfl
@[simp] theorem clearSeq_pcbLutSet : (clearSeq r).pcbLutSet = r.pcbLutSet := rfl
@[simp] theorem clearSeq_pcbErr : (clearSeq r).pcbErr = r.pcbErr := rfl
@[simp] theorem clearSeq_pimg : (clearSeq r).pimg = r.pimg := rfl
@[simp] theorem clearSeq_pcbValid : (clearSeq r).pcbValid = r.pcbValid := rfl
@[simp] theorem clearSeq_fwrap : (clearSeq r).fwrap = r.fwrap := rfl
@[simp] theorem clearSeq_ftbWrapped : (clearSeq r).ftbWrapped = r.ftbWrapped := rfl
@[simp] theorem clearSeq_tf : (clearSeq r).tf = r.tf := rfl
@[simp] theorem clearSeq_tfSet : (clearSeq r).tfSet = r.tfSet := rfl
@[simp] theorem clearSeq_ftbErr : (clearSeq r).ftbErr = r.ftbErr := rfl
@[simp] theorem clearSeq_out : (clearSeq r).out = r.out := rfl
@[simp] theorem clearSeq_outValid : (clearSeq r).outValid = r.outValid := rfl

/-! `pushSeq` -/

@[simp] theorem pushSeq_result (i : Half) : (pushSeq i r).result = r.result := rfl
@[simp] theorem pushSeq_seqSlot (i : Half) : (pushSeq i r).seqSlot = r.seqSlot.setIfInBounds r.seqK.toNat i := rfl
@[simp] theorem pushSeq_seqK (i : Half) : (pushSeq i r).seqK = r.seqK + 1 := rfl
@[simp] theorem pushSeq_seqErr (i : Half) : (pushSeq i r).seqErr = r.seqErr := rfl
@[simp] theorem pushSeq_lutTab (i : Half) : (pushSeq i r).lutTab = r.lutTab := rfl
@[simp] theorem pushSeq_lutErr (i : Half) : (pushSeq i r).lutErr = r.lutErr := rfl
@[simp] theorem pushSeq_pf (i : Half) : (pushSeq i r).pf = r.pf := rfl
@[simp] theorem pushSeq_pfSclkSet (i : Half) : (pushSeq i r).pfSclkSet = r.pfSclkSet := rfl
@[simp] theorem pushSeq_pcbLut (i : Half) : (pushSeq i r).pcbLut = r.pcbLut := rfl
@[simp] theorem pushSeq_pcbLutSet (i : Half) : (pushSeq i r).pcbLutSet = r.pcbLutSet := rfl
@[simp] theorem pushSeq_pcbErr (i : Half) : (pushSeq i r).pcbErr = r.pcbErr := rfl
@[simp] theorem pushSeq_pimg (i : Half) : (pushSeq i r).pimg = r.pimg := rfl
@[simp] theorem pushSeq_pcbValid (i : Half) : (pushSeq i r).pcbValid = r.pcbValid := rfl
@[simp] theorem pushSeq_fwrap (i : Half) : (pushSeq i r).fwrap = r.fwrap := rfl
@[simp] theorem pushSeq_ftbWrapped (i : Half) : (pushSeq i r).ftbWrapped = r.ftbWrapped := rfl
@[simp] theorem pushSeq_tf (i : Half) : (pushSeq i r).tf = r.tf := rfl
@[simp] theorem pushSeq_tfSet (i : Half) : (pushSeq i r).tfSet = r.tfSet := rfl
@[simp] theorem pushSeq_ftbErr (i : Half) : (pushSeq i r).ftbErr = r.ftbErr := rfl
@[simp] theorem pushSeq_out (i : Half) : (pushSeq i r).out = r.out := rfl
@[simp] theorem pushSeq_outValid (i : Half) : (pushSeq i r).outValid = r.outValid := rfl

/-! `clearLut` -/

@[simp] theorem clearLut_result : (clearLut r).result = r.result := rfl
@[simp] theorem clearLut_seqSlot : (clearLut r).seqSlot = r.seqSlot := rfl
@[simp] theorem clearLut_seqK : (clearLut r).seqK = r.seqK := rfl
@[simp] theorem clearLut_seqErr : (clearLut r).seqErr = r.seqErr := rfl
@[simp] theorem clearLut_lutTab : (clearLut r).lutTab = [] := rfl
@[simp] theorem clearLut_lutErr : (clearLut r).lutErr = 0 := rfl
@[simp] theorem clearLut_pf : (clearLut r).pf = r.pf := rfl
@[simp] theorem clearLut_pfSclkSet : (clearLut r).pfSclkSet = r.pfSclkSet := rfl
@[simp] theorem clearLut_pcbLut : (clearLut r).pcbLut = r.pcbLut := rfl
@[simp] theorem clearLut_pcbLutSet : (clearLut r).pcbLutSet = r.pcbLutSet := rfl
@[simp] theorem clearLut_pcbErr : (clearLut r).pcbErr = r.pcbErr := rfl
@[simp] theorem clearLut_pimg : (clearLut r).pimg = r.pimg := rfl
@[simp] theorem clearLut_pcbValid : (clearLut r).pcbValid = r.pcbValid := rfl
@[simp] theorem clearLut_fwrap : (clearLut r).fwrap = r.fwrap := rfl
@[simp] theorem clearLut_ftbWrapped : (clearLut r).ftbWrapped = r.ftbWrapped := rfl
@[simp] theorem clearLut_tf : (clearLut r).tf = r.tf := rfl
@[simp] theorem clearLut_tfSet : (clearLut r).tfSet = r.tfSet := rfl
@[simp] theorem clearLut_ftbErr : (clearLut r).ftbErr = r.ftbErr := rfl
@[simp] theorem clearLut_out : (clearLut r).out = r.out := rfl
@[simp] theorem clearLut_outValid : (clearLut r).outValid = r.outValid := rfl

/-! `mapSequence` -/

@[simp] theorem mapSequence_result (i : Nat) : (mapSequence i r).result = r.result := rfl
@[simp] theorem mapSequence_seqSlot (i : Nat) : (mapSequence i r).seqSlot = r.seqSlot := rfl
@[simp] theorem mapSequence_seqK (i : Nat) : (mapSequence i r).seqK = r.seqK := rfl
@[simp] theorem mapSequence_seqErr (i : Nat) : (mapSequence i r).seqErr = r.seqErr := rfl
@[simp] theorem mapSequence_lutTab (i : Nat) : (mapSequence i r).lutTab = Cells.writeList r.lutTab (lutIndex i 0) r.seqSlot.toList := rfl
@[simp] theorem mapSequence_lutErr (i : Nat) : (mapSequence i r).lutErr = r.lutErr := rfl
@[simp] theorem mapSequence_pf (i : Nat) : (mapSequence i r).pf = r.pf := rfl
@[simp] theorem mapSequence_pfSclkSet (i : Nat) : (mapSequence i r).pfSclkSet = r.pfSclkSet := rfl
@[simp] theorem mapSequence_pcbLut (i : Nat) : (mapSequence i r).pcbLut = r.pcbLut := rfl
@[simp] theorem mapSequence_pcbLutSet (i : Nat) : (mapSequence i r).pcbLutSet = r.pcbLutSet := rfl
@[simp] theorem mapSequence_pcbErr (i : Nat) : (mapSequence i r).pcbErr = r.pcbErr := rfl
@[simp] theorem mapSequence_pimg (i : Nat) : (mapSequence i r).pimg = r.pimg := rfl
@[simp] theorem mapSequence_pcbValid (i : Nat) : (mapSequence i r).pcbValid = r.pcbValid := rfl
@[simp] theorem mapSequence_fwrap (i : Nat) : (mapSequence i r).fwrap = r.fwrap := rfl
@[simp] theorem mapSequence_ftbWrapped (i : Nat) : (mapSequence i r).ftbWrapped = r.ftbWrapped := rfl
@[simp] theorem mapSequence_tf (i : Nat) : (mapSequence i r).tf = r.tf := rfl
@[simp] theorem mapSequence_tfSet (i : Nat) : (mapSequence i r).tfSet = r.tfSet := rfl
@[simp] theorem mapSequence_ftbErr (i : Nat) : (mapSequence i r).ftbErr = r.ftbErr := rfl
@[simp] theorem mapSequence_out (i : Nat) : (mapSequence i r).out = r.out := rfl
@[simp] theorem mapSequence_outValid (i : Nat) : (mapSequence i r).outValid = r.outValid := rfl

/-! `invalidatePcb` -/

@[simp] theorem invalidatePcb_result : (invalidatePcb r).result = r.result := rfl
@[simp] theorem invalidatePcb_seqSlot : (invalidatePcb r).seqSlot = r.seqSlot := rfl
@[simp] theorem invalidatePcb_seqK : (invalidatePcb r).seqK = r.seqK := rfl
@[simp] theorem invalidatePcb_seqErr : (invalidatePcb r).seqErr = r.seqErr := rfl
@[simp] theorem invalidatePcb_lutTab : (invalidatePcb r).lutTab = r.lutTab := rfl
@[simp] theorem invalidatePcb_lutErr : (invalidatePcb r).lutErr = r.lutErr := rfl
@[simp] theorem invalidatePcb_pf : (invalidatePcb r).pf = r.pf := rfl
@[simp] theorem invalidatePcb_pfSclkSet : (invalidatePcb r).pfSclkSet = r.pfSclkSet := rfl
@[simp] theorem invalidatePcb_pcbLut : (invalidatePcb r).pcbLut = r.pcbLut := rfl
@[simp] theorem invalidatePcb_pcbLutSet : (invalidatePcb r).pcbLutSet = r.pcbLutSet := rfl
@[simp] theorem invalidatePcb_pcbErr : (invalidatePcb r).pcbErr = r.pcbErr := rfl
@[simp] theorem invalidatePcb_pimg : (invalidatePcb r).pimg = [] := rfl
@[simp] theorem invalidatePcb_pcbValid : (invalidatePcb r).pcbValid = false := rfl
@[simp] theorem invalidatePcb_fwrap : (invalidatePcb r).fwrap = r.fwrap := rfl
@[simp] theorem invalidatePcb_ftbWrapped : (invalidatePcb r).ftbWrapped = r.ftbWrapped := rfl
@[simp] theorem invalidatePcb_tf : (invalidatePcb r).tf = r.tf := rfl
@[simp] theorem invalidatePcb_tfSet : (invalidatePcb r).tfSet = r.tfSet := rfl
@[simp] theorem invalidatePcb_ftbErr : (invalidatePcb r).ftbErr = r.ftbErr := rfl
@[simp] theorem invalidatePcb_out : (invalidatePcb r).out = r.out := rfl
@[simp] theorem invalidatePcb_outValid : (invalidatePcb r).outValid = r.outValid := rfl

/-! `clearPcb` -/

@[simp] theorem clearPcb_result : (clearPcb r).result = r.result := rfl
@[simp] theorem clearPcb_seqSlot : (clearPcb r).seqSlot = r.seqSlot := rfl
@[simp] theorem clearPcb_seqK : (clearPcb r).seqK = r.seqK := rfl
@[simp] theorem clearPcb_seqErr : (clearPcb r).seqErr = r.seqErr := rfl
@[simp] theorem clearPcb_lutTab : (clearPcb r).lutTab = r.lutTab := rfl
@[simp] theorem clearPcb_lutErr : (clearPcb r).lutErr = r.lutErr := rfl
@[simp] theorem clearPcb_pf : (clearPcb r).pf = pcbFieldsReset := rfl
@[simp] theorem clearPcb_pfSclkSet : (clearPcb r).pfSclkSet = false := rfl
@[simp] theorem clearPcb_pcbLut : (clearPcb r).pcbLut = [] := rfl
@[simp] theorem clearPcb_pcbLutSet : (clearPcb r).pcbLutSet = false := rfl
@[simp] theorem clearPcb_pcbErr : (clearPcb r).pcbErr = 0 := rfl
@[simp] theorem clearPcb_pimg : (clearPcb r).pimg = [] := rfl
@[simp] theorem clearPcb_pcbValid : (clearPcb r).pcbValid = false := rfl
@[simp] theorem clearPcb_fwrap : (clearPcb r).fwrap = r.fwrap := rfl
@[simp] theorem clearPcb_ftbWrapped : (clearPcb r).ftbWrapped = r.ftbWrapped := rfl
@[simp] theorem clearPcb_tf : (clearPcb r).tf = r.tf := rfl
@[simp] theorem clearPcb_tfSet : (clearPcb r).tfSet = r.tfSet := rfl
@[simp] theorem clearPcb_ftbErr : (clearPcb r).ftbErr = r.ftbErr := rfl
@[simp] theorem clearPcb_out : (clearPcb r).out = r.out := rfl
@[simp] theorem clearPcb_outValid : (clearPcb r).outValid = r.outValid := rfl

/-! `storeField` -/

@[simp] theorem storeField_result (f : PcbField) (e : Word) : (storeField f e r).result = r.result := rfl
@[simp] theorem storeField_seqSlot (f : PcbField) (e : Word) : (storeField f e r).seqSlot = r.seqSlot := rfl
@[simp] theorem storeField_seqK (f : PcbField) (e : Word) : (storeField f e r).seqK = r.seqK := rfl
@[simp] theorem storeField_seqErr (f : PcbField) (e : Word) : (storeField f e r).seqErr = r.seqErr := rfl
@[simp] theorem storeField_lutTab (f : PcbField) (e : Word) : (storeField f e r).lutTab = r.lutTab := rfl
@[simp] theorem storeField_lutErr (f : PcbField) (e : Word) : (storeField f e r).lutErr = r.lutErr := rfl
@[simp] theorem storeField_pf (f : PcbField) (e : Word) : (storeField f e r).pf = setField r.pf f e := rfl
@[simp] theorem storeField_pfSclkSet (f : PcbField) (e : Word) : (storeField f e r).pfSclkSet = (r.pfSclkSet || f == .serialClkFreq) := rfl
@[simp] theorem storeField_pcbLut (f : PcbField) (e : Word) : (storeField f e r).pcbLut = r.pcbLut := rfl
@[simp] theorem storeField_pcbLutSet (f : PcbField) (e : Word) : (storeField f e r).pcbLutSet = r.pcbLutSet := rfl
@[simp] theorem storeField_pcbErr (f : PcbField) (e : Word) : (storeField f e r).pcbErr = r.pcbErr := rfl
@[simp] theorem storeField_pimg (f : PcbField) (e : Word) : (storeField f e r).pimg = r.pimg := rfl
@[simp] theorem storeField_pcbValid (f : PcbField) (e : Word) : (storeField f e r).pcbValid = r.pcbValid := rfl
@[simp] theorem storeField_fwrap (f : PcbField) (e : Word) : (storeField f e r).fwrap = r.fwrap := rfl
@[simp] theorem storeField_ftbWrapped (f : PcbField) (e : Word) : (storeField f e r).ftbWrapped = r.ftbWrapped := rfl
@[simp] theorem storeField_tf (f : PcbField) (e : Word) : (storeField f e r).tf = r.tf := rfl
@[simp] theorem storeField_tfSet (f : PcbField) (e : Word) : (storeField f e r).tfSet = r.tfSet := rfl
@[simp] theorem storeField_ftbErr (f : PcbField) (e : Word) : (storeField f e r).ftbErr = r.ftbErr := rfl
@[simp] theorem storeField_out (f : PcbField) (e : Word) : (storeField f e r).out = r.out := rfl
@[simp] theorem storeField_outValid (f : PcbField) (e : Word) : (storeField f e r).outValid = r.outValid := rfl

/-! `loadLut` -/

@[simp] theorem loadLut_result (c : Config) : (loadLut c r).result = r.result := rfl
@[simp] theorem loadLut_seqSlot (c : Config) : (loadLut c r).seqSlot = r.seqSlot := rfl
@[simp] theorem loadLut_seqK (c : Config) : (loadLut c r).seqK = r.seqK := rfl
@[simp] theorem loadLut_seqErr (c : Config) : (loadLut c r).seqErr = r.seqErr := rfl
@[simp] theorem loadLut_lutTab (c : Config) : (loadLut c r).lutTab = r.lutTab := rfl
@[simp] theorem loadLut_lutErr (c : Config) : (loadLut c r).lutErr = r.lutErr := rfl
@[simp] theorem loadLut_pf (c : Config) : (loadLut c r).pf = r.pf := rfl
@[simp] theorem loadLut_pfSclkSet (c : Config) : (loadLut c r).pfSclkSet = r.pfSclkSet := rfl
@[simp] theorem loadLut_pcbLut (c : Config) : (loadLut c r).pcbLut = tabulate (lutSer r.lutTab) (lutBytes c) := rfl
@[simp] theorem loadLut_pcbLutSet (c : Config) : (loadLut c r).pcbLutSet = true := rfl
@[simp] theorem loadLut_pcbErr (c : Config) : (loadLut c r).pcbErr = r.pcbErr := rfl
@[simp] theorem loadLut_pimg (c : Config) : (loadLut c r).pimg = r.pimg := rfl
@[simp] theorem loadLut_pcbValid (c : Config) : (loadLut c r).pcbValid = r.pcbValid := rfl
@[simp] theorem loadLut_fwrap (c : Config) : (loadLut c r).fwrap = r.fwrap := rfl
@[simp] theorem loadLut_ftbWrapped (c : Config) : (loadLut c r).ftbWrapped = r.ftbWrapped := rfl
@[simp] theorem loadLut_tf (c : Config) : (loadLut c r).tf = r.tf := rfl
@[simp] theorem loadLut_tfSet (c : Config) : (loadLut c r).tfSet = r.tfSet := rfl
@[simp] theorem loadLut_ftbErr (c : Config) : (loadLut c r).ftbErr = r.ftbErr := rfl
@[simp] theorem loadLut_out (c : Config) : (loadLut c r).out = r.out := rfl
@[simp] theorem loadLut_outValid (c : Config) : (loadLut c r).outValid = r.outValid := rfl

/-! `finishPcb` -/

@[simp] theorem finishPcb_result (c : Config) : (finishPcb c r).result = r.result := rfl
@[simp] theorem finishPcb_seqSlot (c : Config) : (finishPcb c r).seqSlot = r.seqSlot := rfl
@[simp] theorem finishPcb_seqK (c : Config) : (finishPcb c r).seqK = r.seqK := rfl
@[simp] theorem finishPcb_seqErr (c : Config) : (finishPcb c r).seqErr = r.seqErr := rfl
@[simp] theorem finishPcb_lutTab (c : Config) : (finishPcb c r).lutTab = r.lutTab := rfl
@[simp] theorem finishPcb_lutErr (c : Config) : (finishPcb c r).lutErr = r.lutErr := rfl
@[simp] theorem finishPcb_pf (c : Config) : (finishPcb c r).pf = r.pf := rfl
@[simp] theorem finishPcb_pfSclkSet (c : Config) : (finishPcb c r).pfSclkSet = r.pfSclkSet := rfl
@[simp] theorem finishPcb_pcbLut (c : Config) : (finishPcb c r).pcbLut = r.pcbLut := rfl
@[simp] theorem finishPcb_pcbLutSet (c : Config) : (finishPcb c r).pcbLutSet = r.pcbLutSet := rfl
@[simp] theorem finishPcb_pcbErr (c : Config) : (finishPcb c r).pcbErr = r.pcbErr := rfl
@[simp] theorem finishPcb_pimg (c : Config) : (finishPcb c r).pimg = buildPcb c r.pf r.pcbLut := rfl
@[simp] theorem finishPcb_pcbValid (c : Config) : (finishPcb c r).pcbValid = true := rfl
@[simp] theorem finishPcb_fwrap (c : Config) : (finishPcb c r).fwrap = r.fwrap := rfl
@[simp] theorem finishPcb_ftbWrapped (c : Config) : (finishPcb c r).ftbWrapped = r.ftbWrapped := rfl
@[simp] theorem finishPcb_tf (c : Config) : (finishPcb c r).tf = r.tf := rfl
@[simp] theorem finishPcb_tfSet (c : Config) : (finishPcb c r).tfSet = r.tfSet := rfl
@[simp] theorem finishPcb_ftbErr (c : Config) : (finishPcb c r).ftbErr = r.ftbErr := rfl
@[simp] theorem finishPcb_out (c : Config) : (finishPcb c r).out = r.out := rfl
@[simp] theorem finishPcb_outValid (c : Config) : (finishPcb c r).outValid = r.outValid := rfl

/-! `invalidateOut` -/

@[simp] theorem invalidateOut_result : (invalidateOut r).result = r.result := rfl
@[simp] theorem invalidateOut_seqSlot : (invalidateOut r).seqSlot = r.seqSlot := rfl
@[simp] theorem invalidateOut_seqK : (invalidateOut r).seqK = r.seqK := rfl
@[simp] theorem invalidateOut_seqErr : (invalidateOut r).seqErr = r.seqErr := rfl
@[simp] theorem invalidateOut_lutTab : (invalidateOut r).lutTab = r.lutTab := rfl
@[simp] theorem invalidateOut_lutErr : (invalidateOut r).lutErr = r.lutErr := rfl
@[simp] theorem invalidateOut_pf : (invalidateOut r).pf = r.pf := rfl
@[simp] theorem invalidateOut_pfSclkSet : (invalidateOut r).pfSclkSet = r.pfSclkSet := rfl
@[simp] theorem invalidateOut_pcbLut : (invalidateOut r).pcbLut = r.pcbLut := rfl
@[simp] theorem invalidateOut_pcbLutSet : (invalidateOut r).pcbLutSet = r.pcbLutSet := rfl
@[simp] theorem invalidateOut_pcbErr : (invalidateOut r).pcbErr = r.pcbErr := rfl
@[simp] theorem invalidateOut_pimg : (invalidateOut r).pimg = r.pimg := rfl
@[simp] theorem invalidateOut_pcbValid : (invalidateOut r).pcbValid = r.pcbValid := rfl
@[simp] theorem invalidateOut_fwrap : (invalidateOut r).fwrap = r.fwrap := rfl
@[simp] theorem invalidateOut_ftbWrapped : (invalidateOut r).ftbWrapped = r.ftbWrapped := rfl
@[simp] theorem invalidateOut_tf : (invalidateOut r).tf = r.tf := rfl
@[simp] theorem invalidateOut_tfSet : (invalidateOut r).tfSet = r.tfSet := rfl
@[simp] theorem invalidateOut_ftbErr : (invalidateOut r).ftbErr = r.ftbErr := rfl
@[simp] theorem invalidateOut_out : (invalidateOut r).out = [] := rfl
@[simp] theorem invalidateOut_outValid : (invalidateOut r).outValid = false := rfl

/-! `clearFtb` -/

@[simp] theorem clearFtb_result : (clearFtb r).result = r.result := rfl
@[simp] theorem clearFtb_seqSlot : (clearFtb r).seqSlot = r.seqSlot := rfl
@[simp] theorem clearFtb_seqK : (clearFtb r).seqK = r.seqK := rfl
@[simp] theorem clearFtb_seqErr : (clearFtb r).seqErr = r.seqErr := rfl
@[simp] theorem clearFtb_lutTab : (clearFtb r).lutTab = r.lutTab := rfl
@[simp] theorem clearFtb_lutErr : (clearFtb r).lutErr = r.lutErr := rfl
@[simp] theorem clearFtb_pf : (clearFtb r).pf = r.pf := rfl
@[simp] theorem clearFtb_pfSclkSet : (clearFtb r).pfSclkSet = r.pfSclkSet := rfl
@[simp] theorem clearFtb_pcbLut : (clearFtb r).pcbLut = r.pcbLut := rfl
@[simp] theorem clearFtb_pcbLutSet : (clearFtb r).pcbLutSet = r.pcbLutSet := rfl
@[simp] theorem clearFtb_pcbErr : (clearFtb r).pcbErr = r.pcbErr := rfl
@[simp] theorem clearFtb_pimg : (clearFtb r).pimg = r.pimg := rfl
@[simp] theorem clearFtb_pcbValid : (clearFtb r).pcbValid = r.pcbValid := rfl
@[simp] theorem clearFtb_fwrap : (clearFtb r).fwrap = [] := rfl
@[simp] theorem clearFtb_ftbWrapped : (clearFtb r).ftbWrapped = false := rfl
@[simp] theorem clearFtb_tf : (clearFtb r).tf = trailerFieldsReset := rfl
@[simp] theorem clearFtb_tfSet : (clearFtb r).tfSet = 0 := rfl
@[simp] theorem clearFtb_ftbErr : (clearFtb r).ftbErr = 0 := rfl
@[simp] theorem clearFtb_out : (clearFtb r).out = [] := rfl
@[simp] theorem clearFtb_outValid : (clearFtb r).outValid = false := rfl

/-! `wrapPcb` -/

@[simp] theorem wrapPcb_result : (wrapPcb r).result = r.result := rfl
@[simp] theorem wrapPcb_seqSlot : (wrapPcb r).seqSlot = r.seqSlot := rfl
@[simp] theorem wrapPcb_seqK : (wrapPcb r).seqK = r.seqK := rfl
@[simp] theorem wrapPcb_seqErr : (wrapPcb r).seqErr = r.seqErr := rfl
@[simp] theorem wrapPcb_lutTab : (wrapPcb r).lutTab = r.lutTab := rfl
@[simp] theorem wrapPcb_lutErr : (wrapPcb r).lutErr = r.lutErr := rfl
@[simp] theorem wrapPcb_pf : (wrapPcb r).pf = r.pf := rfl
@[simp] theorem wrapPcb_pfSclkSet : (wrapPcb r).pfSclkSet = r.pfSclkSet := rfl
@[simp] theorem wrapPcb_pcbLut : (wrapPcb r).pcbLut = r.pcbLut := rfl
@[simp] theorem wrapPcb_pcbLutSet : (wrapPcb r).pcbLutSet = r.pcbLutSet := rfl
@[simp] theorem wrapPcb_pcbErr : (wrapPcb r).pcbErr = r.pcbErr := rfl
@[simp] theorem wrapPcb_pimg : (wrapPcb r).pimg = r.pimg := rfl
@[simp] theorem wrapPcb_pcbValid : (wrapPcb r).pcbValid = r.pcbValid := rfl
@[simp] theorem wrapPcb_fwrap : (wrapPcb r).fwrap = r.pimg := rfl
@[simp] theorem wrapPcb_ftbWrapped : (wrapPcb r).ftbWrapped = true := rfl
@[simp] theorem wrapPcb_tf : (wrapPcb r).tf = r.tf := rfl
@[simp] theorem wrapPcb_tfSet : (wrapPcb r).tfSet = r.tfSet := rfl
@[simp] theorem wrapPcb_ftbErr : (wrapPcb r).ftbErr = r.ftbErr := rfl
@[simp] theorem wrapPcb_out : (wrapPcb r).out = r.out := rfl
@[simp] theorem wrapPcb_outValid : (wrapPcb r).outValid = r.outValid := rfl

/-! `storeTrailer` -/

@[simp] theorem storeTrailer_result (t : FtbField) (e : Word) : (storeTrailer t e r).result = r.result := rfl
@[simp] theorem storeTrailer_seqSlot (t : FtbField) (e : Word) : (storeTrailer t e r).seqSlot = r.seqSlot := rfl
@[simp] theorem storeTrailer_seqK (t : FtbField) (e : Word) : (storeTrailer t e r).seqK = r.seqK := rfl
@[simp] theorem storeTrailer_seqErr (t : FtbField) (e : Word) : (storeTrailer t e r).seqErr = r.seqErr := rfl
@[simp] theorem storeTrailer_lutTab (t : FtbField) (e : Word) : (storeTrailer t e r).lutTab = r.lutTab := rfl
@[simp] theorem storeTrailer_lutErr (t : FtbField) (e : Word) : (storeTrailer t e r).lutErr = r.lutErr := rfl
@[simp] theorem storeTrailer_pf (t : FtbField) (e : Word) : (storeTrailer t e r).pf = r.pf := rfl
@[simp] theorem storeTrailer_pfSclkSet (t : FtbField) (e : Word) : (storeTrailer t e r).pfSclkSet = r.pfSclkSet := rfl
@[simp] theorem storeTrailer_pcbLut (t : FtbField) (e : Word) : (storeTrailer t e r).pcbLut = r.pcbLut := rfl
@[simp] theorem storeTrailer_pcbLutSet (t : FtbField) (e : Word) : (storeTrailer t e r).pcbLutSet = r.pcbLutSet := rfl
@[simp] theorem storeTrailer_pcbErr (t : FtbField) (e : Word) : (storeTrailer t e r).pcbErr = r.pcbErr := rfl
@[simp] theorem storeTrailer_pimg (t : FtbField) (e : Word) : (storeTrailer t e r).pimg = r.pimg := rfl
@[simp] theorem storeTrailer_pcbValid (t : FtbField) (e : Word) : (storeTrailer t e r).pcbValid = r.pcbValid := rfl
@[simp] theorem storeTrailer_fwrap (t : FtbField) (e : Word) : (storeTrailer t e r).fwrap = r.fwrap := rfl
@[simp] theorem storeTrailer_ftbWrapped (t : FtbField) (e : Word) : (storeTrailer t e r).ftbWrapped = r.ftbWrapped := rfl
@[simp] theorem storeTrailer_tf (t : FtbField) (e : Word) : (storeTrailer t e r).tf = setTrailer r.tf t e := rfl
@[simp] theorem storeTrailer_tfSet (t : FtbField) (e : Word) : (storeTrailer t e r).tfSet = setTrailerBit r.tfSet t := rfl
@[simp] theorem storeTrailer_ftbErr (t : FtbField) (e : Word) : (storeTrailer t e r).ftbErr = r.ftbErr := rfl
@[simp] theorem storeTrailer_out (t : FtbField) (e : Word) : (storeTrailer t e r).out = r.out := rfl
@[simp] theorem storeTrailer_outValid (t : FtbField) (e : Word) : (storeTrailer t e r).outValid = r.outValid := rfl

/-! `finishFtb` -/

@[simp] theorem finishFtb_result (c : Config) : (finishFtb c r).result = r.result := rfl
@[simp] theorem finishFtb_seqSlot (c : Config) : (finishFtb c r).seqSlot = r.seqSlot := rfl
@[simp] theorem finishFtb_seqK (c : Config) : (finishFtb c r).seqK = r.seqK := rfl
@[simp] theorem finishFtb_seqErr (c : Config) : (finishFtb c r).seqErr = r.seqErr := rfl
@[simp] theorem finishFtb_lutTab (c : Config) : (finishFtb c r).lutTab = r.lutTab := rfl
@[simp] theorem finishFtb_lutErr (c : Config) : (finishFtb c r).lutErr = r.lutErr := rfl
@[simp] theorem finishFtb_pf (c : Config) : (finishFtb c r).pf = r.pf := rfl
@[simp] theorem finishFtb_pfSclkSet (c : Config) : (finishFtb c r).pfSclkSet = r.pfSclkSet := rfl
@[simp] theorem finishFtb_pcbLut (c : Config) : (finishFtb c r).pcbLut = r.pcbLut := rfl
@[simp] theorem finishFtb_pcbLutSet (c : Config) : (finishFtb c r).pcbLutSet = r.pcbLutSet := rfl
@[simp] theorem finishFtb_pcbErr (c : Config) : (finishFtb c r).pcbErr = r.pcbErr := rfl
@[simp] theorem finishFtb_pimg (c : Config) : (finishFtb c r).pimg = r.pimg := rfl
@[simp] theorem finishFtb_pcbValid (c : Config) : (finishFtb c r).pcbValid = r.pcbValid := rfl
@[simp] theorem finishFtb_fwrap (c : Config) : (finishFtb c r).fwrap = r.fwrap := rfl
@[simp] theorem finishFtb_ftbWrapped (c : Config) : (finishFtb c r).ftbWrapped = r.ftbWrapped := rfl
@[simp] theorem finishFtb_tf (c : Config) : (finishFtb c r).tf = r.tf := rfl
@[simp] theorem finishFtb_tfSet (c : Config) : (finishFtb c r).tfSet = r.tfSet := rfl
@[simp] theorem finishFtb_ftbErr (c : Config) : (finishFtb c r).ftbErr = r.ftbErr := rfl
@[simp] theorem finishFtb_out (c : Config) : (finishFtb c r).out = buildFinal c r.fwrap r.tf := rfl
@[simp] theorem finishFtb_outValid (c : Config) : (finishFtb c r).outValid = true := rfl

/-! `setStageErr` -/

@[simp] theorem setStageErr_result (st : Stage) (c : Byte) : (setStageErr st c r).result = r.result := by
  cases st <;> rfl
@[simp] theorem setStageErr_seqSlot (st : Stage) (c : Byte) : (setStageErr st c r).seqSlot = r.seqSlot := by
  cases st <;> rfl
@[simp] theorem setStageErr_seqK (st : Stage) (c : Byte) : (setStageErr st c r).seqK = r.seqK := by
  cases st <;> rfl
@[simp] theorem setStageErr_lutTab (st : Stage) (c : Byte) : (setStageErr st c r).lutTab = r.lutTab := by
  cases st <;> rfl
@[simp] theorem setStageErr_pf (st : Stage) (c : Byte) : (setStageErr st c r).pf = r.pf := by
  cases st <;> rfl
@[simp] theorem setStageErr_pfSclkSet (st : Stage) (c : Byte) : (setStageErr st c r).pfSclkSet = r.pfSclkSet := by
  cases st <;> rfl
@[simp] theorem setStageErr_pcbLut (st : Stage) (c : Byte) : (setStageErr st c r).pcbLut = r.pcbLut := by
  cases st <;> rfl
@[simp] theorem setStageErr_pcbLutSet (st : Stage) (c : Byte) : (setStageErr st c r).pcbLutSet = r.pcbLutSet := by
  cases st <;> rfl
@[simp] theorem setStageErr_pimg (st : Stage) (c : Byte) : (setStageErr st c r).pimg = r.pimg := by
  cases st <;> rfl
@[simp] theorem setStageErr_pcbValid (st : Stage) (c : Byte) : (setStageErr st c r).pcbValid = r.pcbValid := by
  cases st <;> rfl
@[simp] theorem setStageErr_fwrap (st : Stage) (c : Byte) : (setStageErr st c r).fwrap = r.fwrap := by
  cases st <;> rfl
@[simp] theorem setStageErr_ftbWrapped (st : Stage) (c : Byte) : (setStageErr st c r).ftbWrapped = r.ftbWrapped := by
  cases st <;> rfl
@[simp] theorem setStageErr_tf (st : Stage) (c : Byte) : (setStageErr st c r).tf = r.tf := by
  cases st <;> rfl
@[simp] theorem setStageErr_tfSet (st : Stage) (c : Byte) : (setStageErr st c r).tfSet = r.tfSet := by
  cases st <;> rfl
@[simp] theorem setStageErr_out (st : Stage) (c : Byte) : (setStageErr st c r).out = r.out := by
  cases st <;> rfl
@[simp] theorem setStageErr_outValid (st : Stage) (c : Byte) : (setStageErr st c r).outValid = r.outValid := by
  cases st <;> rfl

@[simp] theorem stageErr_setStageErr_self (st : Stage) (c : Byte) : stageErr st (setStageErr st c r) = c := by
  cases st <;> rfl

/-! `recordErr` -/

@[simp] theorem recordErr_result (st : Stage) (c : Byte) : (recordErr st c r).result = r.result := by
  simp only [recordErr]; split <;> simp
@[simp] theorem recordErr_seqSlot (st : Stage) (c : Byte) : (recordErr st c r).seqSlot = r.seqSlot := by
  simp only [recordErr]; split <;> simp
@[simp] theorem recordErr_seqK (st : Stage) (c : Byte) : (recordErr st c r).seqK = r.seqK := by
  simp only [recordErr]; split <;> simp
@[simp] theorem recordErr_lutTab (st : Stage) (c : Byte) : (recordErr st c r).lutTab = r.lutTab := by
  simp only [recordErr]; split <;> simp
@[simp] theorem recordErr_pf (st : Stage) (c : Byte) : (recordErr st c r).pf = r.pf := by
  simp only [recordErr]; split <;> simp
@[simp] theorem recordErr_pfSclkSet (st : Stage) (c : Byte) : (recordErr st c r).pfSclkSet = r.pfSclkSet := by
  simp only [recordErr]; split <;> simp
@[simp] theorem recordErr_pcbLut (st : Stage) (c : Byte) : (recordErr st c r).pcbLut = r.pcbLut := by
  simp only [recordErr]; split <;> simp
@[simp] theorem recordErr_pcbLutSet (st : Stage) (c : Byte) : (recordErr st c r).pcbLutSet = r.pcbLutSet := by
  simp only [recordErr]; split <;> simp
@[simp] theorem recordErr_pimg (st : Stage) (c : Byte) : (recordErr st c r).pimg = r.pimg := by
  simp only [recordErr]; split <;> simp
@[simp] theorem recordErr_pcbValid (st : Stage) (c : Byte) : (recordErr st c r).pcbValid = r.pcbValid := by
  simp only [recordErr]; split <;> simp
@[simp] theorem recordErr_fwrap (st : Stage) (c : Byte) : (recordErr st c r).fwrap = r.fwrap := by
  simp only [recordErr]; split <;> simp
@[simp] theorem recordErr_ftbWrapped (st : Stage) (c : Byte) : (recordErr st c r).ftbWrapped = r.ftbWrapped := by
  simp only [recordErr]; split <;> simp
@[simp] theorem recordErr_tf (st : Stage) (c : Byte) : (recordErr st c r).tf = r.tf := by
  simp only [recordErr]; split <;> simp
@[simp] theorem recordErr_tfSet (st : Stage) (c : Byte) : (recordErr st c r).tfSet = r.tfSet := by
  simp only [recordErr]; split <;> simp
@[simp] theorem recordErr_out (st : Stage) (c : Byte) : (recordErr st c r).out = r.out := by
  simp only [recordErr]; split <;> simp
@[simp] theorem recordErr_outValid (st : Stage) (c : Byte) : (recordErr st c r).outValid = r.outValid := by
  simp only [recordErr]; split <;> simp

theorem stageErr_setStageErr_other (st st' : Stage) (c : Byte) (h : st' ≠ st) :
    stageErr st' (setStageErr st c r) = stageErr st' r := by
  cases st <;> cases st' <;> first | exact absurd rfl h | rfl

theorem recordErr_of_clear (st : Stage) (c : Byte) (h : stageErr st r = 0) :
    recordErr st c r = setStageErr st c r := if_pos h

theorem recordErr_of_failed (st : Stage) (c : Byte) (h : stageErr st r ≠ 0) : recordErr st c r = r := if_neg h

/-- Everything `fail` can leave in a sticky register: the first error wins, the other stages keep theirs. -/
theorem stageErr_recordErr (st st' : Stage) (c : Byte) :
    stageErr st' (recordErr st c r) = if st' = st ∧ stageErr st r = 0 then c else stageErr st' r := by
  by_cases h : stageErr st r = 0
  · rw [recordErr_of_clear r st c h]
    by_cases h' : st' = st
    · subst h'; rw [if_pos ⟨rfl, h⟩]; simp
    · rw [if_neg fun e => h' e.1, stageErr_setStageErr_other r st st' c h']
  · rw [recordErr_of_failed r st c h, if_neg fun h' => h h'.2]

end Sys2Proof.Machine
end

