-- ==== Sys2Proof/Laws/Meanings.lean ====
section
/-! SUPPORT. What each shared operation and each command can do, said once: the lemma `X_cases` lists every outcome of
`X` with the condition it has it under. Proofs cite these and unfold no meaning. -/

namespace Sys2Proof.Machine

/-! How a command ends. -/

theorem respond_eq (d : Word) (s : State) : respond d s = doneWith s s.regs d := rfl

theorem respond_withRegs (d : Word) (s : State) (r : Regs) : respond d (s.withRegs r) = doneWith s r d := rfl

theorem raiseCode_eq (c : Byte) (s : State) : raiseCode c s = failedWith s s.regs c := rfl

theorem raise_eq (e : ErrorKind) (s : State) : raise e s = failedWith s s.regs (errorCode e) := rfl

theorem failCode_eq (st : Stage) (c : Byte) (s : State) :
    failCode st c s = failedWith s (recordErr st c s.regs) c := rfl

theorem doneWith_withRegs (s : State) (q r : Regs) (d : Word) : doneWith (s.withRegs q) r d = doneWith s r d := rfl

theorem failedWith_withRegs (s : State) (q r : Regs) (c : Byte) : failedWith (s.withRegs q) r c = failedWith s r c :=
  rfl

/-- In a stage without an error, `fail` records the code. -/
theorem failCode_of_zero (st : Stage) (c : Byte) (s : State) (h : stageErr st s.regs = 0) :
    failCode st c s = failedWith s (setStageErr st c s.regs) c := by
  rw [failCode_eq, recordErr, if_pos h]

/-- In a stage without an error, `fail` records the code of its error kind. -/
theorem fail_of_zero (st : Stage) (e : ErrorKind) (s : State) (h : stageErr st s.regs = 0) :
    fail st e s = failedWith s (setStageErr st (errorCode e) s.regs) (errorCode e) := failCode_of_zero st _ s h

theorem errorCode_ne_zero (e : ErrorKind) : errorCode e ≠ 0 := by cases e <;> decide

/-! The instruction packer. -/

theorem packInto_cases (o p : Byte) (d : Word) (s : State) :
    (instrLegal s.cfg.family o p d = true
      ∧ packInto o p d s
          = doneWith s { s.regs with result := packInstr o p d } ((packInstr o p d).setWidth 32))
      ∨ instrLegal s.cfg.family o p d = false ∧ packInto o p d s = failedWith s s.regs 1 := by
  unfold packInto
  cases h : instrLegal s.cfg.family o p d
  · exact .inr ⟨rfl, rfl⟩
  · exact .inl ⟨rfl, rfl⟩

/-! The sequence assembler. -/

theorem execSeqPush_cases (o p : Byte) (d : Word) (s : State) :
    (s.regs.seqErr ≠ 0 ∧ execSeqPush o p d s = failedWith s s.regs s.regs.seqErr)
      ∨ (s.regs.seqErr = 0 ∧ s.regs.seqK = 8 ∧ execSeqPush o p d s = failedWith s { s.regs with seqErr := 2 } 2)
      ∨ (s.regs.seqErr = 0 ∧ s.regs.seqK ≠ 8 ∧ instrLegal s.cfg.family o p d = true
          ∧ execSeqPush o p d s
              = doneWith s (pushSeq (packInstr o p d) s.regs) ((s.regs.seqK + 1).setWidth 32))
      ∨ s.regs.seqErr = 0 ∧ s.regs.seqK ≠ 8 ∧ instrLegal s.cfg.family o p d = false
          ∧ execSeqPush o p d s = failedWith s { s.regs with seqErr := 1 } 1 := by
  by_cases h : s.regs.seqErr = 0
  · refine .inr ?_
    have e : execSeqPush o p d s = if s.regs.seqK = 8 then fail .seq .sequenceOverflow s
        else if instrLegal s.cfg.family o p d then
          respond ((s.regs.seqK + 1).setWidth 32) (s.withRegs (pushSeq (packInstr o p d) s.regs))
        else fail .seq .invalidFieldValue s := if_neg (not_not.mpr h)
    rw [e, fail_of_zero .seq _ s h, fail_of_zero .seq _ s h]
    by_cases h8 : s.regs.seqK = 8
    · exact .inl ⟨h, h8, if_pos h8⟩
    · refine .inr ?_
      rw [if_neg h8]
      cases hl : instrLegal s.cfg.family o p d
      · exact .inr ⟨h, h8, rfl, rfl⟩
      · exact .inl ⟨h, h8, rfl, rfl⟩
  · exact .inl ⟨h, if_pos h⟩

theorem execSeqRead_cases (f : Byte) (s : State) :
    (8 ≤ f.toNat ∧ execSeqRead f s = failedWith s s.regs 5)
      ∨ f.toNat < 8 ∧ execSeqRead f s = doneWith s s.regs ((seqRead s.regs f.toNat).setWidth 32) := by
  unfold execSeqRead
  by_cases h : 8 ≤ f.toNat
  · exact .inl ⟨h, if_pos h⟩
  · exact .inr ⟨by omega, if_neg h⟩

/-! The LUT serializer. -/

theorem execLutSet_cases (f : Byte) (s : State) :
    (s.regs.lutErr ≠ 0 ∧ execLutSet f s = failedWith s s.regs s.regs.lutErr)
      ∨ (s.regs.lutErr = 0 ∧ selectCommand s.cfg.layout f = none
          ∧ execLutSet f s = failedWith s { s.regs with lutErr := 1 } 1)
      ∨ ∃ c, s.regs.lutErr = 0 ∧ selectCommand s.cfg.layout f = some c
          ∧ ((s.regs.seqErr ≠ 0 ∧ execLutSet f s = failedWith s { s.regs with lutErr := s.regs.seqErr } s.regs.seqErr)
            ∨ (s.regs.seqErr = 0 ∧ s.cfg.layout.nseq ≤ (fixedIndex s.cfg.layout c).toNat
                ∧ execLutSet f s = failedWith s { s.regs with lutErr := 4 } 4)
            ∨ s.regs.seqErr = 0 ∧ (fixedIndex s.cfg.layout c).toNat < s.cfg.layout.nseq
                ∧ execLutSet f s
                    = doneWith s (mapSequence (fixedIndex s.cfg.layout c).toNat s.regs)
                        (fixedIndex s.cfg.layout c)) := by
  by_cases h : s.regs.lutErr = 0
  · refine .inr ?_
    have e : execLutSet f s = match selectCommand s.cfg.layout f with
      | none => fail .lut .invalidFieldValue s
      | some c => lutSetSlot (fixedIndex s.cfg.layout c) s := if_neg (not_not.mpr h)
    rw [e]
    cases hc : selectCommand s.cfg.layout f with
    | none => exact .inl ⟨h, rfl, fail_of_zero .lut _ s h⟩
    | some c =>
      refine .inr ⟨c, h, rfl, ?_⟩
      simp only
      unfold lutSetSlot
      by_cases hs : s.regs.seqErr = 0
      · refine .inr ?_
        rw [if_neg (not_not.mpr hs)]
        by_cases hn : s.cfg.layout.nseq ≤ (fixedIndex s.cfg.layout c).toNat
        · exact .inl ⟨hs, hn, (if_pos hn).trans (fail_of_zero .lut _ s h)⟩
        · exact .inr ⟨hs, by omega, if_neg hn⟩
      · exact .inl ⟨hs, (if_pos hs).trans (failCode_of_zero .lut _ s h)⟩
  · exact .inl ⟨h, if_pos h⟩

theorem execLutRead_cases (v : Word) (s : State) :
    (lutBytes s.cfg ≤ v.toNat ∧ execLutRead v s = failedWith s s.regs 5)
      ∨ v.toNat < lutBytes s.cfg
        ∧ execLutRead v s = doneWith s s.regs ((lutSer s.regs.lutTab v.toNat).setWidth 32) := by
  unfold execLutRead
  by_cases h : lutBytes s.cfg ≤ v.toNat
  · exact .inl ⟨h, if_pos h⟩
  · exact .inr ⟨by omega, if_neg h⟩

/-! The peripheral-block layout engine. -/

theorem pcbSetField_cases (f : PcbField) (v : Word) (s : State) :
    (s.regs.pcbErr ≠ 0 ∧ pcbSetField f v s = failedWith s s.regs s.regs.pcbErr)
      ∨ (s.regs.pcbErr = 0 ∧ (f ∉ s.cfg.family.fields ∨ fieldEncode s.cfg f v = none)
          ∧ pcbSetField f v s = failedWith s { s.regs with pcbErr := 1 } 1)
      ∨ ∃ e, s.regs.pcbErr = 0 ∧ f ∈ s.cfg.family.fields ∧ fieldEncode s.cfg f v = some e
          ∧ pcbSetField f v s = doneWith s (storeField f e s.regs) 0 := by
  unfold pcbSetField
  by_cases h : s.regs.pcbErr = 0
  · refine .inr ?_
    rw [if_neg (not_not.mpr h), fail_of_zero .pcb _ _ h]
    by_cases hm : f ∈ s.cfg.family.fields
    · rw [if_pos (by simpa using hm)]
      cases he : fieldEncode s.cfg f v with
      | none => exact .inl ⟨h, .inr rfl, rfl⟩
      | some e => exact .inr ⟨e, h, hm, rfl, rfl⟩
    · exact .inl ⟨h, .inl hm, if_neg (by simpa using hm)⟩
  · exact .inl ⟨h, if_pos h⟩

theorem execPcbSet_cases (b : Byte) (v : Word) (s : State) :
    (pcbFieldOf b = none ∧ execPcbSet b v s = failedWith s s.regs 5)
      ∨ ∃ f, pcbFieldOf b = some f
        ∧ ((s.regs.pcbErr ≠ 0 ∧ execPcbSet b v s = failedWith s (invalidatePcb s.regs) s.regs.pcbErr)
          ∨ (s.regs.pcbErr = 0 ∧ (f ∉ s.cfg.family.fields ∨ fieldEncode s.cfg f v = none)
              ∧ execPcbSet b v s = failedWith s { invalidatePcb s.regs with pcbErr := 1 } 1)
          ∨ ∃ e, s.regs.pcbErr = 0 ∧ f ∈ s.cfg.family.fields ∧ fieldEncode s.cfg f v = some e
              ∧ execPcbSet b v s = doneWith s (storeField f e (invalidatePcb s.regs)) 0) := by
  unfold execPcbSet
  cases hf : pcbFieldOf b with
  | none => exact .inl ⟨rfl, rfl⟩
  | some f => exact .inr ⟨f, rfl, pcbSetField_cases f v (s.withRegs (invalidatePcb s.regs))⟩

theorem pcbLoad_cases (s : State) :
    (s.regs.pcbErr ≠ 0 ∧ pcbLoad s = failedWith s s.regs s.regs.pcbErr)
      ∨ (s.regs.pcbErr = 0 ∧ s.regs.lutErr ≠ 0
          ∧ pcbLoad s = failedWith s { s.regs with pcbErr := s.regs.lutErr } s.regs.lutErr)
      ∨ s.regs.pcbErr = 0 ∧ s.regs.lutErr = 0 ∧ pcbLoad s = doneWith s (loadLut s.cfg s.regs) 0 := by
  unfold pcbLoad
  by_cases h : s.regs.pcbErr = 0
  · refine .inr ?_
    rw [if_neg (not_not.mpr h)]
    by_cases hl : s.regs.lutErr = 0
    · exact .inr ⟨h, hl, if_neg (not_not.mpr hl)⟩
    · exact .inl ⟨h, hl, (if_pos hl).trans (failCode_of_zero .pcb _ _ h)⟩
  · exact .inl ⟨h, if_pos h⟩

theorem execPcbLoadLut_cases (s : State) :
    (s.regs.pcbErr ≠ 0 ∧ execPcbLoadLut s = failedWith s (invalidatePcb s.regs) s.regs.pcbErr)
      ∨ (s.regs.pcbErr = 0 ∧ s.regs.lutErr ≠ 0
          ∧ execPcbLoadLut s = failedWith s { invalidatePcb s.regs with pcbErr := s.regs.lutErr } s.regs.lutErr)
      ∨ s.regs.pcbErr = 0 ∧ s.regs.lutErr = 0
          ∧ execPcbLoadLut s = doneWith s (loadLut s.cfg (invalidatePcb s.regs)) 0 :=
  pcbLoad_cases (s.withRegs (invalidatePcb s.regs))

theorem pcbFinish_cases (s : State) :
    (s.regs.pcbErr ≠ 0 ∧ pcbFinish s = failedWith s s.regs s.regs.pcbErr)
      ∨ (s.regs.pcbErr = 0 ∧ layoutWf s.cfg = false ∧ pcbFinish s = failedWith s s.regs 4)
      ∨ (s.regs.pcbErr = 0 ∧ layoutWf s.cfg = true
          ∧ (s.regs.pcbLutSet = false ∨ s.regs.pfSclkSet = false ∨ s.regs.pf.dmEn = 1 ∧ s.regs.pf.dmSeq = 0)
          ∧ pcbFinish s = failedWith s s.regs 3)
      ∨ s.regs.pcbErr = 0 ∧ layoutWf s.cfg = true ∧ s.regs.pcbLutSet = true ∧ s.regs.pfSclkSet = true
          ∧ ¬ (s.regs.pf.dmEn = 1 ∧ s.regs.pf.dmSeq = 0)
          ∧ pcbFinish s = doneWith s (finishPcb s.cfg s.regs) s.cfg.layout.pcbSize := by
  unfold pcbFinish
  by_cases h : s.regs.pcbErr = 0
  · refine .inr ?_
    rw [if_neg (not_not.mpr h)]
    cases hw : layoutWf s.cfg
    · exact .inl ⟨h, rfl, rfl⟩
    · refine .inr ?_
      rw [if_neg (by decide)]
      cases hl : s.regs.pcbLutSet
      · exact .inl ⟨h, rfl, .inl rfl, rfl⟩
      · rw [if_neg (by decide)]
        cases hs : s.regs.pfSclkSet
        · exact .inl ⟨h, rfl, .inr (.inl rfl), rfl⟩
        · rw [if_neg (by decide)]
          by_cases hd : s.regs.pf.dmEn = 1 ∧ s.regs.pf.dmSeq = 0
          · exact .inl ⟨h, rfl, .inr (.inr hd), if_pos hd⟩
          · exact .inr ⟨h, rfl, rfl, rfl, hd, if_neg hd⟩
  · exact .inl ⟨h, if_pos h⟩

theorem execPcbFinalize_cases (s : State) :
    (s.regs.pcbErr ≠ 0 ∧ execPcbFinalize s = failedWith s (invalidatePcb s.regs) s.regs.pcbErr)
      ∨ (s.regs.pcbErr = 0 ∧ layoutWf s.cfg = false ∧ execPcbFinalize s = failedWith s (invalidatePcb s.regs) 4)
      ∨ (s.regs.pcbErr = 0 ∧ layoutWf s.cfg = true
          ∧ (s.regs.pcbLutSet = false ∨ s.regs.pfSclkSet = false ∨ s.regs.pf.dmEn = 1 ∧ s.regs.pf.dmSeq = 0)
          ∧ execPcbFinalize s = failedWith s (invalidatePcb s.regs) 3)
      ∨ s.regs.pcbErr = 0 ∧ layoutWf s.cfg = true ∧ s.regs.pcbLutSet = true ∧ s.regs.pfSclkSet = true
          ∧ ¬ (s.regs.pf.dmEn = 1 ∧ s.regs.pf.dmSeq = 0)
          ∧ execPcbFinalize s = doneWith s (finishPcb s.cfg s.regs) s.cfg.layout.pcbSize :=
  pcbFinish_cases (s.withRegs (invalidatePcb s.regs))

theorem execPcbRead_cases (v : Word) (s : State) :
    (s.cfg.layout.pcbSize.toNat ≤ v.toNat ∧ execPcbRead v s = failedWith s s.regs 5)
      ∨ (v.toNat < s.cfg.layout.pcbSize.toNat ∧ s.regs.pcbValid = false
          ∧ execPcbRead v s = failedWith s s.regs 6)
      ∨ v.toNat < s.cfg.layout.pcbSize.toNat ∧ s.regs.pcbValid = true
          ∧ execPcbRead v s = doneWith s s.regs ((Cells.read s.regs.pimg v.toNat).setWidth 32) := by
  unfold execPcbRead
  by_cases h : s.cfg.layout.pcbSize.toNat ≤ v.toNat
  · exact .inl ⟨h, if_pos h⟩
  · refine .inr ?_
    rw [if_neg h]
    cases hv : s.regs.pcbValid
    · exact .inl ⟨by omega, rfl, rfl⟩
    · exact .inr ⟨by omega, rfl, rfl⟩

/-! The flash-type-block wrapper. -/

theorem ftbWrapImage_cases (s : State) :
    (s.regs.ftbErr ≠ 0 ∧ ftbWrapImage s = failedWith s s.regs s.regs.ftbErr)
      ∨ (s.regs.ftbErr = 0 ∧ s.regs.pcbErr ≠ 0
          ∧ ftbWrapImage s = failedWith s { s.regs with ftbErr := s.regs.pcbErr } s.regs.pcbErr)
      ∨ (s.regs.ftbErr = 0 ∧ s.regs.pcbErr = 0 ∧ s.regs.pcbValid = false
          ∧ ftbWrapImage s = failedWith s { s.regs with ftbErr := 3 } 3)
      ∨ s.regs.ftbErr = 0 ∧ s.regs.pcbErr = 0 ∧ s.regs.pcbValid = true
          ∧ ftbWrapImage s = doneWith s (wrapPcb s.regs) 0 := by
  unfold ftbWrapImage
  by_cases h : s.regs.ftbErr = 0
  · refine .inr ?_
    rw [if_neg (not_not.mpr h)]
    by_cases hp : s.regs.pcbErr = 0
    · refine .inr ?_
      rw [if_neg (not_not.mpr hp), fail_of_zero .ftb _ _ h]
      cases hv : s.regs.pcbValid
      · exact .inl ⟨h, hp, rfl, rfl⟩
      · exact .inr ⟨h, hp, rfl, rfl⟩
    · exact .inl ⟨h, hp, (if_pos hp).trans (failCode_of_zero .ftb _ _ h)⟩
  · exact .inl ⟨h, if_pos h⟩

theorem execFtbWrap_cases (s : State) :
    (s.regs.ftbErr ≠ 0 ∧ execFtbWrap s = failedWith s (invalidateOut s.regs) s.regs.ftbErr)
      ∨ (s.regs.ftbErr = 0 ∧ s.regs.pcbErr ≠ 0
          ∧ execFtbWrap s = failedWith s { invalidateOut s.regs with ftbErr := s.regs.pcbErr } s.regs.pcbErr)
      ∨ (s.regs.ftbErr = 0 ∧ s.regs.pcbErr = 0 ∧ s.regs.pcbValid = false
          ∧ execFtbWrap s = failedWith s { invalidateOut s.regs with ftbErr := 3 } 3)
      ∨ s.regs.ftbErr = 0 ∧ s.regs.pcbErr = 0 ∧ s.regs.pcbValid = true
          ∧ execFtbWrap s = doneWith s (wrapPcb (invalidateOut s.regs)) 0 :=
  ftbWrapImage_cases (s.withRegs (invalidateOut s.regs))

theorem ftbSetField_cases (t : FtbField) (v : Word) (s : State) :
    (s.regs.ftbErr ≠ 0 ∧ ftbSetField t v s = failedWith s s.regs s.regs.ftbErr)
      ∨ (s.regs.ftbErr = 0 ∧ trailerEncode s.cfg t v = none
          ∧ ftbSetField t v s = failedWith s { s.regs with ftbErr := 1 } 1)
      ∨ ∃ e, s.regs.ftbErr = 0 ∧ trailerEncode s.cfg t v = some e
          ∧ ftbSetField t v s = doneWith s (storeTrailer t e s.regs) 0 := by
  unfold ftbSetField
  by_cases h : s.regs.ftbErr = 0
  · refine .inr ?_
    rw [if_neg (not_not.mpr h), fail_of_zero .ftb _ _ h]
    cases he : trailerEncode s.cfg t v with
    | none => exact .inl ⟨h, rfl, rfl⟩
    | some e => exact .inr ⟨e, h, rfl, rfl⟩
  · exact .inl ⟨h, if_pos h⟩

theorem execFtbSet_cases (b : Byte) (v : Word) (s : State) :
    (ftbFieldOf b = none ∧ execFtbSet b v s = failedWith s s.regs 5)
      ∨ ∃ t, ftbFieldOf b = some t
        ∧ ((s.regs.ftbErr ≠ 0 ∧ execFtbSet b v s = failedWith s (invalidateOut s.regs) s.regs.ftbErr)
          ∨ (s.regs.ftbErr = 0 ∧ trailerEncode s.cfg t v = none
              ∧ execFtbSet b v s = failedWith s { invalidateOut s.regs with ftbErr := 1 } 1)
          ∨ ∃ e, s.regs.ftbErr = 0 ∧ trailerEncode s.cfg t v = some e
              ∧ execFtbSet b v s = doneWith s (storeTrailer t e (invalidateOut s.regs)) 0) := by
  unfold execFtbSet
  cases hf : ftbFieldOf b with
  | none => exact .inl ⟨rfl, rfl⟩
  | some t => exact .inr ⟨t, rfl, ftbSetField_cases t v (s.withRegs (invalidateOut s.regs))⟩

/-- The length test of R276 never fails in a well-formed layout. -/
theorem totalSize_of_layoutWf (c : Config) (h : layoutWf c = true) :
    c.layout.pcbSize.toNat + c.layout.trailerSize = c.layout.totalSize.toNat := by
  simp only [layoutWf, wfTotal, Bool.and_eq_true, decide_eq_true_eq] at h
  omega

theorem ftbFinish_cases (s : State) :
    (s.regs.ftbErr ≠ 0 ∧ ftbFinish s = failedWith s s.regs s.regs.ftbErr)
      ∨ (s.regs.ftbErr = 0 ∧ layoutWf s.cfg = false ∧ ftbFinish s = failedWith s s.regs 4)
      ∨ (s.regs.ftbErr = 0 ∧ layoutWf s.cfg = true ∧ (s.regs.ftbWrapped = false ∨ s.regs.tfSet ≠ 0b111)
          ∧ ftbFinish s = failedWith s s.regs 3)
      ∨ s.regs.ftbErr = 0 ∧ layoutWf s.cfg = true ∧ s.regs.ftbWrapped = true ∧ s.regs.tfSet = 0b111
          ∧ ftbFinish s = doneWith s (finishFtb s.cfg s.regs) s.cfg.layout.totalSize := by
  unfold ftbFinish
  by_cases h : s.regs.ftbErr = 0
  · refine .inr ?_
    rw [if_neg (not_not.mpr h)]
    cases hw : layoutWf s.cfg
    · exact .inl ⟨h, rfl, rfl⟩
    · refine .inr ?_
      rw [if_neg (by decide), if_neg (not_not.mpr (totalSize_of_layoutWf s.cfg hw))]
      cases hr : s.regs.ftbWrapped
      · exact .inl ⟨h, rfl, .inl rfl, rfl⟩
      · rw [if_neg (by decide)]
        by_cases ht : s.regs.tfSet = 0b111
        · exact .inr ⟨h, rfl, rfl, ht, if_neg (not_not.mpr ht)⟩
        · exact .inl ⟨h, rfl, .inr ht, if_pos ht⟩
  · exact .inl ⟨h, if_pos h⟩

theorem execFtbFinalize_cases (s : State) :
    (s.regs.ftbErr ≠ 0 ∧ execFtbFinalize s = failedWith s (invalidateOut s.regs) s.regs.ftbErr)
      ∨ (s.regs.ftbErr = 0 ∧ layoutWf s.cfg = false ∧ execFtbFinalize s = failedWith s (invalidateOut s.regs) 4)
      ∨ (s.regs.ftbErr = 0 ∧ layoutWf s.cfg = true ∧ (s.regs.ftbWrapped = false ∨ s.regs.tfSet ≠ 0b111)
          ∧ execFtbFinalize s = failedWith s (invalidateOut s.regs) 3)
      ∨ s.regs.ftbErr = 0 ∧ layoutWf s.cfg = true ∧ s.regs.ftbWrapped = true ∧ s.regs.tfSet = 0b111
          ∧ execFtbFinalize s = doneWith s (finishFtb s.cfg s.regs) s.cfg.layout.totalSize :=
  ftbFinish_cases (s.withRegs (invalidateOut s.regs))

/-! The read-out commands. -/

theorem execOutRead_cases (v : Word) (s : State) :
    (s.cfg.layout.totalSize.toNat ≤ v.toNat ∧ execOutRead v s = failedWith s s.regs 5)
      ∨ (v.toNat < s.cfg.layout.totalSize.toNat ∧ s.regs.outValid = false
          ∧ execOutRead v s = failedWith s s.regs 6)
      ∨ v.toNat < s.cfg.layout.totalSize.toNat ∧ s.regs.outValid = true
          ∧ execOutRead v s = doneWith s s.regs ((Cells.read s.regs.out v.toNat).setWidth 32) := by
  unfold execOutRead
  by_cases h : s.cfg.layout.totalSize.toNat ≤ v.toNat
  · exact .inl ⟨h, if_pos h⟩
  · refine .inr ?_
    rw [if_neg h]
    cases hv : s.regs.outValid
    · exact .inl ⟨by omega, rfl, rfl⟩
    · exact .inr ⟨by omega, rfl, rfl⟩

theorem execOutRead32_cases (v : Word) (s : State) :
    (s.cfg.layout.totalSize.toNat < v.toNat + 4 ∧ execOutRead32 v s = failedWith s s.regs 5)
      ∨ (v.toNat + 4 ≤ s.cfg.layout.totalSize.toNat ∧ s.regs.outValid = false
          ∧ execOutRead32 v s = failedWith s s.regs 6)
      ∨ v.toNat + 4 ≤ s.cfg.layout.totalSize.toNat ∧ s.regs.outValid = true
          ∧ execOutRead32 v s = doneWith s s.regs (memRead s.regs.out v.toNat 4) := by
  unfold execOutRead32
  by_cases h : s.cfg.layout.totalSize.toNat < v.toNat + 4
  · exact .inl ⟨h, if_pos h⟩
  · refine .inr ?_
    rw [if_neg h]
    cases hv : s.regs.outValid
    · exact .inl ⟨by omega, rfl, rfl⟩
    · exact .inr ⟨by omega, rfl, rfl⟩

end Sys2Proof.Machine
end

