-- ==== Sys2Proof/Laws/Effect.lean ====
section
/-! SUPPORT. Everything performing an instruction can do, once for all instructions: `exec_effect` says that every
instruction answers a next state, and `Effect` lists the registers, the data word and the status it can answer with. A
property of every command is proved by cases on `Effect`. -/

namespace Sys2Proof.Machine

/-- The triple the packer is given by ENC and by a LUT instruction; the other commands give it none. -/
def packerTriple (i : Instr) : Option (Byte × Byte × Word) :=
  let row (op : Byte) (p : BitVec 2) (d : Byte) := some (op, p.setWidth 8, d.setWidth 32)
  match i with
  | .enc o p d => some (o, p, d)
  | .stop p d => row 0x00 p d
  | .jmpOnCs p d => row 0x1F p d
  | .cmdSdr p d => row 0x01 p d
  | .cmdDdr p d => row 0x21 p d
  | .raddrSdr p d => row 0x02 p d
  | .raddrDdr p d => row 0x22 p d
  | .caddrSdr p d => row 0x03 p d
  | .caddrDdr p d => row 0x23 p d
  | .mode1Sdr p d => row 0x04 p d
  | .mode1Ddr p d => row 0x24 p d
  | .mode2Sdr p d => row 0x05 p d
  | .mode2Ddr p d => row 0x25 p d
  | .mode4Sdr p d => row 0x06 p d
  | .mode4Ddr p d => row 0x26 p d
  | .mode8Sdr p d => row 0x07 p d
  | .mode8Ddr p d => row 0x27 p d
  | .writeSdr p d => row 0x08 p d
  | .writeDdr p d => row 0x28 p d
  | .readSdr p d => row 0x09 p d
  | .readDdr p d => row 0x29 p d
  | .learnSdr p d => row 0x0A p d
  | .learnDdr p d => row 0x2A p d
  | .datszSdr p d => row 0x0B p d
  | .datszDdr p d => row 0x2B p d
  | .dummySdr p d => row 0x0C p d
  | .dummyDdr p d => row 0x2C p d
  | .dummyRwdsSdr p d => row 0x0D p d
  | .dummyRwdsDdr p d => row 0x2D p d
  | .nop | .status | .info | .rdResult | .seqClear | .seqPush _ _ _ | .seqRead _ | .lutClear | .lutSet _ => none
  | .lutRead _ | .pcbClear | .pcbSet _ _ | .pcbLoadLut | .pcbFinalize | .pcbRead _ | .ftbClear | .ftbWrap => none
  | .ftbSet _ _ | .ftbFinalize | .outRead _ | .outRead32 _ => none

/-- `Effect c r i q d e`: with CONFIG `c` and registers `r`, the instruction `i` can leave the registers `q` and answer
the data word `d` with status `e`. -/
inductive Effect (c : Config) (r : Regs) : Instr → Regs → Word → Byte → Prop
  | packed (i o p d) (hi : packerTriple i = some (o, p, d)) (hl : instrLegal c.family o p d = true) :
    Effect c r i { r with result := packInstr o p d } ((packInstr o p d).setWidth 32) 0
  | packIllegal (i o p d) (hi : packerTriple i = some (o, p, d)) (hl : instrLegal c.family o p d = false) :
    Effect c r i r 0 1
  | nop : Effect c r .nop r 0 0
  | status : Effect c r .status r (statusView r) 0
  | info : Effect c r .info r (infoView r) 0
  | rdResult : Effect c r .rdResult r (r.result.setWidth 32) 0
  | seqClear : Effect c r .seqClear (clearSeq r) 0 0
  | seqPushSticky (o p d) (h : r.seqErr ≠ 0) : Effect c r (.seqPush o p d) r 0 r.seqErr
  | seqPushFull (o p d) (h : r.seqErr = 0) (h8 : r.seqK = 8) :
    Effect c r (.seqPush o p d) { r with seqErr := 2 } 0 2
  | seqPushIllegal (o p d) (h : r.seqErr = 0) (h8 : r.seqK ≠ 8) (hl : instrLegal c.family o p d = false) :
    Effect c r (.seqPush o p d) { r with seqErr := 1 } 0 1
  | seqPush (o p d) (h : r.seqErr = 0) (h8 : r.seqK ≠ 8) (hl : instrLegal c.family o p d = true) :
    Effect c r (.seqPush o p d) (pushSeq (packInstr o p d) r) ((r.seqK + 1).setWidth 32) 0
  | seqReadRange (f) (h : 8 ≤ f.toNat) : Effect c r (.seqRead f) r 0 5
  | seqRead (f) (h : f.toNat < 8) : Effect c r (.seqRead f) r ((seqRead r f.toNat).setWidth 32) 0
  | lutClear : Effect c r .lutClear (clearLut r) 0 0
  | lutSetSticky (f) (h : r.lutErr ≠ 0) : Effect c r (.lutSet f) r 0 r.lutErr
  | lutSetSelector (f) (h : r.lutErr = 0) (hc : selectCommand c.layout f = none) :
    Effect c r (.lutSet f) { r with lutErr := 1 } 0 1
  | lutSetFailed (f cmd) (h : r.lutErr = 0) (hc : selectCommand c.layout f = some cmd) (hs : r.seqErr ≠ 0) :
    Effect c r (.lutSet f) { r with lutErr := r.seqErr } 0 r.seqErr
  | lutSetBound (f cmd) (h : r.lutErr = 0) (hc : selectCommand c.layout f = some cmd) (hs : r.seqErr = 0)
      (hn : c.layout.nseq ≤ (fixedIndex c.layout cmd).toNat) : Effect c r (.lutSet f) { r with lutErr := 4 } 0 4
  | lutSet (f cmd) (h : r.lutErr = 0) (hc : selectCommand c.layout f = some cmd) (hs : r.seqErr = 0)
      (hn : (fixedIndex c.layout cmd).toNat < c.layout.nseq) :
    Effect c r (.lutSet f) (mapSequence (fixedIndex c.layout cmd).toNat r) (fixedIndex c.layout cmd) 0
  | lutReadRange (v) (h : lutBytes c ≤ v.toNat) : Effect c r (.lutRead v) r 0 5
  | lutRead (v) (h : v.toNat < lutBytes c) : Effect c r (.lutRead v) r ((lutSer r.lutTab v.toNat).setWidth 32) 0
  | pcbClear : Effect c r .pcbClear (clearPcb r) 0 0
  | pcbSetId (b v) (hf : pcbFieldOf b = none) : Effect c r (.pcbSet b v) r 0 5
  | pcbSetSticky (b v f) (hf : pcbFieldOf b = some f) (h : r.pcbErr ≠ 0) :
    Effect c r (.pcbSet b v) (invalidatePcb r) 0 r.pcbErr
  | pcbSetIllegal (b v f) (hf : pcbFieldOf b = some f) (h : r.pcbErr = 0)
      (hl : f ∉ c.family.fields ∨ fieldEncode c f v = none) :
    Effect c r (.pcbSet b v) { invalidatePcb r with pcbErr := 1 } 0 1
  | pcbSet (b v f e) (hf : pcbFieldOf b = some f) (h : r.pcbErr = 0) (hm : f ∈ c.family.fields)
      (hl : fieldEncode c f v = some e) : Effect c r (.pcbSet b v) (storeField f e (invalidatePcb r)) 0 0
  | pcbLoadSticky (h : r.pcbErr ≠ 0) : Effect c r .pcbLoadLut (invalidatePcb r) 0 r.pcbErr
  | pcbLoadFailed (h : r.pcbErr = 0) (hl : r.lutErr ≠ 0) :
    Effect c r .pcbLoadLut { invalidatePcb r with pcbErr := r.lutErr } 0 r.lutErr
  | pcbLoad (h : r.pcbErr = 0) (hl : r.lutErr = 0) : Effect c r .pcbLoadLut (loadLut c (invalidatePcb r)) 0 0
  | pcbFinalizeSticky (h : r.pcbErr ≠ 0) : Effect c r .pcbFinalize (invalidatePcb r) 0 r.pcbErr
  | pcbFinalizeLayout (h : r.pcbErr = 0) (hw : layoutWf c = false) : Effect c r .pcbFinalize (invalidatePcb r) 0 4
  | pcbFinalizeMissing (h : r.pcbErr = 0) (hw : layoutWf c = true)
      (hm : r.pcbLutSet = false ∨ r.pfSclkSet = false ∨ r.pf.dmEn = 1 ∧ r.pf.dmSeq = 0) :
    Effect c r .pcbFinalize (invalidatePcb r) 0 3
  | pcbFinalize (h : r.pcbErr = 0) (hw : layoutWf c = true) (hl : r.pcbLutSet = true) (hs : r.pfSclkSet = true)
      (hd : ¬ (r.pf.dmEn = 1 ∧ r.pf.dmSeq = 0)) : Effect c r .pcbFinalize (finishPcb c r) c.layout.pcbSize 0
  | pcbReadRange (v) (h : c.layout.pcbSize.toNat ≤ v.toNat) : Effect c r (.pcbRead v) r 0 5
  | pcbReadInvalid (v) (h : v.toNat < c.layout.pcbSize.toNat) (hv : r.pcbValid = false) :
    Effect c r (.pcbRead v) r 0 6
  | pcbRead (v) (h : v.toNat < c.layout.pcbSize.toNat) (hv : r.pcbValid = true) :
    Effect c r (.pcbRead v) r ((Cells.read r.pimg v.toNat).setWidth 32) 0
  | ftbClear : Effect c r .ftbClear (clearFtb r) 0 0
  | ftbWrapSticky (h : r.ftbErr ≠ 0) : Effect c r .ftbWrap (invalidateOut r) 0 r.ftbErr
  | ftbWrapFailed (h : r.ftbErr = 0) (hp : r.pcbErr ≠ 0) :
    Effect c r .ftbWrap { invalidateOut r with ftbErr := r.pcbErr } 0 r.pcbErr
  | ftbWrapMissing (h : r.ftbErr = 0) (hp : r.pcbErr = 0) (hv : r.pcbValid = false) :
    Effect c r .ftbWrap { invalidateOut r with ftbErr := 3 } 0 3
  | ftbWrap (h : r.ftbErr = 0) (hp : r.pcbErr = 0) (hv : r.pcbValid = true) :
    Effect c r .ftbWrap (wrapPcb (invalidateOut r)) 0 0
  | ftbSetId (b v) (hf : ftbFieldOf b = none) : Effect c r (.ftbSet b v) r 0 5
  | ftbSetSticky (b v t) (hf : ftbFieldOf b = some t) (h : r.ftbErr ≠ 0) :
    Effect c r (.ftbSet b v) (invalidateOut r) 0 r.ftbErr
  | ftbSetIllegal (b v t) (hf : ftbFieldOf b = some t) (h : r.ftbErr = 0) (hl : trailerEncode c t v = none) :
    Effect c r (.ftbSet b v) { invalidateOut r with ftbErr := 1 } 0 1
  | ftbSet (b v t e) (hf : ftbFieldOf b = some t) (h : r.ftbErr = 0) (hl : trailerEncode c t v = some e) :
    Effect c r (.ftbSet b v) (storeTrailer t e (invalidateOut r)) 0 0
  | ftbFinalizeSticky (h : r.ftbErr ≠ 0) : Effect c r .ftbFinalize (invalidateOut r) 0 r.ftbErr
  | ftbFinalizeLayout (h : r.ftbErr = 0) (hw : layoutWf c = false) : Effect c r .ftbFinalize (invalidateOut r) 0 4
  | ftbFinalizeMissing (h : r.ftbErr = 0) (hw : layoutWf c = true) (hm : r.ftbWrapped = false ∨ r.tfSet ≠ 0b111) :
    Effect c r .ftbFinalize (invalidateOut r) 0 3
  | ftbFinalize (h : r.ftbErr = 0) (hw : layoutWf c = true) (hr : r.ftbWrapped = true) (ht : r.tfSet = 0b111) :
    Effect c r .ftbFinalize (finishFtb c r) c.layout.totalSize 0
  | outReadRange (v) (h : c.layout.totalSize.toNat ≤ v.toNat) : Effect c r (.outRead v) r 0 5
  | outReadInvalid (v) (h : v.toNat < c.layout.totalSize.toNat) (hv : r.outValid = false) :
    Effect c r (.outRead v) r 0 6
  | outRead (v) (h : v.toNat < c.layout.totalSize.toNat) (hv : r.outValid = true) :
    Effect c r (.outRead v) r ((Cells.read r.out v.toNat).setWidth 32) 0
  | outRead32Range (v) (h : c.layout.totalSize.toNat < v.toNat + 4) : Effect c r (.outRead32 v) r 0 5
  | outRead32Invalid (v) (h : v.toNat + 4 ≤ c.layout.totalSize.toNat) (hv : r.outValid = false) :
    Effect c r (.outRead32 v) r 0 6
  | outRead32 (v) (h : v.toNat + 4 ≤ c.layout.totalSize.toNat) (hv : r.outValid = true) :
    Effect c r (.outRead32 v) r (memRead r.out v.toNat 4) 0

/-- The command is completed with status `c` and data word `d`, the registers are `r`, and nothing else has changed. -/
def answerWith (s : State) (r : Regs) (d : Word) (c : Byte) : Result :=
  .next { cfg := s.cfg, regs := r, requests := s.requests, response := some (responseWord d c) }

theorem doneWith_eq (s : State) (r : Regs) (d : Word) : doneWith s r d = answerWith s r d 0 := rfl

theorem failedWith_eq (s : State) (r : Regs) (c : Byte) : failedWith s r c = answerWith s r 0 c := rfl

/-- What the packer does with the triple of ENC or of a LUT instruction. -/
theorem packInto_effect (i : Instr) (o p : Byte) (d : Word) (s : State) (hi : packerTriple i = some (o, p, d)) :
    ∃ q x e, Effect s.cfg s.regs i q x e ∧ packInto o p d s = answerWith s q x e := by
  rcases packInto_cases o p d s with ⟨h, e⟩ | ⟨h, e⟩
  · exact ⟨_, _, _, .packed i o p d hi h, e⟩
  · exact ⟨_, _, _, .packIllegal i o p d hi h, e⟩

/-- Every instruction answers a next state in which only the registers and the response have changed, as one of the
cases of `Effect` says. -/
theorem exec_effect (i : Instr) (s : State) :
    ∃ q d e, Effect s.cfg s.regs i q d e ∧ exec i s = answerWith s q d e := by
  cases i
  case nop => exact ⟨_, _, _, .nop, rfl⟩
  case status => exact ⟨_, _, _, .status, rfl⟩
  case info => exact ⟨_, _, _, .info, rfl⟩
  case rdResult => exact ⟨_, _, _, .rdResult, rfl⟩
  case seqClear => exact ⟨_, _, _, .seqClear, rfl⟩
  case seqPush o p d =>
    rcases execSeqPush_cases o p d s with ⟨h, e⟩ | ⟨h, h8, e⟩ | ⟨h, h8, hl, e⟩ | ⟨h, h8, hl, e⟩
    · exact ⟨_, _, _, .seqPushSticky o p d h, e⟩
    · exact ⟨_, _, _, .seqPushFull o p d h h8, e⟩
    · exact ⟨_, _, _, .seqPush o p d h h8 hl, e⟩
    · exact ⟨_, _, _, .seqPushIllegal o p d h h8 hl, e⟩
  case seqRead f =>
    rcases execSeqRead_cases f s with ⟨h, e⟩ | ⟨h, e⟩
    · exact ⟨_, _, _, .seqReadRange f h, e⟩
    · exact ⟨_, _, _, .seqRead f h, e⟩
  case lutClear => exact ⟨_, _, _, .lutClear, rfl⟩
  case lutSet f =>
    rcases execLutSet_cases f s with ⟨h, e⟩ | ⟨h, hc, e⟩ | ⟨c, h, hc, ⟨hs, e⟩ | ⟨hs, hn, e⟩ | ⟨hs, hn, e⟩⟩
    · exact ⟨_, _, _, .lutSetSticky f h, e⟩
    · exact ⟨_, _, _, .lutSetSelector f h hc, e⟩
    · exact ⟨_, _, _, .lutSetFailed f c h hc hs, e⟩
    · exact ⟨_, _, _, .lutSetBound f c h hc hs hn, e⟩
    · exact ⟨_, _, _, .lutSet f c h hc hs hn, e⟩
  case lutRead v =>
    rcases execLutRead_cases v s with ⟨h, e⟩ | ⟨h, e⟩
    · exact ⟨_, _, _, .lutReadRange v h, e⟩
    · exact ⟨_, _, _, .lutRead v h, e⟩
  case pcbClear => exact ⟨_, _, _, .pcbClear, rfl⟩
  case pcbSet b v =>
    rcases execPcbSet_cases b v s with ⟨hf, e⟩ | ⟨f, hf, ⟨h, e⟩ | ⟨h, hl, e⟩ | ⟨x, h, hm, hl, e⟩⟩
    · exact ⟨_, _, _, .pcbSetId b v hf, e⟩
    · exact ⟨_, _, _, .pcbSetSticky b v f hf h, e⟩
    · exact ⟨_, _, _, .pcbSetIllegal b v f hf h hl, e⟩
    · exact ⟨_, _, _, .pcbSet b v f x hf h hm hl, e⟩
  case pcbLoadLut =>
    rcases execPcbLoadLut_cases s with ⟨h, e⟩ | ⟨h, hl, e⟩ | ⟨h, hl, e⟩
    · exact ⟨_, _, _, .pcbLoadSticky h, e⟩
    · exact ⟨_, _, _, .pcbLoadFailed h hl, e⟩
    · exact ⟨_, _, _, .pcbLoad h hl, e⟩
  case pcbFinalize =>
    rcases execPcbFinalize_cases s with ⟨h, e⟩ | ⟨h, hw, e⟩ | ⟨h, hw, hm, e⟩ | ⟨h, hw, hl, hs, hd, e⟩
    · exact ⟨_, _, _, .pcbFinalizeSticky h, e⟩
    · exact ⟨_, _, _, .pcbFinalizeLayout h hw, e⟩
    · exact ⟨_, _, _, .pcbFinalizeMissing h hw hm, e⟩
    · exact ⟨_, _, _, .pcbFinalize h hw hl hs hd, e⟩
  case pcbRead v =>
    rcases execPcbRead_cases v s with ⟨h, e⟩ | ⟨h, hv, e⟩ | ⟨h, hv, e⟩
    · exact ⟨_, _, _, .pcbReadRange v h, e⟩
    · exact ⟨_, _, _, .pcbReadInvalid v h hv, e⟩
    · exact ⟨_, _, _, .pcbRead v h hv, e⟩
  case ftbClear => exact ⟨_, _, _, .ftbClear, rfl⟩
  case ftbWrap =>
    rcases execFtbWrap_cases s with ⟨h, e⟩ | ⟨h, hp, e⟩ | ⟨h, hp, hv, e⟩ | ⟨h, hp, hv, e⟩
    · exact ⟨_, _, _, .ftbWrapSticky h, e⟩
    · exact ⟨_, _, _, .ftbWrapFailed h hp, e⟩
    · exact ⟨_, _, _, .ftbWrapMissing h hp hv, e⟩
    · exact ⟨_, _, _, .ftbWrap h hp hv, e⟩
  case ftbSet b v =>
    rcases execFtbSet_cases b v s with ⟨hf, e⟩ | ⟨t, hf, ⟨h, e⟩ | ⟨h, hl, e⟩ | ⟨x, h, hl, e⟩⟩
    · exact ⟨_, _, _, .ftbSetId b v hf, e⟩
    · exact ⟨_, _, _, .ftbSetSticky b v t hf h, e⟩
    · exact ⟨_, _, _, .ftbSetIllegal b v t hf h hl, e⟩
    · exact ⟨_, _, _, .ftbSet b v t x hf h hl, e⟩
  case ftbFinalize =>
    rcases execFtbFinalize_cases s with ⟨h, e⟩ | ⟨h, hw, e⟩ | ⟨h, hw, hm, e⟩ | ⟨h, hw, hr, ht, e⟩
    · exact ⟨_, _, _, .ftbFinalizeSticky h, e⟩
    · exact ⟨_, _, _, .ftbFinalizeLayout h hw, e⟩
    · exact ⟨_, _, _, .ftbFinalizeMissing h hw hm, e⟩
    · exact ⟨_, _, _, .ftbFinalize h hw hr ht, e⟩
  case outRead v =>
    rcases execOutRead_cases v s with ⟨h, e⟩ | ⟨h, hv, e⟩ | ⟨h, hv, e⟩
    · exact ⟨_, _, _, .outReadRange v h, e⟩
    · exact ⟨_, _, _, .outReadInvalid v h hv, e⟩
    · exact ⟨_, _, _, .outRead v h hv, e⟩
  case outRead32 v =>
    rcases execOutRead32_cases v s with ⟨h, e⟩ | ⟨h, hv, e⟩ | ⟨h, hv, e⟩
    · exact ⟨_, _, _, .outRead32Range v h, e⟩
    · exact ⟨_, _, _, .outRead32Invalid v h hv, e⟩
    · exact ⟨_, _, _, .outRead32 v h hv, e⟩
  all_goals exact packInto_effect _ _ _ _ s rfl

/-- What an instruction does when it answers a next state. -/
theorem exec_next (i : Instr) (s t : State) (h : exec i s = .next t) :
    ∃ q d e, Effect s.cfg s.regs i q d e
      ∧ t = { cfg := s.cfg, regs := q, requests := s.requests, response := some (responseWord d e) } := by
  obtain ⟨q, d, e, he, hx⟩ := exec_effect i s
  rw [hx] at h
  exact ⟨q, d, e, he, (Host.Outcome.next.inj h).symm⟩

end Sys2Proof.Machine
end

