-- ==== Sys2Proof/Laws/Operands.lean ====
section
/-! SUPPORT. The operand forms: what the partial maps and the legal tests answer, that every encoded value fits the
register that stores it, and that a stored field reads back and leaves the other fields alone. -/

namespace Sys2Proof.Machine

theorem mapLookup_eq_some {w : Nat} (rows : List (Word × BitVec w)) (k : Word) (c : BitVec w) :
    mapLookup rows k = some c ↔ ∃ before after, rows = before ++ (k, c) :: after ∧ ∀ r ∈ before, r.1 ≠ k := by
  induction rows with
  | nil => simp [mapLookup]
  | cons r rest ih =>
    obtain ⟨a, b⟩ := r
    unfold mapLookup
    by_cases h : a = k
    · subst h
      rw [if_pos rfl]
      constructor
      · intro e; cases e; exact ⟨[], rest, rfl, by simp⟩
      · rintro ⟨before, after, e, hn⟩
        cases before with
        | nil => cases e; rfl
        | cons x xs => cases e; exact absurd rfl (hn (a, b) (by simp))
    · rw [if_neg h, ih]
      constructor
      · rintro ⟨before, after, rfl, hn⟩
        refine ⟨(a, b) :: before, after, rfl, fun r hr => ?_⟩
        rcases List.mem_cons.mp hr with rfl | hr
        · exact h
        · exact hn r hr
      · rintro ⟨before, after, e, hn⟩
        cases before with
        | nil => cases e; exact absurd rfl h
        | cons x xs =>
          obtain ⟨rfl, rfl⟩ := List.cons.inj e
          exact ⟨xs, after, rfl, fun r hr => hn r (List.mem_cons_of_mem _ hr)⟩

theorem legalCode_eq_some (codes : List Byte) (v e : Word) :
    legalCode codes v = some e ↔ e = v ∧ ∃ code ∈ codes, code.toNat = v.toNat := by
  unfold legalCode
  have h : (codes.any fun c => c.setWidth 32 == v) = true ↔ ∃ code ∈ codes, code.toNat = v.toNat := by
    simp only [List.any_eq_true, beq_iff_eq, ← BitVec.toNat_inj, BitVec.toNat_setWidth]
    exact exists_congr fun c => and_congr_right fun _ => by
      rw [Nat.mod_eq_of_lt (by have := c.isLt; omega)]
  rw [← h]
  by_cases hb : (codes.any fun c => c.setWidth 32 == v) = true
  · rw [if_pos hb]
    exact ⟨fun e => ⟨(Option.some.inj e).symm, hb⟩, fun e => by rw [e.1]⟩
  · rw [if_neg hb]
    exact ⟨(by intro e; cases e), fun e => absurd e.2 hb⟩

theorem legalWhen_eq_some (ok : Bool) (v e : Word) : legalWhen ok v = some e ↔ e = v ∧ ok = true := by
  cases ok <;> simp [legalWhen, eq_comm]

theorem freqEncode_eq_some (m : List (Word × Byte)) (v e : Word) :
    freqEncode m v = some e ↔ ∃ c, mapLookup m v = some c ∧ c.toNat = e.toNat := by
  unfold freqEncode
  rw [Option.map_eq_some_iff]
  refine exists_congr fun c => and_congr_right fun _ => ?_
  rw [← BitVec.toNat_inj, BitVec.toNat_setWidth, Nat.mod_eq_of_lt (by have := c.isLt; omega)]

/-- The width of REG_f (R224). -/
def fieldWidth (f : PcbField) : Nat :=
  match f with
  | .deviceModeSeq | .deviceModeArg | .sflashA1Size | .sflashA2Size | .sflashB1Size | .sflashB2Size => 32
  | .waitTimeCfgCommands => 16
  | .readSampleClkSrc | .csHoldTime | .csSetupTime | .columnAddressWidth | .deviceModeCfgEnable => 8
  | .deviceType | .sflashPadType | .serialClkFreq => 8

theorem getField_lt (pf : PcbFields) (f : PcbField) : (getField pf f).toNat < 2 ^ fieldWidth f := by
  cases f <;> simp only [getField, fieldWidth, BitVec.toNat_setWidth] <;> omega

theorem fieldEncode_lt (c : Config) (f : PcbField) (v e : Word) (h : fieldEncode c f v = some e) :
    e.toNat < 2 ^ fieldWidth f := by
  have := e.isLt
  cases f <;> simp only [fieldEncode, legalCode_eq_some, legalWhen_eq_some, freqEncode_eq_some, decide_eq_true_eq,
    Bool.or_eq_true, beq_iff_eq] at h <;> simp only [fieldWidth] <;> first
    | omega
    | (obtain ⟨rfl, h⟩ := h; omega)
    | (obtain ⟨rfl, code, -, hc⟩ := h; omega)
    | (obtain ⟨rfl, rfl | rfl⟩ := h <;> decide)

/-- A value that fits the register reads back. -/
theorem getField_setField (pf : PcbFields) (f : PcbField) (e : Word) (h : e.toNat < 2 ^ fieldWidth f) :
    getField (setField pf f e) f = e := by
  apply BitVec.eq_of_toNat_eq
  cases f <;> simp only [fieldWidth] at h <;> simp only [getField, setField, BitVec.toNat_setWidth] <;> omega

/-- Storing one field leaves the others alone. -/
theorem getField_setField_ne (pf : PcbFields) (f g : PcbField) (e : Word) (h : g ≠ f) :
    getField (setField pf f e) g = getField pf g := by
  cases f <;> cases g <;> first | rfl | exact absurd rfl h

theorem trailerEncode_lt (c : Config) (v e : Word) (h : trailerEncode c .ipCmdSerialClkFreq v = some e) :
    e.toNat < 2 ^ 8 := by
  simp only [trailerEncode, freqEncode_eq_some] at h
  obtain ⟨code, -, hc⟩ := h
  omega

/-- An encoded trailer value reads back. -/
theorem getTrailer_setTrailer (c : Config) (tf : TrailerFields) (t : FtbField) (v e : Word)
    (h : trailerEncode c t v = some e) : getTrailer (setTrailer tf t e) t = e := by
  cases t
  · rfl
  · rfl
  · have := trailerEncode_lt c v e h
    apply BitVec.eq_of_toNat_eq
    simp only [getTrailer, setTrailer, BitVec.toNat_setWidth]
    omega

/-- Storing one trailer field leaves the others alone. -/
theorem getTrailer_setTrailer_ne (tf : TrailerFields) (t u : FtbField) (e : Word) (h : u ≠ t) :
    getTrailer (setTrailer tf t e) u = getTrailer tf u := by
  cases t <;> cases u <;> first | rfl | exact absurd rfl h

theorem setTrailerBit_getLsbD (b : BitVec 3) (t : FtbField) (k : Nat) :
    (setTrailerBit b t).getLsbD k = (b.getLsbD k || decide (k = (ftbFieldIndex t).val)) := by
  by_cases hk : k < 3
  · obtain rfl | rfl | rfl : k = 0 ∨ k = 1 ∨ k = 2 := by omega
    all_goals cases t <;> simp [setTrailerBit, ftbFieldIndex]
  · have h1 : (ftbFieldIndex t).val < 3 := (ftbFieldIndex t).isLt
    rw [BitVec.getLsbD_of_ge _ _ (by omega), BitVec.getLsbD_of_ge _ _ (by omega), decide_eq_false (by omega)]
    rfl

/-- A Custom selector selects the slot it names, when that is a slot of no named Command. -/
theorem customCommand_eq_some (l : Layout) (i : Nat) (c : Command) :
    customCommand l i = some c ↔ c = .custom i ∧ i < l.nseq ∧ i ∉ namedSlots l := by
  unfold customCommand
  split <;> simp_all [eq_comm]

theorem mem_pcbFieldsAll (f : PcbField) : f ∈ pcbFieldsAll := by cases f <;> decide

theorem mem_ftbFieldsAll (t : FtbField) : t ∈ ftbFieldsAll := by cases t <;> decide

theorem mem_familyFields (c : Config) (f : PcbField) : f ∈ familyFields c ↔ f ∈ c.family.fields := by
  simp [familyFields, mem_pcbFieldsAll]

theorem instrLegal_iff (f : Family) (o p : Byte) (d : Word) :
    instrLegal f o p d = true
      ↔ o.toNat < 64 ∧ o.setWidth 6 ∈ f.opcodes ∧ p.toNat < 4 ∧ d.toNat < 256 := by
  simp [instrLegal, and_assoc]

end Sys2Proof.Machine
end

