-- ==== Sys2Proof/Laws/Layout.lean ====
section
/-! SUPPORT. The layout invariant: what each test means, and what a well-formed layout gives the images. -/

namespace Sys2Proof.Machine

theorem apart_iff (a b : Nat × Nat) (ha : a.1 < a.2) (hb : b.1 < b.2) :
    apart a b = true ↔ ∀ n, ¬ ((a.1 ≤ n ∧ n < a.2) ∧ b.1 ≤ n ∧ n < b.2) := by
  simp only [apart, Bool.or_eq_true, decide_eq_true_eq]
  constructor
  · intro h n hn; omega
  · intro h
    by_contra hc
    exact h (max a.1 b.1) (by omega)

theorem allApart_iff (rs : List (Nat × Nat)) : allApart rs = true ↔ rs.Pairwise fun a b => apart a b = true := by
  induction rs with
  | nil => simp [allApart]
  | cons r rest ih => simp [allApart, ih]

/-- The greatest legal DEVICE_MODE_SEQ bounds all of them, and is itself legal when there is a slot. -/
theorem deviceModeSeqFits_iff (nseq nb : Nat) :
    deviceModeSeqFits nseq nb = true ↔ ∀ v, deviceModeSeqLegal nseq v = true → v.toNat < 2 ^ nb := by
  have key : ∀ v : Word, deviceModeSeqLegal nseq v = true ↔
      v.toNat / 2 ^ 16 = 0 ∧ 1 ≤ v.toNat % 256 ∧ v.toNat / 256 % 256 + v.toNat % 256 ≤ nseq := by
    intro v
    have hv := v.isLt
    simp only [deviceModeSeqLegal, Bool.and_eq_true, beq_iff_eq, decide_eq_true_eq, BitVec.extractLsb'_toNat,
      Nat.shiftRight_eq_div_pow, ← BitVec.toNat_inj, and_assoc, show (0 : BitVec 16).toNat = 0 from rfl]
    constructor <;> rintro ⟨h1, h2, h3⟩ <;> refine ⟨?_, ?_, ?_⟩ <;> omega
  simp only [deviceModeSeqFits, Bool.or_eq_true, beq_iff_eq, decide_eq_true_eq, key]
  constructor
  · rintro (h | h) v ⟨h1, h2, h3⟩
    · omega
    · refine lt_of_le_of_lt ?_ h
      have hv : v.toNat = v.toNat / 256 % 256 * 256 + v.toNat % 256 := by omega
      generalize v.toNat / 256 % 256 = a at *
      generalize v.toNat % 256 = b at *
      omega
  · intro h
    by_cases h0 : nseq = 0
    · exact .inl h0
    · right
      have hlt : min 255 (nseq - 1) * 256 + min 255 (nseq - min 255 (nseq - 1)) < 2 ^ 32 := by omega
      have := h (BitVec.ofNat 32 (min 255 (nseq - 1) * 256 + min 255 (nseq - min 255 (nseq - 1))))
      rw [BitVec.toNat_ofNat, Nat.mod_eq_of_lt hlt] at this
      apply this
      omega

theorem mapFits_iff {w : Nat} (rows : List (Word × BitVec w)) (nb : Nat) :
    mapFits rows nb = true ↔ ∀ v c, mapLookup rows v = some c → c.toNat < 2 ^ nb := by
  simp only [mapFits, List.all_eq_true]
  constructor
  · intro h v c hc
    obtain ⟨before, after, rfl, -⟩ := (mapLookup_eq_some rows v c).mp hc
    have := h (v, c) (by simp)
    simp only [hc, decide_eq_true_eq] at this
    exact this
  · intro h r hr
    cases hc : mapLookup rows r.1 with
    | none => rfl
    | some c => simpa using h r.1 c hc

theorem freqFits_iff (m : List (Word × Byte)) (nb : Nat) :
    mapFits m nb = true ↔ ∀ v e, freqEncode m v = some e → e.toNat < 2 ^ nb := by
  rw [mapFits_iff]
  simp only [freqEncode_eq_some]
  constructor
  · rintro h v e ⟨c, h1, h2⟩
    rw [← h2]; exact h v c h1
  · intro h v c hc
    have := h v (c.setWidth 32) ⟨c, hc, by rw [BitVec.toNat_setWidth, Nat.mod_eq_of_lt (by have := c.isLt; omega)]⟩
    rwa [BitVec.toNat_setWidth, Nat.mod_eq_of_lt (by have := c.isLt; omega)] at this

/-- All words are below 2^nb exactly when nb is at least the width in use. -/
theorem fits_iff (k nb : Nat) (hk : k ≤ 32) : k ≤ nb ↔ ∀ v : Word, v.toNat < 2 ^ k → v.toNat < 2 ^ nb := by
  constructor
  · intro h v hv
    exact lt_of_lt_of_le hv (Nat.pow_le_pow_right (by omega) h)
  · intro h
    by_contra hc
    have h1 : 2 ^ nb < 2 ^ k := Nat.pow_lt_pow_right (by omega) (by omega)
    have h2 : 2 ^ k ≤ 2 ^ 32 := Nat.pow_le_pow_right (by omega) hk
    have := h (BitVec.ofNat 32 (2 ^ nb)) (by rw [BitVec.toNat_ofNat, Nat.mod_eq_of_lt (by omega)]; exact h1)
    rw [BitVec.toNat_ofNat, Nat.mod_eq_of_lt (by omega)] at this
    omega

theorem regionFits_iff (m : RegionEnc) (nb : Nat) :
    regionFits m nb = true ↔ ∀ v e, regionEncode m v = some e → e.toNat < 2 ^ nb := by
  cases m with
  | identity =>
    simp only [regionFits, regionEncode, decide_eq_true_eq, Option.some.injEq, fits_iff 32 nb (by omega)]
    constructor
    · rintro h v e rfl; exact h v v.isLt
    · intro h v _; exact h v v rfl
  | table rows => exact mapFits_iff rows nb

theorem codesFit_iff (codes : List Byte) (nb : Nat) :
    codesFit codes nb = true ↔ ∀ v e, legalCode codes v = some e → e.toNat < 2 ^ nb := by
  simp only [codesFit, List.all_eq_true, decide_eq_true_eq, legalCode_eq_some]
  constructor
  · rintro h v e ⟨rfl, code, hm, hc⟩
    rw [← hc]; exact h code hm
  · intro h code hm
    have e : (code.setWidth 32).toNat = code.toNat := by
      rw [BitVec.toNat_setWidth, Nat.mod_eq_of_lt (by have := code.isLt; omega)]
    have := h (code.setWidth 32) (code.setWidth 32) ⟨rfl, code, hm, e.symm⟩
    rwa [e] at this

/-- The test of item 7 for one field holds exactly when every value legal for it encodes below 2^nb. -/
theorem fieldFits_iff (c : Config) (f : PcbField) (nb : Nat) :
    fieldFits c f nb = true ↔ ∀ v e, fieldEncode c f v = some e → e.toNat < 2 ^ nb := by
  have byte : ∀ k, k ≤ 32 → (k ≤ nb ↔ ∀ v e : Word, e = v ∧ v.toNat ≤ 2 ^ k - 1 → e.toNat < 2 ^ nb) := by
    intro k hk
    have hp : 0 < 2 ^ k := Nat.pow_pos (by omega)
    rw [fits_iff k nb hk]
    constructor
    · rintro h v e ⟨rfl, hv⟩; exact h e (by omega)
    · intro h v hv; exact h v v ⟨rfl, by omega⟩
  cases f <;> simp only [fieldFits, fieldEncode, codesFit_iff, freqFits_iff, regionFits_iff, decide_eq_true_eq]
  · simp only [legalWhen_eq_some, decide_eq_true_eq]; exact byte 8 (by omega)
  · simp only [legalWhen_eq_some, decide_eq_true_eq]; exact byte 8 (by omega)
  · simp only [legalWhen_eq_some, Bool.or_eq_true, beq_iff_eq]
    constructor
    · rintro h v e ⟨rfl, rfl | rfl⟩
      · exact Nat.pow_pos (by omega)
      · exact lt_of_lt_of_le (by decide) (Nat.pow_le_pow_right (by omega) h : 2 ^ 1 ≤ 2 ^ nb)
    · intro h
      by_contra hc
      have := h 1 1 ⟨rfl, .inr rfl⟩
      rw [show nb = 0 by omega] at this
      exact absurd this (by decide)
  · rw [deviceModeSeqFits_iff]
    simp only [legalWhen_eq_some]
    constructor
    · rintro h v e ⟨rfl, hv⟩; exact h e hv
    · intro h v hv; exact h v v ⟨rfl, hv⟩
  · rw [fits_iff 32 nb (by omega)]
    simp only [Option.some.injEq]
    constructor
    · rintro h v e rfl; exact h v v.isLt
    · intro h v _; exact h v v rfl
  · simp only [legalWhen_eq_some, decide_eq_true_eq]; exact byte 16 (by omega)

/-- The test of item 7 for one trailer field holds exactly when every value legal for it encodes below 2^nb. -/
theorem trailerFits_iff (c : Config) (t : FtbField) (nb : Nat) :
    trailerFits c t nb = true ↔ ∀ v e, trailerEncode c t v = some e → e.toNat < 2 ^ nb := by
  have size : 32 ≤ nb ↔ ∀ v e : Word, e = v ∧ 1 ≤ v.toNat → e.toNat < 2 ^ nb := by
    rw [fits_iff 32 nb (by omega)]
    constructor
    · rintro h v e ⟨rfl, -⟩; exact h e e.isLt
    · intro h v _
      by_cases hv : v.toNat = 0
      · rw [hv]; exact Nat.pow_pos (by omega)
      · exact h v v ⟨rfl, by omega⟩
  cases t <;> simp only [trailerFits, trailerEncode, freqFits_iff, decide_eq_true_eq]
  · simpa only [legalWhen_eq_some, decide_eq_true_eq] using size
  · simpa only [legalWhen_eq_some, decide_eq_true_eq] using size

end Sys2Proof.Machine
end

