-- ==== Sys2Proof/Laws/Images.lean ====
section
/-! SUPPORT. The two images: what a run of masked entry writes leaves in each bit, the canonical form and the size of
the images, and the regions of a well-formed layout. -/

namespace Sys2Proof.Machine

/-- Bit `n` is in the bit range. -/
def inRange (r : Nat × Nat) (n : Nat) : Prop := r.1 ≤ n ∧ n < r.2

theorem not_inRange_of_apart (a b : Nat × Nat) (n : Nat) (h : apart a b = true) (ha : inRange a n) : ¬ inRange b n := by
  simp only [apart, Bool.or_eq_true, decide_eq_true_eq] at h
  unfold inRange at *
  omega

theorem imageBit_writeEntry_out (m : Memory) (e : Entry) (v : Word) (h : EntryFits e) (n : Nat)
    (hn : ¬ inRange (entryBits e) n) : imageBit (writeEntry m e v) n = imageBit m n := by
  rw [imageBit_writeEntry m e v h]; exact if_neg hn

theorem imageBit_writeEntry_in (m : Memory) (e : Entry) (v : Word) (h : EntryFits e) (n : Nat)
    (hn : inRange (entryBits e) n) : imageBit (writeEntry m e v) n = v.getLsbD (n - (entryBits e).1) := by
  rw [imageBit_writeEntry m e v h]; exact if_pos hn

section fold
variable {α : Type} (ent : α → Entry) (val : α → Word)

/-- The image after the masked write of every entry of a list. -/
def writeEntries (m : Memory) (fs : List α) : Memory := fs.foldl (fun img f => writeEntry img (ent f) (val f)) m

theorem imageBit_writeEntries_out (m : Memory) (fs : List α) (h : ∀ f ∈ fs, EntryFits (ent f)) (n : Nat)
    (hn : ∀ f ∈ fs, ¬ inRange (entryBits (ent f)) n) : imageBit (writeEntries ent val m fs) n = imageBit m n := by
  induction fs generalizing m with
  | nil => rfl
  | cons f rest ih =>
    have e : writeEntries ent val m (f :: rest) = writeEntries ent val (writeEntry m (ent f) (val f)) rest := rfl
    rw [e, ih _ (fun g hg => h g (List.mem_cons_of_mem _ hg)) (fun g hg => hn g (List.mem_cons_of_mem _ hg)),
      imageBit_writeEntry_out _ _ _ (h f List.mem_cons_self) _ (hn f List.mem_cons_self)]

theorem imageBit_writeEntries_in (m : Memory) (fs : List α) (h : ∀ f ∈ fs, EntryFits (ent f))
    (hp : fs.Pairwise fun f g => apart (entryBits (ent f)) (entryBits (ent g)) = true) (f : α) (hf : f ∈ fs) (n : Nat)
    (hn : inRange (entryBits (ent f)) n) :
    imageBit (writeEntries ent val m fs) n = (val f).getLsbD (n - (entryBits (ent f)).1) := by
  induction fs generalizing m with
  | nil => cases hf
  | cons g rest ih =>
    have e : writeEntries ent val m (g :: rest) = writeEntries ent val (writeEntry m (ent g) (val g)) rest := rfl
    have hr : ∀ x ∈ rest, EntryFits (ent x) := fun x hx => h x (List.mem_cons_of_mem _ hx)
    obtain ⟨h1, h2⟩ := List.pairwise_cons.mp hp
    rw [e]
    rcases List.mem_cons.mp hf with rfl | hm
    · rw [imageBit_writeEntries_out ent val _ rest hr n fun x hx => not_inRange_of_apart _ _ _ (h1 x hx) hn,
        imageBit_writeEntry_in _ _ _ (h f List.mem_cons_self) _ hn]
    · exact ih _ hr h2 hm

theorem wf_writeEntries (m : Memory) (fs : List α) (hm : Memory.wf m = true) :
    Memory.wf (writeEntries ent val m fs) = true := by
  induction fs generalizing m with
  | nil => exact hm
  | cons f rest ih => exact ih _ (Memory.wf_writeEntry m _ _ hm)

theorem within_writeEntries (m : Memory) (fs : List α) (n : Nat) (h : ∀ f ∈ fs, (ent f).off + (ent f).w ≤ n)
    (hm : Cells.within m n = true) : Cells.within (writeEntries ent val m fs) n = true := by
  induction fs generalizing m with
  | nil => exact hm
  | cons f rest ih =>
    exact ih _ (fun g hg => h g (List.mem_cons_of_mem _ hg))
      (within_writeEntry m _ _ n (h f List.mem_cons_self) hm)

end fold

/-! What a well-formed layout gives. -/

section wf
variable (c : Config) (h : layoutWf c = true)
include h

theorem layoutWf_total : c.layout.totalSize.toNat = c.layout.pcbSize.toNat + c.layout.trailerSize := by
  simp only [layoutWf, wfTotal, Bool.and_eq_true, decide_eq_true_eq] at h
  exact h.1.1.1.1.1.1

theorem layoutWf_table :
    1 ≤ c.layout.nseq ∧ 8 ≤ c.layout.lutOff ∧ c.layout.lutOff + 16 * c.layout.nseq ≤ c.layout.pcbSize.toNat := by
  simp only [layoutWf, wfTable, Bool.and_eq_true, decide_eq_true_eq] at h
  exact ⟨h.1.1.1.1.1.2.1.1, h.1.1.1.1.1.2.1.2, h.1.1.1.1.1.2.2⟩

theorem layoutWf_field (f : PcbField) : entryOk 8 c.layout.pcbSize.toNat (fieldEntry c.layout f) = true := by
  simp only [layoutWf, wfFields, fieldEntries, Bool.and_eq_true, List.all_eq_true] at h
  exact h.1.1.1.1.2 _ (List.mem_map.mpr ⟨f, mem_pcbFieldsAll f, rfl⟩)

theorem layoutWf_trailer (t : FtbField) :
    entryOk c.layout.pcbSize.toNat c.layout.totalSize.toNat (trailerEntry c.layout t) = true := by
  simp only [layoutWf, wfTrailer, trailerEntries, Bool.and_eq_true, List.all_eq_true] at h
  exact h.1.1.1.2 _ (List.mem_map.mpr ⟨t, mem_ftbFieldsAll t, rfl⟩)

theorem layoutWf_apart : (imageRegions c.layout).Pairwise fun a b => apart a b = true := by
  simp only [layoutWf, Bool.and_eq_true] at h
  exact (allApart_iff _).mp h.1.1.2

theorem layoutWf_cmdIndex : (namedSlots c.layout).Nodup ∧ ∀ i ∈ namedSlots c.layout, i < c.layout.nseq := by
  simp only [layoutWf, wfCmdIndex, Bool.and_eq_true, decide_eq_true_eq, List.all_eq_true] at h
  exact h.1.2

theorem layoutWf_fieldFits (f : PcbField) (hf : f ∈ c.family.fields) (v e : Word) (he : fieldEncode c f v = some e) :
    e.toNat < 2 ^ (fieldEntry c.layout f).nb := by
  simp only [layoutWf, wfValues, Bool.and_eq_true, List.all_eq_true] at h
  exact (fieldFits_iff c f _).mp (h.2.1 f hf) v e he

theorem layoutWf_trailerFits (t : FtbField) (v e : Word) (he : trailerEncode c t v = some e) :
    e.toNat < 2 ^ (trailerEntry c.layout t).nb := by
  simp only [layoutWf, wfValues, Bool.and_eq_true, List.all_eq_true] at h
  exact (trailerFits_iff c t _).mp (h.2.2 t (mem_ftbFieldsAll t)) v e he

end wf

theorem entryOk_iff (lo hi : Nat) (e : Entry) : entryOk lo hi e = true ↔
    (e.w = 1 ∨ e.w = 2 ∨ e.w = 4) ∧ 1 ≤ e.nb ∧ e.sh + e.nb ≤ 8 * e.w ∧ lo ≤ e.off ∧ e.off + e.w ≤ hi := by
  simp [entryOk, and_assoc]

theorem entryFits_of_entryOk (lo hi : Nat) (e : Entry) (h : entryOk lo hi e = true) : EntryFits e := by
  obtain ⟨h1, -, h2, -⟩ := (entryOk_iff lo hi e).mp h
  exact ⟨by omega, h2⟩

/-- The bits of an entry that is inside `[lo, hi)` are bits of those bytes. -/
theorem entryBits_bounds (lo hi : Nat) (e : Entry) (h : entryOk lo hi e = true) :
    8 * lo ≤ (entryBits e).1 ∧ (entryBits e).1 < (entryBits e).2 ∧ (entryBits e).2 ≤ 8 * hi := by
  obtain ⟨h1, h2, h3, h4, h5⟩ := (entryOk_iff lo hi e).mp h
  simp only [entryBits]
  omega

/-- In a well-formed layout the field entries are apart, and each is apart from the lookup table. -/
theorem layoutWf_fields_apart (c : Config) (h : layoutWf c = true) :
    (pcbFieldsAll.Pairwise fun f g => apart (entryBits (fieldEntry c.layout f)) (entryBits (fieldEntry c.layout g)) = true)
      ∧ ∀ f, apart (8 * c.layout.lutOff, 8 * (c.layout.lutOff + 16 * c.layout.nseq))
          (entryBits (fieldEntry c.layout f)) = true := by
  have hp := layoutWf_apart c h
  unfold imageRegions at hp
  obtain ⟨-, hp⟩ := List.pairwise_cons.mp hp
  obtain ⟨-, hp⟩ := List.pairwise_cons.mp hp
  obtain ⟨hl, hp⟩ := List.pairwise_cons.mp hp
  obtain ⟨hf, -, -⟩ := List.pairwise_append.mp hp
  refine ⟨?_, fun f => hl _ ?_⟩
  · rw [fieldEntries, List.map_map] at hf
    exact List.pairwise_map.mp hf
  · rw [fieldEntries, List.map_map]
    exact List.mem_append_left _ (List.mem_map.mpr ⟨f, mem_pcbFieldsAll f, rfl⟩)

theorem apart_comm (a b : Nat × Nat) (h : apart a b = true) : apart b a = true := by
  simp only [apart, Bool.or_eq_true, decide_eq_true_eq] at *
  exact h.symm

/-- In a well-formed layout any two different field entries are apart. -/
theorem layoutWf_field_apart (c : Config) (h : layoutWf c = true) (f g : PcbField) (hne : f ≠ g) :
    apart (entryBits (fieldEntry c.layout f)) (entryBits (fieldEntry c.layout g)) = true := by
  have : Std.Symm fun f g => apart (entryBits (fieldEntry c.layout f)) (entryBits (fieldEntry c.layout g)) = true :=
    ⟨fun _ _ => apart_comm _ _⟩
  exact (layoutWf_fields_apart c h).1.forall (mem_pcbFieldsAll f) (mem_pcbFieldsAll g) hne

/-- In a well-formed layout the trailer entries are apart. -/
theorem layoutWf_trailers_apart (c : Config) (h : layoutWf c = true) :
    ftbFieldsAll.Pairwise fun t u =>
      apart (entryBits (trailerEntry c.layout t)) (entryBits (trailerEntry c.layout u)) = true := by
  have hp := layoutWf_apart c h
  unfold imageRegions at hp
  obtain ⟨-, hp⟩ := List.pairwise_cons.mp hp
  obtain ⟨-, hp⟩ := List.pairwise_cons.mp hp
  obtain ⟨-, hp⟩ := List.pairwise_cons.mp hp
  obtain ⟨-, ht, -⟩ := List.pairwise_append.mp hp
  rw [trailerEntries, List.map_map] at ht
  exact List.pairwise_map.mp ht

/-! The peripheral image. -/

/-- The image before the lookup table is copied into it. -/
def fieldImage (c : Config) (pf : PcbFields) : Memory :=
  writeEntries (fieldEntry c.layout) (imageValue pf) (headerImage c) (familyFields c)

theorem buildPcb_eq (c : Config) (pf : PcbFields) (lut : Memory) :
    buildPcb c pf lut
      = Cells.writeList (fieldImage c pf) c.layout.lutOff (Cells.readList lut 0 (lutBytes c)) := rfl

/-- Every byte of the peripheral image, in and out of the lookup table. -/
theorem read_buildPcb (c : Config) (pf : PcbFields) (lut : Memory) (a : Nat) :
    Cells.read (buildPcb c pf lut) a
      = if c.layout.lutOff ≤ a ∧ a < c.layout.lutOff + lutBytes c then Cells.read lut (a - c.layout.lutOff)
        else Cells.read (fieldImage c pf) a := by
  rw [buildPcb_eq, Cells.read_writeList, Cells.readList_length]
  split
  · rw [Cells.readList_getD _ _ _ _ (by omega), Nat.zero_add]
  · rfl

theorem imageBit_buildPcb_out (c : Config) (pf : PcbFields) (lut : Memory) (n : Nat)
    (h : ¬ (8 * c.layout.lutOff ≤ n ∧ n < 8 * (c.layout.lutOff + 16 * c.layout.nseq))) :
    imageBit (buildPcb c pf lut) n = imageBit (fieldImage c pf) n := by
  unfold imageBit
  rw [read_buildPcb, if_neg (by unfold lutBytes; omega)]

theorem imageBit_headerImage (c : Config) (n : Nat) :
    imageBit (headerImage c) n
      = if n < 32 then c.tag.getLsbD n else if n < 64 then c.version.getLsbD (n - 32) else false := by
  unfold headerImage
  rw [imageBit_memWrite, imageBit_memWrite]
  have h0 : imageBit [] n = false := by simp [imageBit]
  by_cases h1 : n < 32
  · rw [if_neg (by omega), if_pos (by omega), if_pos h1]; rfl
  · by_cases h2 : n < 64
    · rw [if_pos (by omega), if_neg h1, if_pos h2]
    · rw [if_neg (by omega), if_neg (by omega), if_neg h1, if_neg h2, h0]

theorem wf_buildPcb (c : Config) (pf : PcbFields) (lut : Memory) : Memory.wf (buildPcb c pf lut) = true :=
  Cells.wf_writeList _ _ _
    (wf_writeEntries _ _ _ _ (Memory.wf_memWrite _ _ _ _ (Memory.wf_memWrite [] _ _ _ rfl)))

theorem within_buildPcb (c : Config) (pf : PcbFields) (lut : Memory) (h : layoutWf c = true) :
    Cells.within (buildPcb c pf lut) c.layout.pcbSize.toNat = true := by
  have ht := layoutWf_table c h
  rw [buildPcb_eq]
  apply Cells.within_writeList
  · rw [Cells.readList_length, lutBytes]; omega
  · apply within_writeEntries
    · intro f _
      exact ((entryOk_iff _ _ _).mp (layoutWf_field c h f)).2.2.2.2
    · unfold headerImage memWrite
      apply Cells.within_writeList _ _ _ _ (by rw [leBytes_length]; omega)
      exact Cells.within_writeList _ _ _ _ (by rw [leBytes_length]; omega) rfl

/-! The final image. -/

theorem buildFinal_eq (c : Config) (fwrap : Memory) (tf : TrailerFields) :
    buildFinal c fwrap tf
      = writeEntries (trailerEntry c.layout) (getTrailer tf) (Cells.take fwrap c.layout.pcbSize.toNat) ftbFieldsAll :=
  rfl

theorem wf_buildFinal (c : Config) (fwrap : Memory) (tf : TrailerFields) (h : Memory.wf fwrap = true) :
    Memory.wf (buildFinal c fwrap tf) = true :=
  wf_writeEntries _ _ _ _ (Cells.wf_take _ _ h)

theorem within_buildFinal (c : Config) (fwrap : Memory) (tf : TrailerFields) (h : layoutWf c = true) :
    Cells.within (buildFinal c fwrap tf) c.layout.totalSize.toNat = true := by
  rw [buildFinal_eq]
  apply within_writeEntries
  · intro t _
    exact ((entryOk_iff _ _ _).mp (layoutWf_trailer c h t)).2.2.2.2
  · have := layoutWf_total c h
    exact Cells.within_mono _ (by omega) (Cells.within_take _ _)

/-! The lookup table. -/

theorem read_tabulate (f : Nat → Byte) (n a : Nat) : Cells.read (tabulate f n) a = if a < n then f a else 0 := by
  unfold tabulate
  rw [Cells.read_writeList]
  simp only [List.length_map, List.length_range, Nat.zero_le, true_and, Nat.zero_add, Nat.sub_zero]
  split
  · rename_i h
    rw [List.getD_eq_getElem?_getD, List.getElem?_map, List.getElem?_range h]; rfl
  · rfl

theorem within_tabulate (f : Nat → Byte) (n : Nat) : Cells.within (tabulate f n) n = true :=
  Cells.within_writeList [] n 0 _ (by simp) rfl

/-- The cells of the table after one slot is mapped. -/
theorem read_mapSequence (i : Nat) (r : Regs) (k : Nat) :
    Cells.read (mapSequence i r).lutTab k
      = if 8 * i ≤ k ∧ k < 8 * i + 8 then seqRead r (k - 8 * i) else Cells.read r.lutTab k := by
  unfold mapSequence lutIndex seqRead
  rw [Cells.read_writeList]
  simp only [Vector.length_toList, Nat.add_zero]

end Sys2Proof.Machine
end

