-- ==== Sys2Proof/Laws/Words.lean ====
section
/-! SUPPORT. The bit fields of the words: an extracted field of a word put together from fields, a word put together
from its extracted fields, and the fields as numbers. -/

namespace Sys2Proof.Machine

theorem extract_append_low {n m : Nat} (a : BitVec n) (b : BitVec m) : (a ++ b).extractLsb' 0 m = b := by
  apply BitVec.eq_of_getLsbD_eq
  intro i hi
  simp [BitVec.getLsbD_append, hi]

theorem extract_append_high {n m : Nat} (a : BitVec n) (b : BitVec m) (k w : Nat) (h : m ≤ k) :
    (a ++ b).extractLsb' k w = a.extractLsb' (k - m) w := by
  apply BitVec.eq_of_getLsbD_eq
  intro i hi
  have h1 : ¬ k + i < m := by omega
  have h2 : k + i - m = k - m + i := by omega
  simp [BitVec.getLsbD_append, hi, h1, h2]

theorem extract_all {n : Nat} (a : BitVec n) : a.extractLsb' 0 n = a := by
  apply BitVec.eq_of_getLsbD_eq
  intro i hi
  simp [hi]

theorem eq_ofNat {n : Nat} (c : BitVec n) (k : Nat) (h : c.toNat = k) : c = BitVec.ofNat n k := by
  subst h; simp

theorem eq_zero_iff {n : Nat} (x : BitVec n) : x = 0 ↔ x.toNat = 0 := by
  rw [BitVec.toNat_eq]; rfl

/-! The command word. -/

section command
variable (v : Word) (r f2 f1 c : Byte) (w : DWord)

@[simp] theorem fieldCmd_append : fieldCmd (v ++ r ++ f2 ++ f1 ++ c) = c := extract_append_low _ _

@[simp] theorem fieldF1_append : fieldF1 (v ++ r ++ f2 ++ f1 ++ c) = f1 := by
  unfold fieldF1
  rw [extract_append_high _ _ _ _ (by omega)]
  exact extract_append_low _ _

@[simp] theorem fieldF2_append : fieldF2 (v ++ r ++ f2 ++ f1 ++ c) = f2 := by
  unfold fieldF2
  repeat rw [extract_append_high _ _ _ _ (by omega)]
  exact extract_append_low _ _

@[simp] theorem fieldRsv_append : fieldRsv (v ++ r ++ f2 ++ f1 ++ c) = r := by
  unfold fieldRsv
  repeat rw [extract_append_high _ _ _ _ (by omega)]
  exact extract_append_low _ _

@[simp] theorem fieldV_append : fieldV (v ++ r ++ f2 ++ f1 ++ c) = v := by
  unfold fieldV
  repeat rw [extract_append_high _ _ _ _ (by omega)]
  exact extract_all v

/-- A command word is its five fields. -/
theorem command_fields : fieldV w ++ fieldRsv w ++ fieldF2 w ++ fieldF1 w ++ fieldCmd w = w := by
  unfold fieldCmd fieldF1 fieldF2 fieldRsv fieldV
  apply BitVec.eq_of_getLsbD_eq
  intro i hi
  simp only [BitVec.getLsbD_append, BitVec.getLsbD_extractLsb']
  split <;> [skip; split <;> [skip; split <;> [skip; split]]] <;>
    (rw [decide_eq_true (by omega), Bool.true_and]; congr 1; omega)

theorem fieldCmd_toNat : (fieldCmd w).toNat = w.toNat % 2 ^ 8 := by
  simp [fieldCmd, BitVec.extractLsb'_toNat]

theorem fieldF1_toNat : (fieldF1 w).toNat = w.toNat / 2 ^ 8 % 2 ^ 8 := by
  simp [fieldF1, BitVec.extractLsb'_toNat, Nat.shiftRight_eq_div_pow]

theorem fieldF2_toNat : (fieldF2 w).toNat = w.toNat / 2 ^ 16 % 2 ^ 8 := by
  simp [fieldF2, BitVec.extractLsb'_toNat, Nat.shiftRight_eq_div_pow]

theorem fieldRsv_toNat : (fieldRsv w).toNat = w.toNat / 2 ^ 24 % 2 ^ 8 := by
  simp [fieldRsv, BitVec.extractLsb'_toNat, Nat.shiftRight_eq_div_pow]

theorem fieldV_toNat : (fieldV w).toNat = w.toNat / 2 ^ 32 := by
  have := w.isLt
  simp [fieldV, BitVec.extractLsb'_toNat, Nat.shiftRight_eq_div_pow]; omega

/-- A command word whose RSV is 0 is decoded from its other fields. -/
theorem decode_cmd64 (h : fieldRsv w = 0) :
    decode (.cmd64 w) = decodeCommand (fieldCmd w) (fieldF1 w) (fieldF2 w) (fieldV w) := if_pos h

/-- A command word whose RSV is not 0 is refused. -/
theorem decode_cmd64_reserved (h : fieldRsv w ≠ 0) : decode (.cmd64 w) = .error .reservedByteNotZero := if_neg h

/-- A command word put together from its fields is decoded from them. -/
theorem decode_commandWord : decode (commandWord c f1 f2 v) = decodeCommand c f1 f2 v := by
  unfold commandWord
  rw [decode_cmd64 _ (fieldRsv_append _ _ _ _ _)]
  simp only [fieldCmd_append, fieldF1_append, fieldF2_append, fieldV_append]

end command

/-- The test of the unused fields answers the instruction only when it holds. -/
theorem whenUnusedZero_eq_ok (u : Bool) (i j : Instr) : whenUnusedZero u i = .ok j ↔ u = true ∧ i = j := by
  cases u <;> simp [whenUnusedZero]

/-! The LUT instruction. -/

section lut
variable (o : BitVec 6) (p : BitVec 2) (d : Byte) (w : Half)

@[simp] theorem lutOpcode_append : lutOpcode (o ++ p ++ d) = o := by
  unfold lutOpcode
  repeat rw [extract_append_high _ _ _ _ (by omega)]
  exact extract_all o

@[simp] theorem lutPads_append : lutPads (o ++ p ++ d) = p := by
  unfold lutPads
  rw [extract_append_high _ _ _ _ (by omega)]
  exact extract_append_low _ _

@[simp] theorem lutOperand_append : lutOperand (o ++ p ++ d) = d := extract_append_low _ _

/-- A LUT instruction is its three fields. -/
theorem lut_fields : lutOpcode w ++ lutPads w ++ lutOperand w = w := by
  unfold lutOpcode lutPads lutOperand
  apply BitVec.eq_of_getLsbD_eq
  intro i hi
  simp only [BitVec.getLsbD_append, BitVec.getLsbD_extractLsb']
  split <;> [skip; split] <;> (rw [decide_eq_true (by omega), Bool.true_and]; congr 1; omega)

/-- A LUT instruction put together from its fields is decoded from them. -/
theorem decode_lutWord : decode (lutWord o p d) = decodeOpcode o p d := by
  simp only [decode, lutWord, lutOpcode_append, lutPads_append, lutOperand_append]

theorem lutWord_toNat : (o ++ p ++ d).toNat = o.toNat * 1024 + p.toNat * 256 + d.toNat := by
  simp only [BitVec.toNat_append]
  rw [← Nat.shiftLeft_add_eq_or_of_lt p.isLt, ← Nat.shiftLeft_add_eq_or_of_lt d.isLt]
  simp only [Nat.shiftLeft_eq]; omega

end lut

/-! The packed instruction. -/

/-- A packed legal triple is its three fields. -/
theorem packInstr_eq_append (o p : Byte) (d : Word) (ho : o.toNat < 64) (hp : p.toNat < 4) (hd : d.toNat < 256) :
    packInstr o p d = o.setWidth 6 ++ p.setWidth 2 ++ d.setWidth 8 := by
  apply BitVec.eq_of_getLsbD_eq
  intro i hi
  have h1 : ∀ k, 6 ≤ k → o.getLsbD k = false := fun k hk => by
    rw [BitVec.getLsbD, Nat.testBit_lt_two_pow]
    exact lt_of_lt_of_le ho (Nat.pow_le_pow_right (n := 2) (by omega) hk)
  have h2 : ∀ k, 2 ≤ k → p.getLsbD k = false := fun k hk => by
    rw [BitVec.getLsbD, Nat.testBit_lt_two_pow]
    exact lt_of_lt_of_le hp (Nat.pow_le_pow_right (n := 2) (by omega) hk)
  have h3 : ∀ k, 8 ≤ k → d.getLsbD k = false := fun k hk => by
    rw [BitVec.getLsbD, Nat.testBit_lt_two_pow]
    exact lt_of_lt_of_le hd (Nat.pow_le_pow_right (n := 2) (by omega) hk)
  simp only [packInstr, BitVec.getLsbD_or, BitVec.getLsbD_shiftLeft, BitVec.getLsbD_setWidth, BitVec.getLsbD_append,
    hi, decide_true, Bool.true_and]
  by_cases a : i < 8
  · simp [a, show i < 10 by omega]
  · by_cases b : i < 10
    · simp [a, b, h3 i (by omega), show i - 8 < 2 by omega, show i - 8 < 16 by omega]
    · simp [a, b, h3 i (by omega), h2 (i - 8) (by omega), show ¬ i - 8 < 2 by omega, show i - 10 < 16 by omega,
        show i - 8 - 2 = i - 10 by omega]
      intro _; omega

theorem packInstr_toNat (o p : Byte) (d : Word) (ho : o.toNat < 64) (hp : p.toNat < 4) (hd : d.toNat < 256) :
    (packInstr o p d).toNat = o.toNat * 1024 + p.toNat * 256 + d.toNat := by
  rw [packInstr_eq_append o p d ho hp hd, lutWord_toNat]
  simp only [BitVec.toNat_setWidth]; omega

/-! The response word. -/

@[simp] theorem responseWord_status (d : Word) (c : Byte) : (responseWord d c).extractLsb' 0 8 = c :=
  extract_append_low _ _

@[simp] theorem responseWord_zero (d : Word) (c : Byte) : (responseWord d c).extractLsb' 8 24 = 0 := by
  unfold responseWord
  rw [extract_append_high _ _ _ _ (by omega)]
  exact extract_append_low _ _

@[simp] theorem responseWord_data (d : Word) (c : Byte) : (responseWord d c).extractLsb' 32 32 = d := by
  unfold responseWord
  repeat rw [extract_append_high _ _ _ _ (by omega)]
  exact extract_all d

end Sys2Proof.Machine
end

