-- ==== Sys2Proof/Laws/PerInstr.lean ====
section
/-! SUPPORT. The statements made instruction by instruction. MatchesTable: the word an instruction is encoded as has the
bits its row of spec/opcode_table.json fixes, at the row's width. -/

namespace Sys2Proof.Laws.MatchesTable

open Sys2Proof Sys2Proof.Machine

/-- A row of spec/opcode_table.json: its width in bits, its mask and its match. -/
structure Row where
  bits : Nat
  mask : Nat
  value : Nat

/-- The row of an instruction, in the table's order. -/
def row (i : Instr) : Row :=
  match i with
  | .stop _ _ => ⟨16, 0xFC00, 0x0000⟩
  | .jmpOnCs _ _ => ⟨16, 0xFC00, 0x7C00⟩
  | .cmdSdr _ _ => ⟨16, 0xFC00, 0x0400⟩
  | .cmdDdr _ _ => ⟨16, 0xFC00, 0x8400⟩
  | .raddrSdr _ _ => ⟨16, 0xFC00, 0x0800⟩
  | .raddrDdr _ _ => ⟨16, 0xFC00, 0x8800⟩
  | .caddrSdr _ _ => ⟨16, 0xFC00, 0x0C00⟩
  | .caddrDdr _ _ => ⟨16, 0xFC00, 0x8C00⟩
  | .mode1Sdr _ _ => ⟨16, 0xFC00, 0x1000⟩
  | .mode1Ddr _ _ => ⟨16, 0xFC00, 0x9000⟩
  | .mode2Sdr _ _ => ⟨16, 0xFC00, 0x1400⟩
  | .mode2Ddr _ _ => ⟨16, 0xFC00, 0x9400⟩
  | .mode4Sdr _ _ => ⟨16, 0xFC00, 0x1800⟩
  | .mode4Ddr _ _ => ⟨16, 0xFC00, 0x9800⟩
  | .mode8Sdr _ _ => ⟨16, 0xFC00, 0x1C00⟩
  | .mode8Ddr _ _ => ⟨16, 0xFC00, 0x9C00⟩
  | .writeSdr _ _ => ⟨16, 0xFC00, 0x2000⟩
  | .writeDdr _ _ => ⟨16, 0xFC00, 0xA000⟩
  | .readSdr _ _ => ⟨16, 0xFC00, 0x2400⟩
  | .readDdr _ _ => ⟨16, 0xFC00, 0xA400⟩
  | .learnSdr _ _ => ⟨16, 0xFC00, 0x2800⟩
  | .learnDdr _ _ => ⟨16, 0xFC00, 0xA800⟩
  | .datszSdr _ _ => ⟨16, 0xFC00, 0x2C00⟩
  | .datszDdr _ _ => ⟨16, 0xFC00, 0xAC00⟩
  | .dummySdr _ _ => ⟨16, 0xFC00, 0x3000⟩
  | .dummyDdr _ _ => ⟨16, 0xFC00, 0xB000⟩
  | .dummyRwdsSdr _ _ => ⟨16, 0xFC00, 0x3400⟩
  | .dummyRwdsDdr _ _ => ⟨16, 0xFC00, 0xB400⟩
  | .nop => ⟨64, 0xFFFFFFFFFFFFFFFF, 0x0000000000000000⟩
  | .enc _ _ _ => ⟨64, 0x00000000FF0000FF, 0x0000000000000001⟩
  | .status => ⟨64, 0xFFFFFFFFFFFFFFFF, 0x0000000000000002⟩
  | .info => ⟨64, 0xFFFFFFFFFFFFFFFF, 0x0000000000000003⟩
  | .rdResult => ⟨64, 0xFFFFFFFFFFFFFFFF, 0x0000000000000004⟩
  | .seqClear => ⟨64, 0xFFFFFFFFFFFFFFFF, 0x0000000000000010⟩
  | .seqPush _ _ _ => ⟨64, 0x00000000FF0000FF, 0x0000000000000011⟩
  | .seqRead _ => ⟨64, 0xFFFFFFFFFFFF00FF, 0x0000000000000012⟩
  | .lutClear => ⟨64, 0xFFFFFFFFFFFFFFFF, 0x0000000000000020⟩
  | .lutSet _ => ⟨64, 0xFFFFFFFFFFFF00FF, 0x0000000000000021⟩
  | .lutRead _ => ⟨64, 0x00000000FFFFFFFF, 0x0000000000000022⟩
  | .pcbClear => ⟨64, 0xFFFFFFFFFFFFFFFF, 0x0000000000000030⟩
  | .pcbSet _ _ => ⟨64, 0x00000000FFFF00FF, 0x0000000000000031⟩
  | .pcbLoadLut => ⟨64, 0xFFFFFFFFFFFFFFFF, 0x0000000000000032⟩
  | .pcbFinalize => ⟨64, 0xFFFFFFFFFFFFFFFF, 0x0000000000000033⟩
  | .pcbRead _ => ⟨64, 0x00000000FFFFFFFF, 0x0000000000000034⟩
  | .ftbClear => ⟨64, 0xFFFFFFFFFFFFFFFF, 0x0000000000000040⟩
  | .ftbWrap => ⟨64, 0xFFFFFFFFFFFFFFFF, 0x0000000000000041⟩
  | .ftbSet _ _ => ⟨64, 0x00000000FFFF00FF, 0x0000000000000042⟩
  | .ftbFinalize => ⟨64, 0xFFFFFFFFFFFFFFFF, 0x0000000000000043⟩
  | .outRead _ => ⟨64, 0x00000000FFFFFFFF, 0x0000000000000050⟩
  | .outRead32 _ => ⟨64, 0x00000000FFFFFFFF, 0x0000000000000051⟩

/-- The word is as wide as the row and has its fixed bits. -/
def fits (x : InstrWord) (r : Row) : Prop :=
  match x with
  | .lut16 w => r.bits = 16 ∧ w &&& BitVec.ofNat 16 r.mask = BitVec.ofNat 16 r.value
  | .cmd64 w => r.bits = 64 ∧ w &&& BitVec.ofNat 64 r.mask = BitVec.ofNat 64 r.value

/-- The instruction's word has the bits its row fixes. -/
def Statement (i : Instr) : Prop := fits (encode i) (row i)

theorem and_append {n m : Nat} (a c : BitVec n) (b d : BitVec m) : (a ++ b) &&& (c ++ d) = (a &&& c) ++ (b &&& d) := by
  apply BitVec.eq_of_getLsbD_eq
  intro i hi
  simp only [BitVec.getLsbD_and, BitVec.getLsbD_append]
  split <;> rfl

theorem lutWord_fits (o : BitVec 6) (p : BitVec 2) (d : Byte) (v : Nat)
    (h : BitVec.ofNat 16 v = o ++ (0 : BitVec 2) ++ (0 : Byte)) : fits (lutWord o p d) ⟨16, 0xFC00, v⟩ := by
  refine ⟨rfl, ?_⟩
  have hm : BitVec.ofNat 16 0xFC00 = BitVec.allOnes 6 ++ (0 : BitVec 2) ++ (0 : Byte) := by decide
  rw [hm, and_append, and_append, BitVec.and_allOnes, h]
  simp

/-- The mask of a field: all of it or nothing. -/
def maskOf (n : Nat) (b : Bool) : BitVec n := if b then BitVec.allOnes n else 0

theorem commandWord_fits (c f1 f2 : Byte) (v : Word) (m1 m2 mv : Bool) (mask : Nat)
    (hm : BitVec.ofNat 64 mask = maskOf 32 mv ++ maskOf 8 true ++ maskOf 8 m2 ++ maskOf 8 m1 ++ maskOf 8 true)
    (h1 : m1 = true → f1 = 0) (h2 : m2 = true → f2 = 0) (hv : mv = true → v = 0) :
    fits (commandWord c f1 f2 v) ⟨64, mask, c.toNat⟩ := by
  refine ⟨rfl, ?_⟩
  have e : ∀ (n : Nat) (x : BitVec n) (b : Bool), (b = true → x = 0) → x &&& maskOf n b = 0 := by
    intro n x b hx
    cases b
    · simp [maskOf]
    · simp [maskOf, hx rfl]
  have et : ∀ (n : Nat) (x : BitVec n), x &&& maskOf n true = x := by
    intro n x; simp [maskOf]
  have ev : BitVec.ofNat 64 c.toNat = (0 : Word) ++ (0 : Byte) ++ (0 : Byte) ++ (0 : Byte) ++ c := by
    apply BitVec.eq_of_toNat_eq
    have := c.isLt
    simp only [BitVec.toNat_append, BitVec.toNat_ofNat]
    simp
    omega
  rw [hm, and_append, and_append, and_append, and_append, et, et, e 32 v mv hv, e 8 f2 m2 h2, e 8 f1 m1 h1, ev]

theorem stop (p : BitVec 2) (d : Byte) : Statement (.stop p d) := lutWord_fits _ _ _ _ (by decide)
theorem jmpOnCs (p : BitVec 2) (d : Byte) : Statement (.jmpOnCs p d) := lutWord_fits _ _ _ _ (by decide)
theorem cmdSdr (p : BitVec 2) (d : Byte) : Statement (.cmdSdr p d) := lutWord_fits _ _ _ _ (by decide)
theorem cmdDdr (p : BitVec 2) (d : Byte) : Statement (.cmdDdr p d) := lutWord_fits _ _ _ _ (by decide)
theorem raddrSdr (p : BitVec 2) (d : Byte) : Statement (.raddrSdr p d) := lutWord_fits _ _ _ _ (by decide)
theorem raddrDdr (p : BitVec 2) (d : Byte) : Statement (.raddrDdr p d) := lutWord_fits _ _ _ _ (by decide)
theorem caddrSdr (p : BitVec 2) (d : Byte) : Statement (.caddrSdr p d) := lutWord_fits _ _ _ _ (by decide)
theorem caddrDdr (p : BitVec 2) (d : Byte) : Statement (.caddrDdr p d) := lutWord_fits _ _ _ _ (by decide)
theorem mode1Sdr (p : BitVec 2) (d : Byte) : Statement (.mode1Sdr p d) := lutWord_fits _ _ _ _ (by decide)
theorem mode1Ddr (p : BitVec 2) (d : Byte) : Statement (.mode1Ddr p d) := lutWord_fits _ _ _ _ (by decide)
theorem mode2Sdr (p : BitVec 2) (d : Byte) : Statement (.mode2Sdr p d) := lutWord_fits _ _ _ _ (by decide)
theorem mode2Ddr (p : BitVec 2) (d : Byte) : Statement (.mode2Ddr p d) := lutWord_fits _ _ _ _ (by decide)
theorem mode4Sdr (p : BitVec 2) (d : Byte) : Statement (.mode4Sdr p d) := lutWord_fits _ _ _ _ (by decide)
theorem mode4Ddr (p : BitVec 2) (d : Byte) : Statement (.mode4Ddr p d) := lutWord_fits _ _ _ _ (by decide)
theorem mode8Sdr (p : BitVec 2) (d : Byte) : Statement (.mode8Sdr p d) := lutWord_fits _ _ _ _ (by decide)
theorem mode8Ddr (p : BitVec 2) (d : Byte) : Statement (.mode8Ddr p d) := lutWord_fits _ _ _ _ (by decide)
theorem writeSdr (p : BitVec 2) (d : Byte) : Statement (.writeSdr p d) := lutWord_fits _ _ _ _ (by decide)
theorem writeDdr (p : BitVec 2) (d : Byte) : Statement (.writeDdr p d) := lutWord_fits _ _ _ _ (by decide)
theorem readSdr (p : BitVec 2) (d : Byte) : Statement (.readSdr p d) := lutWord_fits _ _ _ _ (by decide)
theorem readDdr (p : BitVec 2) (d : Byte) : Statement (.readDdr p d) := lutWord_fits _ _ _ _ (by decide)
theorem learnSdr (p : BitVec 2) (d : Byte) : Statement (.learnSdr p d) := lutWord_fits _ _ _ _ (by decide)
theorem learnDdr (p : BitVec 2) (d : Byte) : Statement (.learnDdr p d) := lutWord_fits _ _ _ _ (by decide)
theorem datszSdr (p : BitVec 2) (d : Byte) : Statement (.datszSdr p d) := lutWord_fits _ _ _ _ (by decide)
theorem datszDdr (p : BitVec 2) (d : Byte) : Statement (.datszDdr p d) := lutWord_fits _ _ _ _ (by decide)
theorem dummySdr (p : BitVec 2) (d : Byte) : Statement (.dummySdr p d) := lutWord_fits _ _ _ _ (by decide)
theorem dummyDdr (p : BitVec 2) (d : Byte) : Statement (.dummyDdr p d) := lutWord_fits _ _ _ _ (by decide)
theorem dummyRwdsSdr (p : BitVec 2) (d : Byte) : Statement (.dummyRwdsSdr p d) := lutWord_fits _ _ _ _ (by decide)
theorem dummyRwdsDdr (p : BitVec 2) (d : Byte) : Statement (.dummyRwdsDdr p d) := lutWord_fits _ _ _ _ (by decide)
theorem nop : Statement .nop := commandWord_fits _ _ _ _ true true true _ (by decide) (by simp) (by simp) (by simp)
theorem enc (o p : Byte) (d : Word) : Statement (.enc o p d) :=
  commandWord_fits _ _ _ _ false false false _ (by decide) (by simp) (by simp) (by simp)
theorem status : Statement .status :=
  commandWord_fits _ _ _ _ true true true _ (by decide) (by simp) (by simp) (by simp)
theorem info : Statement .info := commandWord_fits _ _ _ _ true true true _ (by decide) (by simp) (by simp) (by simp)
theorem rdResult : Statement .rdResult :=
  commandWord_fits _ _ _ _ true true true _ (by decide) (by simp) (by simp) (by simp)
theorem seqClear : Statement .seqClear :=
  commandWord_fits _ _ _ _ true true true _ (by decide) (by simp) (by simp) (by simp)
theorem seqPush (o p : Byte) (d : Word) : Statement (.seqPush o p d) :=
  commandWord_fits _ _ _ _ false false false _ (by decide) (by simp) (by simp) (by simp)
theorem seqRead (f : Byte) : Statement (.seqRead f) :=
  commandWord_fits _ _ _ _ false true true _ (by decide) (by simp) (by simp) (by simp)
theorem lutClear : Statement .lutClear :=
  commandWord_fits _ _ _ _ true true true _ (by decide) (by simp) (by simp) (by simp)
theorem lutSet (f : Byte) : Statement (.lutSet f) :=
  commandWord_fits _ _ _ _ false true true _ (by decide) (by simp) (by simp) (by simp)
theorem lutRead (v : Word) : Statement (.lutRead v) :=
  commandWord_fits _ _ _ _ true true false _ (by decide) (by simp) (by simp) (by simp)
theorem pcbClear : Statement .pcbClear :=
  commandWord_fits _ _ _ _ true true true _ (by decide) (by simp) (by simp) (by simp)
theorem pcbSet (f : Byte) (v : Word) : Statement (.pcbSet f v) :=
  commandWord_fits _ _ _ _ false true false _ (by decide) (by simp) (by simp) (by simp)
theorem pcbLoadLut : Statement .pcbLoadLut :=
  commandWord_fits _ _ _ _ true true true _ (by decide) (by simp) (by simp) (by simp)
theorem pcbFinalize : Statement .pcbFinalize :=
  commandWord_fits _ _ _ _ true true true _ (by decide) (by simp) (by simp) (by simp)
theorem pcbRead (v : Word) : Statement (.pcbRead v) :=
  commandWord_fits _ _ _ _ true true false _ (by decide) (by simp) (by simp) (by simp)
theorem ftbClear : Statement .ftbClear :=
  commandWord_fits _ _ _ _ true true true _ (by decide) (by simp) (by simp) (by simp)
theorem ftbWrap : Statement .ftbWrap :=
  commandWord_fits _ _ _ _ true true true _ (by decide) (by simp) (by simp) (by simp)
theorem ftbSet (f : Byte) (v : Word) : Statement (.ftbSet f v) :=
  commandWord_fits _ _ _ _ false true false _ (by decide) (by simp) (by simp) (by simp)
theorem ftbFinalize : Statement .ftbFinalize :=
  commandWord_fits _ _ _ _ true true true _ (by decide) (by simp) (by simp) (by simp)
theorem outRead (v : Word) : Statement (.outRead v) :=
  commandWord_fits _ _ _ _ true true false _ (by decide) (by simp) (by simp) (by simp)
theorem outRead32 (v : Word) : Statement (.outRead32 v) :=
  commandWord_fits _ _ _ _ true true false _ (by decide) (by simp) (by simp) (by simp)

end Sys2Proof.Laws.MatchesTable
end

