-- ==== Sys2Proof/Tests/Slice0.lean ====
section
/-! SUPPORT. The model's own tests, each a named theorem: every constructor decoded from a word of the spec, the
ill-formed terms and words the checks refuse, one step on a small state for each command, and the states that meet the
hypotheses of the obligations. Every expected value is taken from spec/95_test_vectors.md or worked out by hand from the
rule named; none is the model's own answer. -/

namespace Sys2Proof.Tests

open Sys2Proof Sys2Proof.Machine

/-- The state after reset with other registers. -/
def holding (r : Regs) : State := State.reset.withRegs r

/-- The state after reset under another CONFIG. -/
def underConfig (c : Config) (r : Regs) : State := { State.reset with cfg := c, regs := r }

/-- The state after one step on one presented word. -/
def afterStep (s : State) (nbits w : Nat) : Option State :=
  match step (s.withFetchWord nbits w) with
  | .next t => some t
  | .fault _ => none
  | .refused _ => none

/-- The step on the command word `w` answers with this status and this data word (spec/30_encoding.md R101). -/
def answers (s : State) (w status data : Nat) : Bool :=
  (afterStep s 64 w).map State.response == some (some (BitVec.ofNat 64 (data * 2 ^ 32 + status)))

/-- The registers after the step on the command word `w`. -/
def regsAfter (s : State) (w : Nat) : Option Regs := (afterStep s 64 w).map State.regs

/-! ## Decoding: every constructor from a word of the spec (95_test_vectors.md section 2.1: pad class 3, operand 0xFF) -/

theorem test_decode_stop : decodeTableWord 16 0x03FF = some (.stop 3 0xFF) := by decide
theorem test_decode_jmpOnCs : decodeTableWord 16 0x7FFF = some (.jmpOnCs 3 0xFF) := by decide
theorem test_decode_cmdSdr : decodeTableWord 16 0x07FF = some (.cmdSdr 3 0xFF) := by decide
theorem test_decode_cmdDdr : decodeTableWord 16 0x87FF = some (.cmdDdr 3 0xFF) := by decide
theorem test_decode_raddrSdr : decodeTableWord 16 0x0BFF = some (.raddrSdr 3 0xFF) := by decide
theorem test_decode_raddrDdr : decodeTableWord 16 0x8BFF = some (.raddrDdr 3 0xFF) := by decide
theorem test_decode_caddrSdr : decodeTableWord 16 0x0FFF = some (.caddrSdr 3 0xFF) := by decide
theorem test_decode_caddrDdr : decodeTableWord 16 0x8FFF = some (.caddrDdr 3 0xFF) := by decide
theorem test_decode_mode1Sdr : decodeTableWord 16 0x13FF = some (.mode1Sdr 3 0xFF) := by decide
theorem test_decode_mode1Ddr : decodeTableWord 16 0x93FF = some (.mode1Ddr 3 0xFF) := by decide
theorem test_decode_mode2Sdr : decodeTableWord 16 0x17FF = some (.mode2Sdr 3 0xFF) := by decide
theorem test_decode_mode2Ddr : decodeTableWord 16 0x97FF = some (.mode2Ddr 3 0xFF) := by decide
theorem test_decode_mode4Sdr : decodeTableWord 16 0x1BFF = some (.mode4Sdr 3 0xFF) := by decide
theorem test_decode_mode4Ddr : decodeTableWord 16 0x9BFF = some (.mode4Ddr 3 0xFF) := by decide
theorem test_decode_mode8Sdr : decodeTableWord 16 0x1FFF = some (.mode8Sdr 3 0xFF) := by decide
theorem test_decode_mode8Ddr : decodeTableWord 16 0x9FFF = some (.mode8Ddr 3 0xFF) := by decide
theorem test_decode_writeSdr : decodeTableWord 16 0x23FF = some (.writeSdr 3 0xFF) := by decide
theorem test_decode_writeDdr : decodeTableWord 16 0xA3FF = some (.writeDdr 3 0xFF) := by decide
theorem test_decode_readSdr : decodeTableWord 16 0x27FF = some (.readSdr 3 0xFF) := by decide
theorem test_decode_readDdr : decodeTableWord 16 0xA7FF = some (.readDdr 3 0xFF) := by decide
theorem test_decode_learnSdr : decodeTableWord 16 0x2BFF = some (.learnSdr 3 0xFF) := by decide
theorem test_decode_learnDdr : decodeTableWord 16 0xABFF = some (.learnDdr 3 0xFF) := by decide
theorem test_decode_datszSdr : decodeTableWord 16 0x2FFF = some (.datszSdr 3 0xFF) := by decide
theorem test_decode_datszDdr : decodeTableWord 16 0xAFFF = some (.datszDdr 3 0xFF) := by decide
theorem test_decode_dummySdr : decodeTableWord 16 0x33FF = some (.dummySdr 3 0xFF) := by decide
theorem test_decode_dummyDdr : decodeTableWord 16 0xB3FF = some (.dummyDdr 3 0xFF) := by decide
theorem test_decode_dummyRwdsSdr : decodeTableWord 16 0x37FF = some (.dummyRwdsSdr 3 0xFF) := by decide
theorem test_decode_dummyRwdsDdr : decodeTableWord 16 0xB7FF = some (.dummyRwdsDdr 3 0xFF) := by decide

/-! The command words of sections 2.1 to 2.7 and of 30_encoding.md R112. -/

theorem test_decode_nop : decodeTableWord 64 0x0000000000000000 = some .nop := by decide
theorem test_decode_enc : decodeTableWord 64 0x000000EB00000101 = some (.enc 0x01 0x00 0xEB) := by decide
theorem test_decode_status : decodeTableWord 64 0x0000000000000002 = some .status := by decide
theorem test_decode_info : decodeTableWord 64 0x0000000000000003 = some .info := by decide
theorem test_decode_rdResult : decodeTableWord 64 0x0000000000000004 = some .rdResult := by decide
theorem test_decode_seqClear : decodeTableWord 64 0x0000000000000010 = some .seqClear := by decide
theorem test_decode_seqPush : decodeTableWord 64 0x0000001800020211 = some (.seqPush 0x02 0x02 0x18) := by decide
theorem test_decode_seqRead : decodeTableWord 64 0x0000000000000712 = some (.seqRead 0x07) := by decide
theorem test_decode_lutClear : decodeTableWord 64 0x0000000000000020 = some .lutClear := by decide
theorem test_decode_lutSet : decodeTableWord 64 0x0000000000008F21 = some (.lutSet 0x8F) := by decide
theorem test_decode_lutRead : decodeTableWord 64 0x000000FF00000022 = some (.lutRead 0xFF) := by decide
theorem test_decode_pcbClear : decodeTableWord 64 0x0000000000000030 = some .pcbClear := by decide
theorem test_decode_pcbSet : decodeTableWord 64 0x000000A600000B31 = some (.pcbSet 0x0B 166) := by decide
theorem test_decode_pcbLoadLut : decodeTableWord 64 0x0000000000000032 = some .pcbLoadLut := by decide
theorem test_decode_pcbFinalize : decodeTableWord 64 0x0000000000000033 = some .pcbFinalize := by decide
theorem test_decode_pcbRead : decodeTableWord 64 0x000001BF00000034 = some (.pcbRead 0x1BF) := by decide
theorem test_decode_ftbClear : decodeTableWord 64 0x0000000000000040 = some .ftbClear := by decide
theorem test_decode_ftbWrap : decodeTableWord 64 0x0000000000000041 = some .ftbWrap := by decide
theorem test_decode_ftbSet : decodeTableWord 64 0x0004000000000242 = some (.ftbSet 0x02 0x40000) := by decide
theorem test_decode_ftbFinalize : decodeTableWord 64 0x0000000000000043 = some .ftbFinalize := by decide
theorem test_decode_outRead : decodeTableWord 64 0x000001FF00000050 = some (.outRead 0x1FF) := by decide
theorem test_decode_outRead32 : decodeTableWord 64 0x000001C400000051 = some (.outRead32 0x1C4) := by decide

/-- The pad counts of the four pad classes (30_encoding.md R92). -/
theorem test_padCount : [0, 1, 2, 3].map padCount = [1, 2, 4, 8] := by decide

/-! ## What the checks refuse -/

/-- The range of a PCB_SET field id (R107). -/
theorem test_wellFormed_refuses_pcbSet :
    (Instr.pcbSet 0x00 0).wellFormed = false ∧ (Instr.pcbSet 0x10 0).wellFormed = false
      ∧ (Instr.pcbSet 0x01 0).wellFormed = true ∧ (Instr.pcbSet 0x0F 0).wellFormed = true := by decide

/-- The range of an FTB_SET field id (R108). -/
theorem test_wellFormed_refuses_ftbSet :
    (Instr.ftbSet 0x00 1).wellFormed = false ∧ (Instr.ftbSet 0x04 1).wellFormed = false
      ∧ (Instr.ftbSet 0x01 1).wellFormed = true ∧ (Instr.ftbSet 0x03 1).wellFormed = true := by decide

/-- The decoder's rejections, by name (R95, R103, R109). -/
theorem test_decode_rejects :
    decode (.cmd64 0x0000000000000005) = .error .reservedCommand
      ∧ decode (.cmd64 0x00000000000000FF) = .error .reservedCommand
      ∧ decode (.cmd64 0x0000000001000000) = .error .reservedByteNotZero
      ∧ decode (.cmd64 0x00000000FF000101) = .error .reservedByteNotZero
      ∧ decode (.cmd64 0x0000000000000100) = .error .unusedFieldNotZero
      ∧ decode (.cmd64 0x0000000000010121) = .error .unusedFieldNotZero
      ∧ decode (.lut16 0x3800) = .error .reservedOpcode ∧ decode (.lut16 0x8000) = .error .reservedOpcode
      ∧ decode (.lut16 0xFC00) = .error .reservedOpcode := by decide

/-- The ill-formed words of 95_test_vectors.md section 2.7 are answered InvalidCommand and change no register. -/
theorem test_illFormed_words :
    [0x0000000000000100, 0x0000000001000000, 0x0000000100000000, 0x0000000000000005, 0x0000000000000013,
      0x00000000000000FF, 0x0000000000010010, 0x0000000000010121, 0x0000000100000121, 0x0000000000010B31,
      0x00000000FF000101, 0x0000000000000150, 0x0000000000000812].all
        (fun w => answers State.reset w 5 0 && regsAfter State.reset w == some regsReset) = true := by decide

/-! ## One step of each command (95_test_vectors.md sections 2.1 to 2.7) -/

theorem test_nop : answers State.reset 0x0000000000000000 0 0 = true := by decide

theorem test_enc : answers State.reset 0x0000000400032901 0 0xA704 = true := by decide

/-- Section 2.1: an operand of 0x100, a raw pad class of 4, an opcode outside six bits and three reserved opcodes are
rejected, and RESULT keeps its value. -/
theorem test_enc_rejects :
    [0x0000010000000101, 0x0000000000040101, 0x0000000000004001, 0x0000000000003F01, 0x0000000000000E01,
      0x0000000000002001].all (fun w =>
        let s := holding { regsReset with result := 0x04EB }
        answers s w 1 0 && (regsAfter s w).map Regs.result == some 0x04EB) = true := by decide

/-- Section 2.1, both columns of every opcode, by ENC; the packed word is also what the LUT instruction on its own
leaves in RESULT (log 5). -/
theorem test_lut_rows :
    lutRows.all (fun row =>
      let word (p d : Nat) := d * 2 ^ 32 + p * 2 ^ 16 + row.opcode.toNat * 2 ^ 8 + 0x01
      let low := row.opcode.toNat * 2 ^ 10
      answers State.reset (word 0 0x00) 0 low && answers State.reset (word 3 0xFF) 0 (low + 0x3FF)
        && (afterStep State.reset 16 (low + 0x3FF)).map (fun t => t.regs.result)
            == some (BitVec.ofNat 16 (low + 0x3FF))) = true := by decide

/-- Section 2.3 of the spec's status and info words: each sticky register in its own byte. -/
theorem test_status :
    answers (holding { regsReset with seqErr := 1, lutErr := 2, pcbErr := 4, ftbErr := 3 }) 0x02 0 0x03040201 = true := by
  decide

/-- The end of program P3 reads 0xFF1, P5 after FTB_WRAP 0x7F1, the end of P2 0x71. -/
theorem test_info :
    (let p2 := { regsReset with seqK := 1, pcbLutSet := true, pfSclkSet := true, pcbValid := true }
     let p5 := { p2 with ftbWrapped := true, tfSet := 7 }
     answers (holding p2) 0x03 0 0x71 && answers (holding p5) 0x03 0 0x7F1
       && answers (holding { p5 with outValid := true }) 0x03 0 0xFF1) = true := by decide

theorem test_rdResult : answers (holding { regsReset with result := 0x04EB }) 0x04 0 0x4EB = true := by decide

theorem test_seqClear :
    regsAfter (holding { regsReset with seqSlot := #v[1, 2, 3, 4, 5, 6, 7, 8], seqK := 8, seqErr := 2 }) 0x10
      = some regsReset := by decide

theorem test_seqPush :
    answers State.reset 0x0000000600000111 0 1 = true
      ∧ (regsAfter State.reset 0x0000000600000111).map (fun r => (r.seqSlot, r.seqK))
          = some (#v[0x0406, 0, 0, 0, 0, 0, 0, 0], 1) := by decide

/-- A ninth push overflows although its own opcode is illegal as well (60_exceptions.md R316). -/
theorem test_seqPush_ninth :
    answers (holding { regsReset with seqK := 8 }) 0x0000000000004011 2 0 = true
      ∧ (regsAfter (holding { regsReset with seqK := 8 }) 0x0000000000004011).map Regs.seqErr = some 2 := by decide

theorem test_seqRead :
    answers (holding { regsReset with seqSlot := #v[1, 2, 3, 4, 5, 6, 7, 0x0406] }) 0x0712 0 0x406 = true
      ∧ answers State.reset 0x0812 5 0 = true := by decide

theorem test_lutClear : regsAfter (holding { regsReset with lutTab := [(3, 5)], lutErr := 4 }) 0x20 = some regsReset := by
  decide

/-- WriteEnable is slot 3: the one instruction of the sequence comes to index 24 of the table. -/
theorem test_lutSet :
    answers (holding { regsReset with seqSlot := #v[0x0406, 0, 0, 0, 0, 0, 0, 0] }) 0x0321 0 3 = true
      ∧ (regsAfter (holding { regsReset with seqSlot := #v[0x0406, 0, 0, 0, 0, 0, 0, 0] }) 0x0321).map Regs.lutTab
          = some [(24, 0x0406)] := by decide

/-- Section 2.3: selectors that name no Command, and the last Custom slot. -/
theorem test_lutSet_selectors :
    [0x00, 0x07, 0x7F, 0x80, 0x81, 0x83, 0x85, 0x89, 0x8B, 0x90, 0xFF].all
        (fun f => answers State.reset (f * 256 + 0x21) 1 0) = true
      ∧ answers State.reset 0x8F21 0 0xF = true := by decide

/-- The operand byte of an instruction lies lower (20_memory.md R63). -/
theorem test_lutRead :
    answers (holding { regsReset with lutTab := [(24, 0x0406)] }) 0x0000003000000022 0 0x06 = true
      ∧ answers (holding { regsReset with lutTab := [(24, 0x0406)] }) 0x0000003100000022 0 0x04 = true
      ∧ answers State.reset 0x0000010000000022 5 0 = true := by decide

theorem test_pcbClear :
    regsAfter (holding { regsReset with pf := { pcbFieldsReset with sclk := 9, csHold := 0 }, pcbLut := [(1, 2)]
                                        pcbErr := 4, pimg := [(0, 1)], pcbValid := true }) 0x30 = some regsReset := by
  decide

/-- The legal bounds of section 2.4 by their words. -/
theorem test_pcbSet :
    [0x0000000300000131, 0x000000FF00000231, 0x0000000000000331, 0x0000000C00000431, 0x0000000100000531,
      0x00000F0100000631, 0xFFFFFFFF00000731, 0x0000FFFF00000831, 0x0000000200000931, 0x0000000800000A31,
      0x000000A600000B31, 0xFFFFFFFF00000C31, 0x0000000000000D31, 0x0000100000000E31, 0x0000000100000F31].all
        (fun w => answers State.reset w 0 0) = true
      ∧ (regsAfter State.reset 0x000000A600000B31).map (fun r => (r.pf.sclk, r.pfSclkSet)) = some (9, true) := by decide

/-- The illegal bounds of section 2.4 by their words: each makes PCB_ERR sticky. -/
theorem test_pcbSet_rejects :
    [0x0000000400000131, 0x0000010000000231, 0x0000010000000331, 0x0000000100000431, 0x0000000200000531,
      0x0000000000000631, 0x00000F0200000631, 0x0001000100000631, 0x0000100000000631, 0x0001000000000831,
      0x0000000000000931, 0x0000000300000931, 0x0000000300000A31, 0x0000000000000A31, 0x0000000000000B31,
      0x0000003D00000B31, 0x0000000300000B31].all
        (fun w => answers State.reset w 1 0 && regsAfter State.reset w == some { regsReset with pcbErr := 1 }) = true := by
  decide

/-- A table with one instruction at slot 0 is loaded as two bytes, the operand first. -/
theorem test_pcbLoadLut :
    (regsAfter (holding { regsReset with lutTab := [(0, 0x04EB)] }) 0x32).map (fun r => (r.pcbLut, r.pcbLutSet))
      = some ([(0, 0xEB), (1, 0x04)], true) := by decide +kernel

/-- The registers of a peripheral block in which nothing is missing: 30 MHz, device mode on with the sequence and
argument of section 2.5. -/
def readyRegs : Regs :=
  { regsReset with
    pf := { pcbFieldsReset with sclk := 1, dmEn := 1, dmSeq := 0x0201, dmArg := 0x1234 }, pfSclkSet := true
    pcbLut := [(0, 0xEB), (1, 0x04)], pcbLutSet := true }

/-- Section 2.5: the answer, and the bytes of the image it names, the tag, the version and the table. -/
theorem test_pcbFinalize :
    answers (holding readyRegs) 0x33 0 0x1C0 = true
      ∧ (regsAfter (holding readyRegs) 0x33).map (fun r =>
            [0x00, 0x07, 0x10, 0x14, 0x15, 0x18, 0x19, 0x46, 0x80, 0x81, 0x1BF].map (Cells.read r.pimg))
          = some [0x46, 0x56, 0x01, 0x01, 0x02, 0x34, 0x12, 0x01, 0xEB, 0x04, 0x00] := by decide +kernel

/-- Device mode off: the bytes of its sequence and argument are 0 (R225 (b)). -/
theorem test_pcbFinalize_deviceMode_off :
    (regsAfter (holding { readyRegs with pf := { readyRegs.pf with dmEn := 0 } }) 0x33).map (fun r =>
        [0x10, 0x14, 0x15, 0x18, 0x19].map (Cells.read r.pimg)) = some [0, 0, 0, 0, 0] := by decide +kernel

theorem test_pcbRead :
    answers (holding { regsReset with pimg := [(0x19, 0x12)], pcbValid := true }) 0x0000001900000034 0 0x12 = true
      ∧ answers (holding { regsReset with pcbValid := true }) 0x000001C000000034 5 0 = true
      ∧ answers State.reset 0x0000000000000034 6 0 = true := by decide

theorem test_ftbClear :
    regsAfter (holding { regsReset with fwrap := [(0, 1)], ftbWrapped := true, tf := ⟨1, 2, 3⟩, tfSet := 7, ftbErr := 3
                                        out := [(0, 1)], outValid := true }) 0x40 = some regsReset := by decide

theorem test_ftbWrap :
    (regsAfter (holding { regsReset with pimg := [(0, 0x46)], pcbValid := true, out := [(5, 1)], outValid := true })
        0x41).map (fun r => (r.fwrap, r.ftbWrapped, r.out, r.outValid)) = some ([(0, 0x46)], true, [], false)
      ∧ answers State.reset 0x41 3 0 = true := by decide

theorem test_ftbSet :
    (regsAfter (holding { regsReset with tfSet := 1 }) 0x000000A600000342).map (fun r => (r.tf, r.tfSet))
        = some (⟨0, 0, 9⟩, 5)
      ∧ answers State.reset 0x0000000000000142 1 0 = true := by decide

/-- The registers of a flash-type block in which nothing is missing (section 2.6). -/
def wrappedRegs : Regs :=
  { regsReset with
    fwrap := [(0, 0x46), (0x1BF, 0x77)], ftbWrapped := true, tf := ⟨0x200, 0x40000, 9⟩, tfSet := 7 }

/-- Section 2.6: the answer and the trailer's bytes. -/
theorem test_ftbFinalize :
    answers (holding wrappedRegs) 0x43 0 0x200 = true
      ∧ (regsAfter (holding wrappedRegs) 0x43).map Regs.out
          = some [(0, 0x46), (0x1BF, 0x77), (0x1C1, 0x02), (0x1C6, 0x04), (0x1C8, 0x09)] := by decide

theorem test_outRead :
    answers (holding { regsReset with out := [(0x1C8, 9)], outValid := true }) 0x000001C800000050 0 9 = true
      ∧ answers (holding { regsReset with outValid := true }) 0x0000020000000050 5 0 = true := by decide

theorem test_outRead32 :
    answers (holding { regsReset with out := [(0x1FC, 1), (0x1FE, 4)], outValid := true }) 0x000001FC00000051 0 0x40001
        = true
      ∧ answers (holding { regsReset with outValid := true }) 0x000001FD00000051 5 0 = true
      ∧ answers State.reset 0xFFFFFFFE00000051 5 0 = true := by decide

/-- A reset request gives the reset registers and no response (70_reset_and_hazards.md R340). -/
theorem test_reset :
    (match step { holding wrappedRegs with requests := [.reset] } with
      | .next t => some (t.regs, t.response, t.requests)
      | .fault _ => none
      | .refused _ => none) = some (regsReset, none, []) := by decide

/-! ## States that meet the hypotheses of the obligations

One theorem for each obligation that has hypotheses: concrete states and operands for each clause, at the ends of its
ranges. -/

/-- A stage with an error. -/
def stuck (st : Stage) : State := holding (setStageErr st 1 regsReset)

/-- A full accumulator. -/
def full : State := holding { regsReset with seqK := 8 }

/-- An accumulator with one slot left. -/
def almostFull : State := holding { regsReset with seqK := 7 }

/-- A layout in which ChipErase's slot is outside the table (R221 item 6 does not hold). -/
def shortTable : Config := { configDefault with layout := { layoutDefault with nseq := 11 } }

/-- A family without fields and without opcodes. -/
def bareFamily : Config := { configDefault with family := { familyDefault with fields := [], opcodes := [] } }

/-- A device mode without a sequence. -/
def noSequence : State := holding { readyRegs with pf := { readyRegs.pf with dmSeq := 0 } }

/-- A valid peripheral image, as PCB_FINALIZE leaves it. -/
def pcbDone : Regs := finishPcb configDefault readyRegs

theorem defaultWf : layoutWf configDefault = true := by decide

theorem witness_EncodeOfDecode :
    decode (.lut16 0x7FFF) = .ok (.jmpOnCs 3 0xFF) ∧ decode (.cmd64 0xFFFFFFFF00000F31) = .ok (.pcbSet 0x0F 0xFFFFFFFF) := by
  decide

theorem witness_CommandWordsWellFormed :
    (∀ w ∈ [0x0131, 0x0F31, 0x0142, 0x0342, 0x00, 0xFFFFFFFF00FFFF01], wordWellFormed (BitVec.ofNat 64 w))
      ∧ ∀ w ∈ [0x0031, 0x1031, 0x0042, 0x0442, 0x05, 0x0100, 0x01000001, 0x0000000100000121],
          ¬ wordWellFormed (BitVec.ofNat 64 w) := by
  unfold wordWellFormed commandTable; decide

theorem witness_ReservedCommandCodes :
    ∀ w ∈ [0x05, 0x0F, 0x13, 0x1F, 0x23, 0x2F, 0x35, 0x3F, 0x44, 0x4F, 0x52, 0xFF, 0xFFFFFFFFFFFFFF05],
      reservedCode ((BitVec.ofNat 64 w).toNat % 2 ^ 8) := by
  unfold reservedCode; decide

theorem witness_PackingIsBijection :
    (63 : Byte).toNat < 64 ∧ (3 : Byte).toNat < 4 ∧ (255 : Word).toNat < 256 := by decide

theorem witness_LutOpcodeMap :
    (∀ o ∈ [0x0E, 0x1E, 0x20, 0x2E, 0x3F], reservedOpcode (BitVec.ofNat 8 o).toNat)
      ∧ State.reset.cfg.family = familyDefault ∧ almostFull.regs.seqErr = 0 ∧ almostFull.regs.seqK.toNat < 8 := by
  unfold reservedOpcode; decide

theorem witness_StepRunsPresentedInstruction :
    (State.reset.withFetchWord 16 0x07FF).requests = .present (.lut16 0x07FF) :: []
      ∧ decode (.lut16 0x07FF) = .ok (.cmdSdr 3 0xFF) ∧ (Instr.cmdSdr 3 0xFF).wellFormed = true
      ∧ (State.reset.withFetchWord 64 0x0B31).requests = .present (.cmd64 0x0B31) :: []
      ∧ decode (.cmd64 0x0B31) = .ok (.pcbSet 0x0B 0) ∧ (Instr.pcbSet 0x0B 0).wellFormed = true
      ∧ (State.reset.withFetchWord 64 0x1031).requests = .present (.cmd64 0x1031) :: []
      ∧ runnable (.cmd64 0x1031) = none ∧ runnable (.lut16 0x3800) = none
      ∧ { State.reset with requests := [.reset] }.requests = .reset :: [] ∧ State.reset.requests = [] := by decide

/-- A legal triple at the ends of its ranges, and an illegal one of each kind (R131). -/
theorem witness_EncPacksOrRejects :
    tripleLegal State.reset.cfg.family 0x2D 3 0xFF
      ∧ ¬ tripleLegal State.reset.cfg.family 0x40 0 0 ∧ ¬ tripleLegal State.reset.cfg.family 0x2E 0 0
      ∧ ¬ tripleLegal State.reset.cfg.family 0x00 4 0 ∧ ¬ tripleLegal State.reset.cfg.family 0x00 0 0x100 := by
  unfold tripleLegal; decide

theorem witness_PackerLaws :
    tripleLegal State.reset.cfg.family 0x1F 3 0xFF ∧ (∃ t, exec (.enc 0x1F 3 0xFF) State.reset = .next t)
      ∧ packInstr 0x1F 3 0xFF = packInstr 0x1F 3 0xFF ∧ State.reset.cfg = full.cfg
      ∧ ∃ t, exec (.enc 0x1F 3 0xFF) full = .next t := by
  refine ⟨by unfold tripleLegal; decide, ⟨_, rfl⟩, rfl, rfl, ⟨_, rfl⟩⟩

/-- For the three groups R140 to R167: every opcode is in the default family, the ends of the ranges of the pad class
and the operand, and an accumulator with one slot left. -/
theorem witness_opcodeRules :
    (∀ row ∈ lutRows, row.opcode.setWidth 6 ∈ almostFull.cfg.family.opcodes)
      ∧ (3 : Byte).toNat < 4 ∧ (0xFF : Word).toNat < 256 ∧ 4 ≤ (4 : Byte).toNat ∧ 256 ≤ (0x100 : Word).toNat
      ∧ almostFull.regs.seqErr = 0 ∧ almostFull.regs.seqK.toNat < 8 := by decide

theorem witness_LutInstructionPerformedAsEnc :
    ∀ row ∈ lutRows, row.opcode.setWidth 6 ∈ State.reset.cfg.family.opcodes
      ∧ row.opcode.setWidth 6 ∉ (underConfig bareFamily regsReset).cfg.family.opcodes := by decide

theorem witness_SeqPushAppendsOrFails :
    (stuck .seq).regs.seqErr ≠ 0 ∧ (full.regs.seqErr = 0 ∧ full.regs.seqK.toNat = 8)
      ∧ (almostFull.regs.seqErr = 0 ∧ almostFull.regs.seqK.toNat < 8)
      ∧ ¬ tripleLegal almostFull.cfg.family 0x0E 0 0 ∧ tripleLegal almostFull.cfg.family 0x0D 3 0xFF := by
  unfold tripleLegal; decide

theorem witness_SeqReadAnswersSlot : (7 : Byte).toNat < 8 ∧ 8 ≤ (8 : Byte).toNat := by decide

/-- Eight legal instructions, nine legal ones, nine of which one is illegal, and a LUT_SET that answers. -/
theorem witness_SequenceLaw :
    (List.replicate 8 ((0x01 : Byte), (0 : Byte), (0xEB : Word))).length ≤ 8
      ∧ (∀ x ∈ List.replicate 8 ((0x01 : Byte), (0 : Byte), (0xEB : Word)),
          tripleLegal State.reset.cfg.family x.1 x.2.1 x.2.2)
      ∧ 9 ≤ (List.replicate 9 ((0x01 : Byte), (0 : Byte), (0xEB : Word))).length
      ∧ (∃ u, exec (.lutSet 0x01) (stuck .seq) = .next u) := by
  refine ⟨by decide, fun x hx => ?_, by decide, ⟨_, rfl⟩⟩
  rw [List.eq_of_mem_replicate hx]
  unfold tripleLegal; decide

theorem witness_SlotMapInjective :
    (namedSlots layoutDefault).Nodup ∧ (∀ i ∈ namedSlots layoutDefault, i < layoutDefault.nseq)
      ∧ selectsSlot layoutDefault 0x01 0 ∧ selectsSlot layoutDefault 0x06 11 ∧ selectsSlot layoutDefault 0x8F 15 := by
  unfold selectsSlot; decide

theorem witness_DefaultSlots :
    ∀ f ∈ [0x00, 0x07, 0x7F, 0x80, 0x8B, 0x90, 0xFF],
      (BitVec.ofNat 8 f).toNat ∈ [0x80, 0x81, 0x83, 0x85, 0x89, 0x8B] ∨ 0x90 ≤ (BitVec.ofNat 8 f).toNat
        ∨ (BitVec.ofNat 8 f).toNat = 0 ∨ 0x07 ≤ (BitVec.ofNat 8 f).toNat ∧ (BitVec.ofNat 8 f).toNat ≤ 0x7F := by decide

/-- No slot is selected by a selector of no Command (R106). -/
theorem none_selected (l : Layout) (f : Byte) (h : 7 ≤ f.toNat) (h' : f.toNat ≤ 0x7F) : ∀ i, ¬ selectsSlot l f i := by
  intro i hs
  unfold selectsSlot at hs
  omega

theorem witness_LutSetMapsSequence :
    (stuck .lut).regs.lutErr ≠ 0
      ∧ (State.reset.regs.lutErr = 0 ∧ ∀ i, ¬ selectsSlot State.reset.cfg.layout 0x07 i)
      ∧ (selectsSlot (stuck .seq).cfg.layout 0x01 0 ∧ (stuck .seq).regs.lutErr = 0 ∧ (stuck .seq).regs.seqErr ≠ 0)
      ∧ (selectsSlot shortTable.layout 0x06 11 ∧ shortTable.layout.nseq ≤ 11)
      ∧ (selectsSlot State.reset.cfg.layout 0x8F 15 ∧ State.reset.regs.seqErr = 0
          ∧ 15 < State.reset.cfg.layout.nseq) := by
  refine ⟨by decide, ⟨rfl, none_selected _ _ (by decide) (by decide)⟩, ?_, ?_, ?_⟩ <;> (unfold selectsSlot; decide)

theorem witness_LutReadAnswersByte :
    (0xFF : Word).toNat < 16 * State.reset.cfg.layout.nseq ∧ 16 * State.reset.cfg.layout.nseq ≤ (0x100 : Word).toNat := by
  decide

theorem witness_LutSetStoresOneSlot :
    selectsSlot State.reset.cfg.layout 0x8F 15
      ∧ (∃ t, exec (.lutSet 0x8F) State.reset = .next t ∧ statusOf t = some 0)
      ∧ ∃ t, exec .lutClear State.reset = .next t := by
  refine ⟨by unfold selectsSlot; decide, ⟨_, rfl, by decide⟩, ⟨_, rfl⟩⟩

/-- A legal value and what is stored for each field, at the upper bound of its range where it has one. -/
theorem witness_PeripheralFieldTable :
    [(PcbField.readSampleClkSrc, 3, 3), (.csHoldTime, 0xFF, 0xFF), (.csSetupTime, 0xFF, 0xFF),
      (.columnAddressWidth, 12, 12), (.deviceModeCfgEnable, 1, 1), (.deviceModeSeq, 0x0F01, 0x0F01),
      (.deviceModeArg, 0xFFFFFFFF, 0xFFFFFFFF), (.waitTimeCfgCommands, 0xFFFF, 0xFFFF), (.deviceType, 2, 2),
      (.sflashPadType, 8, 8), (.sflashA1Size, 0xFFFFFFFF, 0xFFFFFFFF), (.sflashA2Size, 0, 0), (.sflashB1Size, 0x1000, 0x1000),
      (.sflashB2Size, 1, 1)].all (fun x => fieldEncode configDefault x.1 (BitVec.ofNat 32 x.2.1)
        == some (BitVec.ofNat 32 x.2.2)) = true
      ∧ fieldTable configDefault .csHoldTime 0xFF 0xFF ∧ fieldTable configDefault .serialClkFreq 30 1
      ∧ PcbField.csHoldTime ≠ .serialClkFreq := by
  refine ⟨by decide, ⟨rfl, by decide⟩, ⟨[], 1, _, rfl, by simp, rfl⟩, by decide⟩

theorem witness_PcbSetStoresOrFails :
    (pcbFieldOf 0x00 = none ∧ pcbFieldOf 0x10 = none)
      ∧ (pcbFieldOf 0x01 = some .readSampleClkSrc ∧ pcbFieldOf 0x0F = some .sflashB2Size)
      ∧ (stuck .pcb).regs.pcbErr ≠ 0 ∧ State.reset.regs.pcbErr = 0
      ∧ PcbField.csHoldTime ∉ bareFamily.family.fields
      ∧ (∀ e, ¬ fieldTable State.reset.cfg .csHoldTime 0x100 e)
      ∧ (PcbField.csHoldTime ∈ State.reset.cfg.family.fields
          ∧ fieldTable State.reset.cfg .csHoldTime 0xFF (0xFF : Word).toNat) := by
  refine ⟨by decide, by decide, by decide, rfl, by decide, ?_, by decide, rfl, by decide⟩
  rintro e ⟨-, h⟩
  exact absurd h (by decide)

theorem witness_PcbLoadLutCopiesTable :
    (stuck .pcb).regs.pcbErr ≠ 0 ∧ ((stuck .lut).regs.pcbErr = 0 ∧ (stuck .lut).regs.lutErr ≠ 0)
      ∧ State.reset.regs.pcbErr = 0 ∧ State.reset.regs.lutErr = 0 := by decide

/-- The layout with a table that ends after PCB_SIZE is ill-formed. -/
theorem shortTable_illFormed : layoutWf shortTable = false := by decide

theorem witness_PcbFinalizeBuildsOrRefuses :
    (stuck .pcb).regs.pcbErr ≠ 0
      ∧ ((underConfig shortTable regsReset).regs.pcbErr = 0 ∧ layoutWf (underConfig shortTable regsReset).cfg = false)
      ∧ (State.reset.regs.pcbErr = 0 ∧ State.reset.regs.pcbLutSet = false)
      ∧ (holding { readyRegs with pfSclkSet := false }).regs.pfSclkSet = false
      ∧ (noSequence.regs.pcbErr = 0 ∧ noSequence.regs.pf.dmEn = 1 ∧ noSequence.regs.pf.dmSeq = 0)
      ∧ ((holding readyRegs).regs.pcbErr = 0 ∧ layoutWf (holding readyRegs).cfg = true ∧ readyRegs.pcbLutSet = true
          ∧ readyRegs.pfSclkSet = true ∧ ¬ (readyRegs.pf.dmEn = 1 ∧ readyRegs.pf.dmSeq = 0)) := by
  refine ⟨by decide, ⟨rfl, shortTable_illFormed⟩, ⟨rfl, rfl⟩, rfl, by decide, rfl, defaultWf, rfl, rfl, by decide⟩

theorem witness_PcbReadAnswersByte :
    (0x1BF : Word).toNat < State.reset.cfg.layout.pcbSize.toNat ∧ State.reset.cfg.layout.pcbSize.toNat ≤ (0x1C0 : Word).toNat
      ∧ State.reset.regs.pcbValid = false ∧ (holding pcbDone).regs.pcbValid = true := by
  refine ⟨by decide, by decide, rfl, rfl⟩

/-- A well-formed layout, a field of the family, and a bit that belongs to no region: bit 0 of byte 0x011. -/
theorem witness_PcbImageContents :
    layoutWf configDefault = true ∧ PcbField.csHoldTime ∈ configDefault.family.fields ∧ 64 ≤ 8 * 0x011
      ∧ (∀ f ∈ configDefault.family.fields, ¬ inEntry (fieldEntry configDefault.layout f) (8 * 0x011))
      ∧ ¬ (8 * configDefault.layout.lutOff ≤ 8 * 0x011
            ∧ 8 * 0x011 < 8 * (configDefault.layout.lutOff + 16 * configDefault.layout.nseq)) := by
  refine ⟨defaultWf, by decide, by decide, by unfold inEntry; decide, by decide⟩

theorem witness_DerivedFields :
    PcbField.sflashB2Size ∈ [PcbField.sflashA1Size, .sflashA2Size, .sflashB1Size, .sflashB2Size]
      ∧ configDefault.family = familyDefault ∧ layoutWf configDefault = true ∧ pcbFieldsReset.dmEn = 0 := by
  refine ⟨by decide, rfl, defaultWf, rfl⟩

theorem witness_LayoutInvariantIsSevenItems :
    layoutWf (underConfig shortTable regsReset).cfg = false ∧ regsReset.pcbErr = 0 ∧ regsReset.ftbErr = 0
      ∧ regsReset.lutErr = 0 ∧ regsReset.seqErr = 0 ∧ selectsSlot shortTable.layout 0x06 11
      ∧ shortTable.layout.nseq ≤ 11 := by
  refine ⟨shortTable_illFormed, rfl, rfl, rfl, rfl, by unfold selectsSlot; decide, by decide⟩

theorem witness_FtbWrapCopiesImage :
    (stuck .ftb).regs.ftbErr ≠ 0 ∧ ((stuck .pcb).regs.ftbErr = 0 ∧ (stuck .pcb).regs.pcbErr ≠ 0)
      ∧ (State.reset.regs.ftbErr = 0 ∧ State.reset.regs.pcbErr = 0 ∧ State.reset.regs.pcbValid = false)
      ∧ ((holding pcbDone).regs.ftbErr = 0 ∧ (holding pcbDone).regs.pcbErr = 0
          ∧ (holding pcbDone).regs.pcbValid = true) := by
  refine ⟨by decide, by decide, by decide, rfl, rfl, rfl⟩

theorem witness_TrailerFieldTable :
    trailerTable configDefault .pageSize 1 1 ∧ trailerTable configDefault .sectorSize 0xFFFFFFFF 0xFFFFFFFF
      ∧ trailerTable configDefault .ipCmdSerialClkFreq 30 1 ∧ FtbField.pageSize ≠ .sectorSize
      ∧ State.reset.regs.ftbErr = 0 ∧ layoutWf State.reset.cfg = true
      ∧ State.reset.regs.tfSet.getLsbD (ftbFieldIndex .sectorSize).val = false := by
  refine ⟨⟨rfl, by decide⟩, ⟨rfl, by decide⟩, ⟨[], 1, _, rfl, by simp, rfl⟩, by decide, rfl, defaultWf, rfl⟩

theorem witness_FtbSetStoresOrFails :
    (ftbFieldOf 0x00 = none ∧ ftbFieldOf 0x04 = none) ∧ ftbFieldOf 0x01 = some .pageSize
      ∧ ftbFieldOf 0x03 = some .ipCmdSerialClkFreq ∧ (stuck .ftb).regs.ftbErr ≠ 0 ∧ State.reset.regs.ftbErr = 0
      ∧ (∀ e, ¬ trailerTable State.reset.cfg .pageSize 0 e)
      ∧ trailerTable State.reset.cfg .pageSize 1 (1 : Word).toNat := by
  refine ⟨by decide, by decide, by decide, by decide, rfl, ?_, rfl, by decide⟩
  rintro e ⟨-, h⟩
  exact absurd h (by decide)

theorem witness_FtbFinalizeBuildsOrRefuses :
    (stuck .ftb).regs.ftbErr ≠ 0
      ∧ ((underConfig shortTable regsReset).regs.ftbErr = 0 ∧ layoutWf (underConfig shortTable regsReset).cfg = false)
      ∧ (State.reset.regs.ftbErr = 0 ∧ layoutWf State.reset.cfg = true ∧ State.reset.regs.ftbWrapped = false)
      ∧ (holding { wrappedRegs with tfSet := 6 }).regs.tfSet ≠ 0b111
      ∧ ((holding wrappedRegs).regs.ftbErr = 0 ∧ (holding wrappedRegs).regs.ftbWrapped = true
          ∧ (holding wrappedRegs).regs.tfSet = 0b111) := by
  refine ⟨by decide, ⟨rfl, shortTable_illFormed⟩, ⟨rfl, defaultWf, rfl⟩, by decide, by decide⟩

/-- A trailer bit that belongs to no entry: bit 0 of byte 0x1C9. -/
theorem witness_FinalImageContents :
    layoutWf configDefault = true ∧ 0x1BF < configDefault.layout.pcbSize.toNat
      ∧ 8 * configDefault.layout.pcbSize.toNat ≤ 8 * 0x1C9
      ∧ ∀ t, ¬ inEntry (trailerEntry configDefault.layout t) (8 * 0x1C9) := by
  refine ⟨defaultWf, by decide, by decide, fun t => ?_⟩
  unfold inEntry
  cases t <;> decide

theorem witness_OutReadAnswersByte :
    State.reset.cfg.layout.totalSize.toNat ≤ (0x200 : Word).toNat
      ∧ (0x1FF : Word).toNat < State.reset.cfg.layout.totalSize.toNat ∧ State.reset.regs.outValid = false
      ∧ (holding { regsReset with outValid := true }).regs.outValid = true := by decide

theorem witness_OutRead32AnswersWord :
    State.reset.cfg.layout.totalSize.toNat < (0x1FD : Word).toNat + 4
      ∧ State.reset.cfg.layout.totalSize.toNat < (0xFFFFFFFF : Word).toNat + 4
      ∧ (0x1FC : Word).toNat + 4 ≤ State.reset.cfg.layout.totalSize.toNat ∧ State.reset.regs.outValid = false
      ∧ (holding { regsReset with outValid := true }).regs.outValid = true := by decide

theorem witness_ReadsHaveNoSideEffects :
    isRead .status ∧ isRead .info ∧ isRead .rdResult ∧ isRead (.seqRead 7) ∧ isRead (.lutRead 0xFF)
      ∧ isRead (.pcbRead 0x1BF) ∧ isRead (.outRead 0x1FF) ∧ isRead (.outRead32 0x1FC) := by
  unfold isRead
  simp

/-- The field registers of the complete block hold legal encodings. -/
theorem readyRegs_legal : FieldsLegal configDefault readyRegs.pf true := by
  refine ⟨fun f => ?_, fun _ => ⟨30, by decide⟩⟩
  cases f
  case deviceModeCfgEnable => exact .inr ⟨1, by decide⟩
  case deviceModeSeq => exact .inr ⟨0x0201, by decide⟩
  case deviceModeArg => exact .inr ⟨0x1234, by decide⟩
  case serialClkFreq => exact .inr ⟨30, by decide⟩
  all_goals exact .inl rfl

/-- The trailer registers of the complete block hold legal encodings. -/
theorem trailer_legal (t : FtbField) : ∃ v, trailerEncode configDefault t v = some (getTrailer ⟨256, 4096, 1⟩ t) := by
  cases t
  · exact ⟨256, by decide⟩
  · exact ⟨4096, by decide⟩
  · exact ⟨30, by decide⟩

/-- The registers FTB_FINALIZE leaves after a PCB_FINALIZE, an FTB_WRAP and three legal FTB_SET. -/
def complete (c : Config) (r : Regs) (tf : TrailerFields) : Regs :=
  finishFtb c { wrapPcb (finishPcb c r) with tf := tf, tfSet := 7 }

/-- Such registers meet the invariant, for any legal fields over otherwise reset registers. -/
theorem complete_inv (c : Config) (pf : PcbFields) (lut : Memory) (tf : TrailerFields) (hw : layoutWf c = true)
    (hp : FieldsLegal c pf true) (ht : ∀ t, ∃ v, trailerEncode c t v = some (getTrailer tf t))
    (hl : Memory.wf lut = true) (hn : Cells.within lut (lutBytes c) = true) :
    Inv (underConfig c
      (complete c { regsReset with pf := pf, pfSclkSet := true, pcbLut := lut, pcbLutSet := true } tf)) where
  seq := ⟨Nat.zero_le 8, fun i _ h => (by decide : ∀ i < 8, seqRead regsReset i = 0) i h⟩
  sticky := ⟨(by decide : (0 : Byte).toNat ∈ [0, 1, 2]), (by decide : (0 : Byte).toNat ∈ [0, 1, 2, 4]),
    (by decide : (0 : Byte).toNat ∈ [0, 1, 2, 4]), (by decide : (0 : Byte).toNat ∈ [0, 1, 2, 3, 4])⟩
  arrays := ⟨⟨rfl, rfl⟩, ⟨hl, hn⟩, ⟨wf_buildPcb c pf lut, within_buildPcb c pf lut hw⟩,
    ⟨wf_buildPcb c pf lut, within_buildPcb c pf lut hw⟩,
    wf_buildFinal c (buildPcb c pf lut) tf (wf_buildPcb c pf lut), within_buildFinal c (buildPcb c pf lut) tf hw⟩
  fields := hp
  pcb := ⟨nofun, fun _ => ⟨rfl, rfl, rfl, hw, rfl⟩⟩
  wrap := ⟨fun _ => ⟨hw, pf, lut, hp, rfl⟩, fun t _ => ht t⟩
  out := ⟨nofun, fun _ => ⟨rfl, rfl, rfl, hw, rfl⟩⟩

/-- A complete flash-type block: 30 MHz, device mode on, one instruction in the table, pages of 256 and sectors of 4096
bytes. -/
def done : State := underConfig configDefault (complete configDefault readyRegs ⟨256, 4096, 1⟩)

theorem done_inv : Inv done :=
  complete_inv configDefault readyRegs.pf readyRegs.pcbLut ⟨256, 4096, 1⟩ defaultWf readyRegs_legal trailer_legal
    (by decide) (by decide)

/-- A state that meets the invariant and whose next step runs a command: the complete block with SEQ_CLEAR presented. -/
theorem witness_StepKeepsInvariant :
    Inv (done.withFetchWord 64 0x10) ∧ ∃ t, step (done.withFetchWord 64 0x10) = .next t :=
  ⟨⟨done_inv.seq, done_inv.sticky, done_inv.arrays, done_inv.fields, done_inv.pcb, done_inv.wrap,
    done_inv.out⟩, _, rfl⟩

theorem witness_ValidImageIsComplete : Inv done ∧ done.regs.outValid = true :=
  ⟨done_inv, rfl⟩

theorem witness_EveryWordAnswered :
    (∃ t, exec .seqClear done = .next t) ∧ Inv done
      ∧ (∃ t, answerUnrunnable (.cmd64 0x05) State.reset = .next t)
      ∧ ∃ t, answerUnrunnable (.lut16 0xFC00) State.reset = .next t :=
  ⟨⟨_, rfl⟩, done_inv, ⟨_, rfl⟩, ⟨_, rfl⟩⟩

/-- A clear, a command of a failed stage, and a command that makes its stage fail. -/
theorem witness_FirstErrorSticks :
    (∃ t, exec (clearOf .seq) (stuck .seq) = .next t)
      ∧ (Instr.seqPush 0 0 0 ≠ clearOf .seq ∧ stageErr .seq (stuck .seq).regs ≠ 0)
      ∧ (∃ t, exec (.seqPush 0x0E 0 0) State.reset = .next t ∧ stageErr .seq State.reset.regs = 0
          ∧ stageErr .seq t.regs ≠ 0)
      ∧ Inv done :=
  ⟨⟨_, rfl⟩, by decide, ⟨_, rfl, by decide⟩, done_inv⟩

theorem witness_ConfigNeverChanges : ∃ t, step (State.reset.withFetchWord 64 0x10) = .next t := ⟨_, rfl⟩

theorem witness_ClearsGiveReset :
    [Instr.ftbClear, .lutClear, .seqClear, .pcbClear].Perm [.seqClear, .lutClear, .pcbClear, .ftbClear] := by decide

/-- A failing setter of each stage, and failing commands that record nothing. -/
theorem witness_FailingCommandWrites :
    (∀ i ∈ [Instr.seqPush 0x3F 0 0, .lutSet 0, .pcbSet 0x02 0x100, .ftbWrap, .ftbSet 1 0],
        ∃ t st, exec i State.reset = .next t ∧ statusOf t ≠ some 0 ∧ recordsIn i = some st ∧ stageErr st t.regs ≠ 0)
      ∧ ∀ i ∈ [Instr.enc 0x40 0 0, .seqRead 8, .pcbFinalize, .ftbFinalize, .outRead 0],
        ∃ t, exec i State.reset = .next t ∧ statusOf t ≠ some 0 ∧ recordsIn i = none := by
  refine ⟨?_, ?_⟩
  · rintro i hi
    simp only [List.mem_cons, List.not_mem_nil, or_false] at hi
    rcases hi with rfl | rfl | rfl | rfl | rfl <;> exact ⟨_, _, rfl, by decide, rfl, by decide⟩
  · rintro i hi
    simp only [List.mem_cons, List.not_mem_nil, or_false] at hi
    rcases hi with rfl | rfl | rfl | rfl | rfl <;> exact ⟨_, rfl, by decide, rfl⟩

theorem witness_ErrorsPropagateUpward :
    (stuck .seq).regs.seqErr ≠ 0 ∧ (stuck .seq).regs.lutErr = 0 ∧ (stuck .seq).regs.pcbErr = 0
      ∧ (stuck .seq).regs.ftbErr = 0 ∧ selectsSlot (stuck .seq).cfg.layout 0x8F 15 := by
  unfold selectsSlot; decide

theorem witness_FailedStageBuildsNothing :
    ((stuck .pcb).regs.pcbErr ≠ 0 ∧ (stuck .pcb).regs.pcbValid = false ∧ Instr.pcbClear ∉ [Instr.pcbFinalize]
        ∧ ∃ t, execAll (stuck .pcb) [.pcbFinalize] = some t)
      ∧ (stuck .ftb).regs.ftbErr ≠ 0 ∧ (stuck .ftb).regs.outValid = false ∧ Instr.ftbClear ∉ [Instr.ftbFinalize]
        ∧ ∃ t, execAll (stuck .ftb) [.ftbFinalize] = some t :=
  ⟨⟨by decide, rfl, by decide, _, rfl⟩, by decide, rfl, by decide, _, rfl⟩

/-- Two states with the same registers and different streams and responses. -/
theorem witness_NoHiddenState :
    let s := State.reset.withFetchWord 64 0x04
    let s' := { State.reset with requests := [.present (.cmd64 0x04), .reset], response := some 5 }
    s.regs = s'.regs ∧ s.cfg = s'.cfg ∧ s.requests = [.present (.cmd64 0x04)]
      ∧ s'.requests = [.present (.cmd64 0x04), .reset] ∧ (∃ t, step s = .next t) ∧ ∃ t, step s' = .next t :=
  ⟨rfl, rfl, rfl, rfl, ⟨_, rfl⟩, ⟨_, rfl⟩⟩

theorem witness_UnitsWriteTheirOwnRegisters :
    (∃ t, exec (.ftbSet 1 1) State.reset = .next t) ∧ unitOf (.ftbSet 1 1) ≠ .packer ∧ unitOf (.ftbSet 1 1) ≠ .sequence
      ∧ unitOf (.ftbSet 1 1) ≠ .table ∧ unitOf (.ftbSet 1 1) ≠ .pcb ∧ unitOf .nop ≠ .ftb :=
  ⟨⟨_, rfl⟩, by decide, by decide, by decide, by decide, by decide⟩

/-- A peripheral block in which all three are missing: reset with an enabled device mode. -/
def bareRegs : Regs := { regsReset with pf := { pcbFieldsReset with dmEn := 1 } }

/-- A flash-type block in which all is missing, above a finished peripheral block. -/
def unwrappedRegs : Regs := { regsReset with pcbValid := true }

theorem witness_FinalizeFailureIsNotSticky :
    (∃ t, exec .pcbFinalize State.reset = .next t ∧ statusOf t ≠ some 0)
      ∧ (∃ t, exec .ftbFinalize State.reset = .next t ∧ statusOf t ≠ some 0)
      ∧ (let s := holding bareRegs
         s.regs.pcbErr = 0 ∧ layoutWf s.cfg = true ∧ pcbMissing s.regs ∧ s.regs.pcbLutSet = false ∧ s.regs.lutErr = 0
          ∧ s.regs.pfSclkSet = false ∧ (s.regs.pf.dmEn = 1 ∧ s.regs.pf.dmSeq = 0)
          ∧ PcbField.serialClkFreq ∈ s.cfg.family.fields ∧ fieldTable s.cfg .serialClkFreq 30 (1 : Word).toNat
          ∧ PcbField.deviceModeSeq ∈ s.cfg.family.fields
          ∧ fieldTable s.cfg .deviceModeSeq 0x0F01 (0x0F01 : Word).toNat)
      ∧ (let s := holding unwrappedRegs
         s.regs.ftbErr = 0 ∧ layoutWf s.cfg = true ∧ ftbMissing s.regs ∧ s.regs.ftbWrapped = false ∧ s.regs.pcbErr = 0
          ∧ s.regs.pcbValid = true ∧ (∀ f, s.regs.tfSet.getLsbD (ftbFieldIndex f).val = false)
          ∧ ∀ f, ∃ e : Word, trailerTable s.cfg f 30 e.toNat)
      ∧ (∃ t, exec .pcbFinalize (holding readyRegs) = .next t ∧ statusOf t = some 0)
      ∧ ∃ t, exec .ftbFinalize (holding wrappedRegs) = .next t ∧ statusOf t = some 0 := by
  refine ⟨⟨_, rfl, by decide⟩, ⟨_, rfl, by decide⟩, ?_, ?_, ⟨_, rfl, by decide⟩, ⟨_, rfl, by decide⟩⟩
  · exact ⟨rfl, defaultWf, .inl rfl, rfl, rfl, rfl, ⟨rfl, rfl⟩, by decide, ⟨[], 1, _, rfl, by simp, rfl⟩, by decide,
      by unfold fieldTable; decide⟩
  · refine ⟨rfl, defaultWf, .inl rfl, rfl, rfl, rfl, by intro f; cases f <;> rfl, ?_⟩
    intro f
    cases f
    · exact ⟨30, rfl, by decide⟩
    · exact ⟨30, rfl, by decide⟩
    · exact ⟨1, [], 1, _, rfl, by simp, rfl⟩

end Sys2Proof.Tests
end

section
/-! What a step can do, said once for every request: nothing without one, a reset (R340, R343), or one answer to a
presented word (R290, R296). Each outcome is a whole next state, so that a claim about every step is read off it. -/

namespace Sys2Proof.Machine

/-- The ENC of a 16-bit LUT word's fields (R90, R91), widened to the ports of R105. -/
def lutWordEnc (w : Half) : Instr :=
  .enc ((w.extractLsb' 10 6).setWidth 8) ((w.extractLsb' 8 2).setWidth 8) ((w.extractLsb' 0 8).setWidth 32)

/-- A 16-bit word is packed as ENC packs its fields (R131; log 5). -/
theorem packWord_eq_exec (w : Half) (s : State) : packWord w s = exec (lutWordEnc w) s := rfl

/-- `WordEffect c r x q d e`: with CONFIG `c` and registers `r`, the presented word `x` can leave the registers `q` and
answer the data word `d` with status `e`. -/
inductive WordEffect (c : Config) (r : Regs) : InstrWord → Regs → Word → Byte → Prop
  | runs {x i q d e} (hx : runnable x = some i) (he : Effect c r i q d e) : WordEffect c r x q d e
  | refused {w} (hx : runnable (.cmd64 w) = none) : WordEffect c r (.cmd64 w) r 0 5
  | packs {w q d e} (hx : runnable (.lut16 w) = none) (he : Effect c r (lutWordEnc w) q d e) :
    WordEffect c r (.lut16 w) q d e

/-- A word that runs no instruction is answered too: a command word by InvalidCommand, a LUT word by the packer. -/
theorem answerUnrunnable_effect (x : InstrWord) (s : State) (hx : runnable x = none) :
    ∃ q d e, WordEffect s.cfg s.regs x q d e ∧ answerUnrunnable x s = answerWith s q d e := by
  cases x with
  | cmd64 w => exact ⟨_, _, _, .refused hx, rfl⟩
  | lut16 w =>
    obtain ⟨q, d, e, he, hs⟩ := exec_effect (lutWordEnc w) s
    exact ⟨q, d, e, .packs hx he, (packWord_eq_exec w s).trans hs⟩

theorem step_of_nil (s : State) (hr : s.requests = []) : step s = .next s := by
  rw [step, hr]

theorem step_of_reset (s : State) (rest : List Request) (hr : s.requests = .reset :: rest) :
    step s = .next { cfg := s.cfg, regs := regsReset, requests := rest, response := none } := by
  rw [step, hr]; rfl

theorem step_of_runnable (s : State) (x : InstrWord) (rest : List Request) (i : Instr)
    (hr : s.requests = .present x :: rest) (hx : runnable x = some i) : step s = exec i (acceptRequest s rest) := by
  simp only [step, hr, hx]

theorem step_of_unrunnable (s : State) (x : InstrWord) (rest : List Request)
    (hr : s.requests = .present x :: rest) (hx : runnable x = none) :
    step s = answerUnrunnable x (acceptRequest s rest) := by
  simp only [step, hr, hx]

/-- Every presented word is taken off the stream and answered. -/
theorem step_of_present (s : State) (x : InstrWord) (rest : List Request) (hr : s.requests = .present x :: rest) :
    ∃ q d e, WordEffect s.cfg s.regs x q d e ∧ step s = answerWith (acceptRequest s rest) q d e := by
  cases hx : runnable x with
  | some i =>
    obtain ⟨q, d, e, he, hs⟩ := exec_effect i (acceptRequest s rest)
    exact ⟨q, d, e, .runs hx he, (step_of_runnable s x rest i hr hx).trans hs⟩
  | none =>
    obtain ⟨q, d, e, he, hs⟩ := answerUnrunnable_effect x (acceptRequest s rest) hx
    exact ⟨q, d, e, he, (step_of_unrunnable s x rest hr hx).trans hs⟩

/-- Every outcome of a step, with the request it answers. -/
theorem step_cases (s : State) :
    (s.requests = [] ∧ step s = .next s)
      ∨ (∃ rest, s.requests = .reset :: rest
          ∧ step s = .next { cfg := s.cfg, regs := regsReset, requests := rest, response := none })
      ∨ ∃ x rest q d e, s.requests = .present x :: rest ∧ WordEffect s.cfg s.regs x q d e
          ∧ step s = answerWith (acceptRequest s rest) q d e := by
  match hr : s.requests with
  | [] => exact .inl ⟨rfl, step_of_nil s hr⟩
  | .reset :: rest => exact .inr (.inl ⟨rest, rfl, step_of_reset s rest hr⟩)
  | .present x :: rest =>
    obtain ⟨q, d, e, he, hs⟩ := step_of_present s x rest hr
    exact .inr (.inr ⟨x, rest, q, d, e, rfl, he, hs⟩)

/-- Settles O52: each of the three outcomes of a step is a next state that carries the CONFIG of the old one (R5). -/
theorem configNeverChanges : Obligations.ConfigNeverChanges := by
  intro s t h
  rcases step_cases s with ⟨-, hs⟩ | ⟨rest, -, hs⟩ | ⟨x, rest, q, d, e, -, -, hs⟩ <;>
    cases hs.symm.trans h <;> rfl

end Sys2Proof.Machine
end

section
/-! The frame of every instruction, read off `Effect`: each unit's registers change only in the outcomes of that unit's
instructions (10_state.md R21, the "written by" column; 20_memory.md R73). -/

namespace Sys2Proof.Machine

section
variable {c : Config} {r q : Regs} {i : Instr} {d : Word} {e : Byte}

/-- Only ENC and the LUT instructions, which all belong to the packer, give the packer a triple. -/
theorem unitOf_of_packerTriple {x : Byte × Byte × Word} (h : packerTriple i = some x) : unitOf i = .packer := by
  cases i <;> first | rfl | cases h

theorem Effect.result_eq (he : Effect c r i q d e) (hu : unitOf i ≠ .packer) : q.result = r.result := by
  cases he with
  | packed _ _ _ _ hi => exact absurd (unitOf_of_packerTriple hi) hu
  | _ => rfl

theorem Effect.seq_eq (he : Effect c r i q d e) (hu : unitOf i ≠ .sequence) :
    q.seqSlot = r.seqSlot ∧ q.seqK = r.seqK ∧ q.seqErr = r.seqErr := by
  cases he with
  | seqClear | seqPushFull | seqPushIllegal | seqPush => exact absurd rfl hu
  | _ => exact ⟨rfl, rfl, rfl⟩

theorem Effect.lut_eq (he : Effect c r i q d e) (hu : unitOf i ≠ .table) :
    q.lutTab = r.lutTab ∧ q.lutErr = r.lutErr := by
  cases he with
  | lutClear | lutSetSelector | lutSetFailed | lutSetBound | lutSet => exact absurd rfl hu
  | _ => exact ⟨rfl, rfl⟩

theorem Effect.pcb_eq (he : Effect c r i q d e) (hu : unitOf i ≠ .pcb) :
    q.pf = r.pf ∧ q.pfSclkSet = r.pfSclkSet ∧ q.pcbLut = r.pcbLut ∧ q.pcbLutSet = r.pcbLutSet ∧ q.pcbErr = r.pcbErr
      ∧ q.pimg = r.pimg ∧ q.pcbValid = r.pcbValid := by
  cases he with
  | pcbClear | pcbSetSticky | pcbSetIllegal | pcbSet | pcbLoadSticky | pcbLoadFailed | pcbLoad | pcbFinalizeSticky
  | pcbFinalizeLayout | pcbFinalizeMissing | pcbFinalize => exact absurd rfl hu
  | _ => exact ⟨rfl, rfl, rfl, rfl, rfl, rfl, rfl⟩

theorem Effect.ftb_eq (he : Effect c r i q d e) (hu : unitOf i ≠ .ftb) :
    q.fwrap = r.fwrap ∧ q.ftbWrapped = r.ftbWrapped ∧ q.tf = r.tf ∧ q.tfSet = r.tfSet ∧ q.ftbErr = r.ftbErr
      ∧ q.out = r.out ∧ q.outValid = r.outValid := by
  cases he with
  | ftbClear | ftbWrapSticky | ftbWrapFailed | ftbWrapMissing | ftbWrap | ftbSetSticky | ftbSetIllegal | ftbSet
  | ftbFinalizeSticky | ftbFinalizeLayout | ftbFinalizeMissing | ftbFinalize => exact absurd rfl hu
  | _ => exact ⟨rfl, rfl, rfl, rfl, rfl, rfl, rfl⟩

end

/-- Settles O59, unit by unit. -/
theorem unitsWriteTheirOwnRegisters : Obligations.UnitsWriteTheirOwnRegisters := by
  intro i s t h
  obtain ⟨q, d, e, he, rfl⟩ := exec_next i s t h
  exact ⟨he.result_eq, he.seq_eq, he.lut_eq, he.pcb_eq, he.ftb_eq, rfl, rfl⟩

end Sys2Proof.Machine
end

section
/-! The sticky errors (10_state.md R31): what an instruction leaves in each stage's error register, and what follows for
a list of instructions. -/

namespace Sys2Proof.Machine

section
variable {c : Config} {r q : Regs} {i : Instr} {d : Word} {e : Byte}

/-- Everything an instruction can do to the four sticky errors: clear the one of its own stage, record its status in a
stage that had none, or leave all four. -/
theorem Effect.stageErr_cases (he : Effect c r i q d e) :
    (∃ st, i = clearOf st ∧ ∀ st', stageErr st' q = stageErr st' (setStageErr st 0 r))
      ∨ (∃ st, stageErr st r = 0 ∧ ∀ st', stageErr st' q = stageErr st' (setStageErr st e r))
      ∨ ∀ st', stageErr st' q = stageErr st' r := by
  cases he with
  | seqClear => exact .inl ⟨.seq, rfl, fun st' => by cases st' <;> rfl⟩
  | lutClear => exact .inl ⟨.lut, rfl, fun st' => by cases st' <;> rfl⟩
  | pcbClear => exact .inl ⟨.pcb, rfl, fun st' => by cases st' <;> rfl⟩
  | ftbClear => exact .inl ⟨.ftb, rfl, fun st' => by cases st' <;> rfl⟩
  | seqPushFull _ _ _ h | seqPushIllegal _ _ _ h => exact .inr (.inl ⟨.seq, h, fun st' => by cases st' <;> rfl⟩)
  | lutSetSelector _ h | lutSetFailed _ _ h | lutSetBound _ _ h =>
    exact .inr (.inl ⟨.lut, h, fun st' => by cases st' <;> rfl⟩)
  | pcbSetIllegal _ _ _ _ h | pcbLoadFailed h => exact .inr (.inl ⟨.pcb, h, fun st' => by cases st' <;> rfl⟩)
  | ftbWrapFailed h | ftbWrapMissing h | ftbSetIllegal _ _ _ _ h =>
    exact .inr (.inl ⟨.ftb, h, fun st' => by cases st' <;> rfl⟩)
  | _ => exact .inr (.inr fun st' => by cases st' <;> rfl)

theorem Effect.stageErr_clearOf {st : Stage} (he : Effect c r (clearOf st) q d e) : stageErr st q = 0 := by
  cases st <;> cases he with
  | packed _ _ _ _ hi | packIllegal _ _ _ _ hi => cases hi
  | _ => rfl

theorem Effect.stageErr_of_ne_zero {st : Stage} (he : Effect c r i q d e) (hi : i ≠ clearOf st)
    (h : stageErr st r ≠ 0) : stageErr st q = stageErr st r := by
  rcases he.stageErr_cases with ⟨st0, rfl, hq⟩ | ⟨st0, h0, hq⟩ | hq
  · rw [hq, stageErr_setStageErr_other]
    exact fun hst => hi (congrArg clearOf hst.symm)
  · rw [hq, stageErr_setStageErr_other]
    exact fun hst => h (hst ▸ h0)
  · exact hq st

theorem Effect.stageErr_of_eq_zero {st : Stage} (he : Effect c r i q d e) (h : stageErr st r = 0)
    (hq : stageErr st q ≠ 0) : e = stageErr st q := by
  rcases he.stageErr_cases with ⟨st0, rfl, hc⟩ | ⟨st0, h0, hc⟩ | hc
  · refine absurd ?_ hq
    by_cases hst : st = st0
    · rw [hc, hst, stageErr_setStageErr_self]
    · rw [hc, stageErr_setStageErr_other _ _ _ _ hst, h]
  · by_cases hst : st = st0
    · rw [hc, hst, stageErr_setStageErr_self]
    · exact absurd (by rw [hc, stageErr_setStageErr_other _ _ _ _ hst, h]) hq
  · exact absurd ((hc st).trans h) hq

end
end Sys2Proof.Machine
end

section
/-! The invariant of a good state (10_state.md R25, R28 to R33), clause by clause: each holds of the reset registers, and
each outcome of an instruction keeps it. In every proof the outcomes that write what the clause reads are named; the
others leave it as it stands. -/

namespace Sys2Proof.Machine

section
variable {c : Config} {r q : Regs} {i : Instr} {d : Word} {e : Byte}

/-! The sequence accumulator. -/

theorem seqRead_eq_zero_of_replicate (hr : r.seqSlot = Vector.replicate 8 0) (k : Nat) : seqRead r k = 0 := by
  rw [seqRead, hr, Vector.toList_replicate, List.getD_eq_getElem?_getD, List.getElem?_replicate]
  split <;> rfl

theorem seqRead_pushSeq (w : Half) {k : Nat} (hk : k ≠ r.seqK.toNat) : seqRead (pushSeq w r) k = seqRead r k := by
  simp only [seqRead, pushSeq_seqSlot, Vector.toList_setIfInBounds, List.getD_eq_getElem?_getD,
    List.getElem?_set_ne (Ne.symm hk)]

theorem seqInv_of_cleared (hr : r.seqSlot = Vector.replicate 8 0) (hk : r.seqK = 0) : SeqInv r :=
  ⟨by simp [hk], fun k _ _ => seqRead_eq_zero_of_replicate hr k⟩

theorem SeqInv.pushSeq (h : SeqInv r) (w : Half) (h8 : r.seqK ≠ 8) : SeqInv (pushSeq w r) := by
  obtain ⟨hle, hpad⟩ := h
  have hlt : r.seqK.toNat < 8 := Nat.lt_of_le_of_ne hle fun hk => h8 (BitVec.eq_of_toNat_eq hk)
  have hk : (Machine.pushSeq w r).seqK.toNat = r.seqK.toNat + 1 := by
    rw [pushSeq_seqK, BitVec.toNat_add_of_lt (by simp; omega)]; rfl
  refine ⟨by omega, fun k hk1 hk2 => ?_⟩
  rw [seqRead_pushSeq w (by omega)]
  exact hpad k (by omega) hk2

theorem Effect.seqInv (he : Effect c r i q d e) (h : SeqInv r) : SeqInv q := by
  cases he with
  | seqClear => exact seqInv_of_cleared rfl rfl
  | seqPush _ _ _ _ h8 _ => exact h.pushSeq _ h8
  | _ => exact h

/-! The sticky errors. -/

theorem stickyInv_of_zero (hr : ∀ st, stageErr st r = 0) : StickyInv r := by
  have hs : r.seqErr = 0 := hr .seq
  have hl : r.lutErr = 0 := hr .lut
  have hp : r.pcbErr = 0 := hr .pcb
  have hf : r.ftbErr = 0 := hr .ftb
  simp [StickyInv, hs, hl, hp, hf]

theorem StickyInv.stageErr_le (h : StickyInv r) (st : Stage) : (stageErr st r).toNat ≤ 4 := by
  obtain ⟨hs, hl, hp, hf⟩ := h
  simp only [List.mem_cons, List.not_mem_nil, or_false] at hs hl hp hf
  cases st <;> simp only [stageErr] <;> omega

/-- A code is copied only from a stage below, whose codes are all codes of the stage that copies it (R313). -/
theorem Effect.stickyInv (he : Effect c r i q d e) (h : StickyInv r) : StickyInv q := by
  obtain ⟨hs, hl, hp, hf⟩ := h
  have hsub : [0, 1, 2] ⊆ [0, 1, 2, 4] := by decide
  have hsub' : [0, 1, 2, 4] ⊆ [0, 1, 2, 3, 4] := by decide
  cases he with
  | seqClear | seqPushFull | seqPushIllegal => exact ⟨by simp, hl, hp, hf⟩
  | lutClear | lutSetSelector | lutSetBound => exact ⟨hs, by simp, hp, hf⟩
  | lutSetFailed => exact ⟨hs, hsub hs, hp, hf⟩
  | pcbClear | pcbSetIllegal => exact ⟨hs, hl, by simp, hf⟩
  | pcbLoadFailed => exact ⟨hs, hl, hl, hf⟩
  | ftbClear | ftbWrapMissing | ftbSetIllegal => exact ⟨hs, hl, hp, by simp⟩
  | ftbWrapFailed => exact ⟨hs, hl, hp, hsub' hp⟩
  | _ => exact ⟨hs, hl, hp, hf⟩

/-! The arrays. -/

theorem Effect.arrayInv (he : Effect c r i q d e) (h : ArrayInv c r) : ArrayInv c q := by
  obtain ⟨htab, hlut, hpimg, hwrap, hout⟩ := h
  cases he with
  | lutClear => exact ⟨⟨rfl, rfl⟩, hlut, hpimg, hwrap, hout⟩
  | lutSet f cmd _ _ _ hn =>
    have hlen : lutIndex (fixedIndex c.layout cmd).toNat 0 + r.seqSlot.toList.length ≤ 8 * c.layout.nseq := by
      simp only [lutIndex, Vector.length_toList]; omega
    exact ⟨⟨Cells.wf_writeList _ _ _ htab.1, Cells.within_writeList _ _ _ _ hlen htab.2⟩, hlut, hpimg, hwrap, hout⟩
  | pcbClear => exact ⟨htab, ⟨rfl, rfl⟩, ⟨rfl, rfl⟩, hwrap, hout⟩
  | pcbSetSticky | pcbSetIllegal | pcbSet | pcbLoadSticky | pcbLoadFailed | pcbFinalizeSticky | pcbFinalizeLayout
  | pcbFinalizeMissing => exact ⟨htab, hlut, ⟨rfl, rfl⟩, hwrap, hout⟩
  | pcbLoad => exact ⟨htab, ⟨Memory.wf_tabulate _ _, within_tabulate _ _⟩, ⟨rfl, rfl⟩, hwrap, hout⟩
  | pcbFinalize _ hw => exact ⟨htab, hlut, ⟨wf_buildPcb c _ _, within_buildPcb c _ _ hw⟩, hwrap, hout⟩
  | ftbClear => exact ⟨htab, hlut, hpimg, ⟨rfl, rfl⟩, rfl, rfl⟩
  | ftbWrapSticky | ftbWrapFailed | ftbWrapMissing | ftbSetSticky | ftbSetIllegal | ftbSet | ftbFinalizeSticky
  | ftbFinalizeLayout | ftbFinalizeMissing => exact ⟨htab, hlut, hpimg, hwrap, rfl, rfl⟩
  | ftbWrap => exact ⟨htab, hlut, hpimg, hpimg, rfl, rfl⟩
  | ftbFinalize _ hw =>
    exact ⟨htab, hlut, hpimg, hwrap, wf_buildFinal c _ _ hwrap.1, within_buildFinal c _ _ hw⟩
  | _ => exact ⟨htab, hlut, hpimg, hwrap, hout⟩

/-! The field registers. -/

theorem fieldsLegal_reset (c : Config) : FieldsLegal c pcbFieldsReset false :=
  ⟨fun _ => .inl rfl, nofun⟩

/-- Storing the encoding of a legal value keeps the field registers legal, and stores a clock frequency when it is the
clock frequency's (R228). -/
theorem FieldsLegal.setField {pf : PcbFields} {b : Bool} (h : FieldsLegal c pf b) {f : PcbField} {v w : Word}
    (hw : fieldEncode c f v = some w) : FieldsLegal c (setField pf f w) (b || f == .serialClkFreq) := by
  obtain ⟨hall, hclk⟩ := h
  have hself : getField (Machine.setField pf f w) f = w := getField_setField pf f w (fieldEncode_lt c f v w hw)
  refine ⟨fun g => ?_, fun hset => ?_⟩
  · by_cases hg : g = f
    · subst hg
      exact .inr ⟨v, by rw [hself, hw]⟩
    · rw [getField_setField_ne pf f g w hg]
      exact hall g
  · by_cases hf : f = .serialClkFreq
    · subst hf
      exact ⟨v, by rw [hself, hw]⟩
    · rw [getField_setField_ne pf f _ w (Ne.symm hf)]
      exact hclk (by simpa [hf] using hset)

theorem Effect.fieldsLegal (he : Effect c r i q d e) (h : FieldsLegal c r.pf r.pfSclkSet) :
    FieldsLegal c q.pf q.pfSclkSet := by
  cases he with
  | pcbClear => exact fieldsLegal_reset c
  | pcbSet _ _ _ _ _ _ _ hl => exact h.setField hl
  | _ => exact h

/-! The peripheral image. -/

theorem pcbInv_of_stale (hv : q.pcbValid = false) (hm : q.pimg = []) : PcbInv c q :=
  ⟨fun _ => hm, fun ht => absurd ht (by simp [hv])⟩

theorem Effect.pcbInv (he : Effect c r i q d e) (h : PcbInv c r) : PcbInv c q := by
  cases he with
  | pcbClear | pcbSetSticky | pcbSetIllegal | pcbSet | pcbLoadSticky | pcbLoadFailed | pcbLoad | pcbFinalizeSticky
  | pcbFinalizeLayout | pcbFinalizeMissing => exact pcbInv_of_stale rfl rfl
  | pcbFinalize h0 hw hl hs => exact ⟨nofun, fun _ => ⟨h0, hl, hs, hw, rfl⟩⟩
  | _ => exact h

/-! The wrapped image and the trailer registers. -/

/-- A valid peripheral image is one some PCB_FINALIZE built from legal values. -/
theorem PcbInv.isPcbImage (h : PcbInv c r) (hf : FieldsLegal c r.pf r.pfSclkSet) (hv : r.pcbValid = true) :
    IsPcbImage c r.pimg := by
  obtain ⟨-, -, hs, hw, hm⟩ := h.2 hv
  exact ⟨hw, r.pf, r.pcbLut, hs ▸ hf, hm⟩

/-- Storing the encoding of a legal trailer value and setting its bit keeps every stored trailer value legal (R275). -/
theorem trailers_legal_storeTrailer {t : FtbField} {v w : Word} (hw : trailerEncode c t v = some w)
    (h : ∀ u, r.tfSet.getLsbD (ftbFieldIndex u).val = true → ∃ v, trailerEncode c u v = some (getTrailer r.tf u))
    (u : FtbField) (hu : (storeTrailer t w r).tfSet.getLsbD (ftbFieldIndex u).val = true) :
    ∃ v, trailerEncode c u v = some (getTrailer (storeTrailer t w r).tf u) := by
  rw [storeTrailer_tfSet, setTrailerBit_getLsbD] at hu
  rw [storeTrailer_tf]
  by_cases hut : u = t
  · subst hut
    exact ⟨v, by rw [getTrailer_setTrailer c r.tf u v w hw, hw]⟩
  · have hne : (ftbFieldIndex u).val ≠ (ftbFieldIndex t).val := by
      cases u <;> cases t <;> first | exact absurd rfl hut | decide
    rw [getTrailer_setTrailer_ne r.tf t u w hut]
    exact h u (by simpa [hne] using hu)

theorem Effect.wrapInv (he : Effect c r i q d e) (h : WrapInv c r) (hp : PcbInv c r)
    (hf : FieldsLegal c r.pf r.pfSclkSet) : WrapInv c q := by
  cases he with
  | ftbClear => exact ⟨nofun, fun t ht => absurd ht (by simp)⟩
  | ftbWrap _ _ hv => exact ⟨fun _ => hp.isPcbImage hf hv, h.2⟩
  | ftbSet _ _ _ _ _ _ hl => exact ⟨h.1, trailers_legal_storeTrailer hl h.2⟩
  | _ => exact h

/-! The final image. -/

theorem outInv_of_stale (hv : q.outValid = false) (hm : q.out = []) : OutInv c q :=
  ⟨fun _ => hm, fun ht => absurd ht (by simp [hv])⟩

theorem Effect.outInv (he : Effect c r i q d e) (h : OutInv c r) : OutInv c q := by
  cases he with
  | ftbClear | ftbWrapSticky | ftbWrapFailed | ftbWrapMissing | ftbWrap | ftbSetSticky | ftbSetIllegal | ftbSet
  | ftbFinalizeSticky | ftbFinalizeLayout | ftbFinalizeMissing => exact outInv_of_stale rfl rfl
  | ftbFinalize h0 hw hr ht => exact ⟨nofun, fun _ => ⟨h0, hr, ht, hw, rfl⟩⟩
  | _ => exact h

end

/-! The whole invariant. -/

section
variable {s t : State} {q : Regs} {i : Instr} {x : InstrWord} {d : Word} {e : Byte}

/-- The reset registers meet the invariant under every CONFIG. -/
theorem inv_of_regs_reset (h : s.regs = regsReset) : Inv s where
  seq := h ▸ seqInv_of_cleared rfl rfl
  sticky := h ▸ stickyInv_of_zero fun st => by cases st <;> rfl
  arrays := h ▸ ⟨⟨rfl, rfl⟩, ⟨rfl, rfl⟩, ⟨rfl, rfl⟩, ⟨rfl, rfl⟩, rfl, rfl⟩
  fields := h ▸ fieldsLegal_reset s.cfg
  pcb := h ▸ pcbInv_of_stale rfl rfl
  wrap := h ▸ ⟨nofun, fun t ht => absurd ht (by simp [regsReset])⟩
  out := h ▸ outInv_of_stale rfl rfl

/-- The invariant speaks of CONFIG and the registers only, not of the two ports. -/
theorem Inv.congr (h : Inv s) (hc : t.cfg = s.cfg) (hr : t.regs = s.regs) : Inv t := by
  obtain ⟨c, r, l, p⟩ := t
  subst hc hr
  exact ⟨h.seq, h.sticky, h.arrays, h.fields, h.pcb, h.wrap, h.out⟩

/-- Every instruction keeps the invariant. -/
theorem Effect.inv (he : Effect s.cfg s.regs i q d e) (h : Inv s) : Inv (s.withRegs q) where
  seq := he.seqInv h.seq
  sticky := he.stickyInv h.sticky
  arrays := he.arrayInv h.arrays
  fields := he.fieldsLegal h.fields
  pcb := he.pcbInv h.pcb
  wrap := he.wrapInv h.wrap h.pcb h.fields
  out := he.outInv h.out

/-- So does every presented word: it has the effect of an instruction, or changes no register. -/
theorem WordEffect.inv (he : WordEffect s.cfg s.regs x q d e) (h : Inv s) : Inv (s.withRegs q) := by
  cases he with
  | runs _ he | packs _ he => exact he.inv h
  | refused => exact h

end

/-- Settles O50. -/
theorem invariantAtReset : Obligations.InvariantAtReset := inv_of_regs_reset rfl

/-- Settles O49, by cases on what a step can do: nothing, a reset, or the answer to a presented word. -/
theorem stepKeepsInvariant : Obligations.StepKeepsInvariant := by
  intro s t h ht
  rcases step_cases s with ⟨-, hs⟩ | ⟨rest, -, hs⟩ | ⟨x, rest, q, d, e, -, he, hs⟩ <;> cases hs.symm.trans ht
  · exact h
  · exact inv_of_regs_reset rfl
  · exact (he.inv h).congr rfl rfl

end Sys2Proof.Machine
end

section
/-! What follows from the sticky errors for one instruction and for a list of them (10_state.md R31; 43_peripheral_block.md
R232; 60_exceptions.md R315). -/

namespace Sys2Proof.Machine

section
variable {c : Config} {r q : Regs} {i : Instr} {d : Word} {e : Byte}

theorem statusOf_responseWord (s : State) (hs : s.response = some (responseWord d e)) : statusOf s = some e := by
  rw [statusOf, hs, Option.map_some, responseWord_status]

/-- While PCB_ERR is on, no instruction makes PCB_VALID 1. -/
theorem Effect.pcbValid_eq_false (he : Effect c r i q d e) (h : r.pcbErr ≠ 0) (hv : r.pcbValid = false) :
    q.pcbValid = false := by
  cases he with
  | pcbFinalize h0 => exact absurd h0 h
  | pcbClear | pcbSetSticky | pcbSetIllegal | pcbSet | pcbLoadSticky | pcbLoadFailed | pcbLoad | pcbFinalizeSticky
  | pcbFinalizeLayout | pcbFinalizeMissing => rfl
  | _ => exact hv

/-- While FTB_ERR is on, no instruction makes OUT_VALID 1. -/
theorem Effect.outValid_eq_false (he : Effect c r i q d e) (h : r.ftbErr ≠ 0) (hv : r.outValid = false) :
    q.outValid = false := by
  cases he with
  | ftbFinalize h0 => exact absurd h0 h
  | ftbClear | ftbWrapSticky | ftbWrapFailed | ftbWrapMissing | ftbWrap | ftbSetSticky | ftbSetIllegal | ftbSet
  | ftbFinalizeSticky | ftbFinalizeLayout | ftbFinalizeMissing => rfl
  | _ => exact hv

end

/-- The first of a list of instructions answers, and the others run from the state it leaves. -/
theorem execAll_cons {s t : State} {i : Instr} {is : List Instr} (h : execAll s (i :: is) = some t) :
    ∃ u, exec i s = .next u ∧ execAll u is = some t := by
  obtain ⟨q, d, e, -, hx⟩ := exec_effect i s
  rw [execAll, hx] at h
  exact ⟨_, hx, h⟩

/-- What every instruction of a list keeps, the list keeps. -/
theorem execAll_induction {P : State → Prop} {is : List Instr} {s t : State}
    (hstep : ∀ i ∈ is, ∀ u v, P u → exec i u = .next v → P v) (hs : P s) (h : execAll s is = some t) : P t := by
  induction is generalizing s with
  | nil => exact Option.some.inj h ▸ hs
  | cons i is ih =>
    obtain ⟨u, hu, ht⟩ := execAll_cons h
    exact ih (fun j hj => hstep j (List.mem_cons_of_mem i hj)) (hstep i List.mem_cons_self s u hs hu) ht

/-- Settles O51. -/
theorem firstErrorSticks : Obligations.FirstErrorSticks := by
  intro i st s t hx
  obtain ⟨q, d, e, he, rfl⟩ := exec_next i s t hx
  refine ⟨?_, he.stageErr_of_ne_zero, fun h hq => ?_, fun h => (he.stickyInv h.sticky).stageErr_le st⟩
  · rintro rfl
    exact he.stageErr_clearOf
  · rw [statusOf_responseWord _ rfl, he.stageErr_of_eq_zero h hq]

/-- Without its own CLEAR a failed stage keeps its error, and with it whatever valid bit its error keeps down. -/
theorem execAll_of_failed {st : Stage} {valid : Regs → Bool}
    (hvalid : ∀ {c r i q d e}, Effect c r i q d e → stageErr st r ≠ 0 → valid r = false → valid q = false)
    (is : List Instr) (s t : State) (herr : stageErr st s.regs ≠ 0) (hv : valid s.regs = false)
    (hclr : clearOf st ∉ is) :
    execAll s is = some t → stageErr st t.regs = stageErr st s.regs ∧ valid t.regs = false := by
  refine execAll_induction (P := fun u => stageErr st u.regs = stageErr st s.regs ∧ valid u.regs = false) ?_ ⟨rfl, hv⟩
  rintro i hi u v ⟨hu, huv⟩ hx
  obtain ⟨q, d, e, he, rfl⟩ := exec_next i u v hx
  have hne : stageErr st u.regs ≠ 0 := hu ▸ herr
  exact ⟨(he.stageErr_of_ne_zero (ne_of_mem_of_not_mem hi hclr) hne).trans hu, hvalid he hne huv⟩

/-- Settles O56. -/
theorem failedStageBuildsNothing : Obligations.FailedStageBuildsNothing :=
  ⟨execAll_of_failed (st := .pcb) Effect.pcbValid_eq_false, execAll_of_failed (st := .ftb) Effect.outValid_eq_false⟩

end Sys2Proof.Machine
end

section
/-! No hidden state (10_state.md R35). `Effect` and `WordEffect` say not only what an answer can be but what it is, so
two states that agree in CONFIG and registers answer alike. -/

namespace Sys2Proof.Machine

/-! Which operation an instruction comes to. -/

section
variable (s : State)

theorem exec_of_packerTriple {i : Instr} {o p : Byte} {d : Word} (hi : packerTriple i = some (o, p, d)) :
    exec i s = packInto o p d s := by
  cases i <;> cases hi <;> rfl

theorem exec_lutSet_of_none {f : Byte} (h : s.regs.lutErr = 0) (hc : selectCommand s.cfg.layout f = none) :
    exec (.lutSet f) s = fail .lut .invalidFieldValue s := by
  simp only [exec, execLutSet, h, hc, ne_eq, not_true_eq_false, if_false]

theorem exec_lutSet_of_some {f : Byte} {cmd : Command} (h : s.regs.lutErr = 0)
    (hc : selectCommand s.cfg.layout f = some cmd) :
    exec (.lutSet f) s = lutSetSlot (fixedIndex s.cfg.layout cmd) s := by
  simp only [exec, execLutSet, h, hc, ne_eq, not_true_eq_false, if_false]

theorem exec_pcbSet_of_none {b : Byte} (v : Word) (hf : pcbFieldOf b = none) :
    exec (.pcbSet b v) s = raise .invalidCommand s := by
  simp only [exec, execPcbSet, hf]

theorem exec_pcbSet_of_some {b : Byte} {f : PcbField} (v : Word) (hf : pcbFieldOf b = some f) :
    exec (.pcbSet b v) s = pcbSetField f v (s.withRegs (invalidatePcb s.regs)) := by
  simp only [exec, execPcbSet, hf]

theorem pcbSetField_of_illegal {f : PcbField} {v : Word} (h : s.regs.pcbErr = 0)
    (hl : f ∉ s.cfg.family.fields ∨ fieldEncode s.cfg f v = none) :
    pcbSetField f v s = failedWith s { s.regs with pcbErr := 1 } 1 := by
  refine Eq.trans ?_ (fail_of_zero .pcb .invalidFieldValue s h)
  rcases hl with hl | hl <;> simp [pcbSetField, h, hl]

theorem pcbSetField_of_legal {f : PcbField} {v w : Word} (h : s.regs.pcbErr = 0) (hm : f ∈ s.cfg.family.fields)
    (hl : fieldEncode s.cfg f v = some w) : pcbSetField f v s = respond 0 (s.withRegs (storeField f w s.regs)) := by
  simp [pcbSetField, h, hm, hl]

theorem exec_ftbSet_of_none {b : Byte} (v : Word) (hf : ftbFieldOf b = none) :
    exec (.ftbSet b v) s = raise .invalidCommand s := by
  simp only [exec, execFtbSet, hf]

theorem exec_ftbSet_of_some {b : Byte} {t : FtbField} (v : Word) (hf : ftbFieldOf b = some t) :
    exec (.ftbSet b v) s = ftbSetField t v (s.withRegs (invalidateOut s.regs)) := by
  simp only [exec, execFtbSet, hf]

theorem ftbSetField_of_illegal {t : FtbField} {v : Word} (h : s.regs.ftbErr = 0) (hl : trailerEncode s.cfg t v = none) :
    ftbSetField t v s = failedWith s { s.regs with ftbErr := 1 } 1 := by
  refine Eq.trans ?_ (fail_of_zero .ftb .invalidFieldValue s h)
  simp [ftbSetField, h, hl]

theorem ftbSetField_of_legal {t : FtbField} {v w : Word} (h : s.regs.ftbErr = 0)
    (hl : trailerEncode s.cfg t v = some w) : ftbSetField t v s = respond 0 (s.withRegs (storeTrailer t w s.regs)) := by
  simp [ftbSetField, h, hl]

/-- PCB_FINALIZE with something missing, past its first two tests (R230). -/
theorem pcbFinish_of_missing (h : s.regs.pcbErr = 0) (hw : layoutWf s.cfg = true)
    (hm : s.regs.pcbLutSet = false ∨ s.regs.pfSclkSet = false ∨ s.regs.pf.dmEn = 1 ∧ s.regs.pf.dmSeq = 0) :
    pcbFinish s = raise .missingRequiredField s := by
  rcases hm with hm | hm | hm <;> simp [pcbFinish, h, hw, hm]

theorem pcbFinish_of_complete (h : s.regs.pcbErr = 0) (hw : layoutWf s.cfg = true) (hl : s.regs.pcbLutSet = true)
    (hs : s.regs.pfSclkSet = true) (hd : ¬ (s.regs.pf.dmEn = 1 ∧ s.regs.pf.dmSeq = 0)) :
    pcbFinish s = respond s.cfg.layout.pcbSize (s.withRegs (finishPcb s.cfg s.regs)) := by
  rw [pcbFinish, if_neg (not_not.mpr h), if_neg (by simp [hw]), if_neg (by simp [hl]), if_neg (by simp [hs]), if_neg hd]

/-- FTB_FINALIZE with something missing, past its first two tests (R276). -/
theorem ftbFinish_of_missing (h : s.regs.ftbErr = 0) (hw : layoutWf s.cfg = true)
    (hm : s.regs.ftbWrapped = false ∨ s.regs.tfSet ≠ 0b111) : ftbFinish s = raise .missingRequiredField s := by
  rw [ftbFinish, if_neg (not_not.mpr h), if_neg (by simp [hw])]
  by_cases hr : s.regs.ftbWrapped = false
  · exact if_pos hr
  · exact (if_neg hr).trans (if_pos (hm.resolve_left hr))

/-- Under a well-formed layout the length the final image is asserted to have is the one it has (R221 item 1). -/
theorem ftbFinish_of_complete (h : s.regs.ftbErr = 0) (hw : layoutWf s.cfg = true) (hr : s.regs.ftbWrapped = true)
    (ht : s.regs.tfSet = 0b111) :
    ftbFinish s = respond s.cfg.layout.totalSize (s.withRegs (finishFtb s.cfg s.regs)) := by
  rw [ftbFinish, if_neg (not_not.mpr h), if_neg (by simp [hw]), if_neg (by simp [hr]), if_neg (not_not.mpr ht),
    if_neg (not_not.mpr (layoutWf_total s.cfg hw).symm)]

end

/-- The converse of `exec_effect`: an instruction answers exactly what `Effect` says. -/
theorem Effect.exec_eq {s : State} {i : Instr} {q : Regs} {d : Word} {e : Byte} (he : Effect s.cfg s.regs i q d e) :
    exec i s = answerWith s q d e := by
  cases he with
  | packed i o p d hi hl => exact (exec_of_packerTriple s hi).trans (if_pos hl)
  | packIllegal i o p d hi hl => exact (exec_of_packerTriple s hi).trans (if_neg (by simp [hl]))
  | nop | status | info | rdResult | seqClear | lutClear | pcbClear | ftbClear => rfl
  | seqPushSticky _ _ _ h | lutSetSticky _ h | pcbLoadSticky h | pcbFinalizeSticky h | ftbWrapSticky h
  | ftbFinalizeSticky h => exact if_pos h
  | seqPushFull _ _ _ h h8 =>
    exact (if_neg (not_not.mpr h)).trans ((if_pos h8).trans (fail_of_zero .seq _ s h))
  | seqPushIllegal _ _ _ h h8 hl =>
    exact (if_neg (not_not.mpr h)).trans ((if_neg h8).trans ((if_neg (by simp [hl])).trans (fail_of_zero .seq _ s h)))
  | seqPush _ _ _ h h8 hl => exact (if_neg (not_not.mpr h)).trans ((if_neg h8).trans (if_pos hl))
  | seqReadRange _ h | lutReadRange _ h | pcbReadRange _ h | outReadRange _ h | outRead32Range _ h => exact if_pos h
  | seqRead _ h | lutRead _ h => exact if_neg (by omega)
  | pcbReadInvalid _ h hv | outReadInvalid _ h hv | outRead32Invalid _ h hv =>
    exact (if_neg (by omega)).trans (if_pos hv)
  | pcbRead _ h hv | outRead _ h hv | outRead32 _ h hv =>
    exact (if_neg (by omega)).trans (if_neg (by simp [hv]))
  | lutSetSelector _ h hc => exact (exec_lutSet_of_none s h hc).trans (fail_of_zero .lut _ s h)
  | lutSetFailed _ _ h hc hs =>
    exact (exec_lutSet_of_some s h hc).trans ((if_pos hs).trans (failCode_of_zero .lut _ s h))
  | lutSetBound _ _ h hc hs hn =>
    exact (exec_lutSet_of_some s h hc).trans
      ((if_neg (not_not.mpr hs)).trans ((if_pos hn).trans (fail_of_zero .lut _ s h)))
  | lutSet _ _ h hc hs hn =>
    exact (exec_lutSet_of_some s h hc).trans ((if_neg (not_not.mpr hs)).trans (if_neg (by omega)))
  | pcbSetId _ v hf => exact exec_pcbSet_of_none s v hf
  | pcbSetSticky _ v _ hf h => exact (exec_pcbSet_of_some s v hf).trans (if_pos h)
  | pcbSetIllegal _ v _ hf h hl =>
    exact (exec_pcbSet_of_some s v hf).trans (pcbSetField_of_illegal (s.withRegs (invalidatePcb s.regs)) h hl)
  | pcbSet _ v _ _ hf h hm hl => exact (exec_pcbSet_of_some s v hf).trans (pcbSetField_of_legal _ h hm hl)
  | pcbLoadFailed h hl =>
    exact (if_neg (not_not.mpr h)).trans ((if_pos hl).trans (failCode_of_zero .pcb _ _ h))
  | pcbLoad h hl => exact (if_neg (not_not.mpr h)).trans (if_neg (not_not.mpr hl))
  | pcbFinalizeLayout h hw | ftbFinalizeLayout h hw => exact (if_neg (not_not.mpr h)).trans (if_pos hw)
  | pcbFinalizeMissing h hw hm => exact pcbFinish_of_missing (s.withRegs (invalidatePcb s.regs)) h hw hm
  | pcbFinalize h hw hl hs hd => exact pcbFinish_of_complete (s.withRegs (invalidatePcb s.regs)) h hw hl hs hd
  | ftbWrapFailed h hp =>
    exact (if_neg (not_not.mpr h)).trans ((if_pos hp).trans (failCode_of_zero .ftb _ _ h))
  | ftbWrapMissing h hp hv =>
    exact (if_neg (not_not.mpr h)).trans
      ((if_neg (not_not.mpr hp)).trans ((if_pos hv).trans (fail_of_zero .ftb _ _ h)))
  | ftbWrap h hp hv =>
    exact (if_neg (not_not.mpr h)).trans ((if_neg (not_not.mpr hp)).trans (if_neg (by simp [hv])))
  | ftbSetId _ v hf => exact exec_ftbSet_of_none s v hf
  | ftbSetSticky _ v _ hf h => exact (exec_ftbSet_of_some s v hf).trans (if_pos h)
  | ftbSetIllegal _ v _ hf h hl =>
    exact (exec_ftbSet_of_some s v hf).trans (ftbSetField_of_illegal (s.withRegs (invalidateOut s.regs)) h hl)
  | ftbSet _ v _ _ hf h hl => exact (exec_ftbSet_of_some s v hf).trans (ftbSetField_of_legal _ h hl)
  | ftbFinalizeMissing h hw hm => exact ftbFinish_of_missing (s.withRegs (invalidateOut s.regs)) h hw hm
  | ftbFinalize h hw hr ht => exact ftbFinish_of_complete (s.withRegs (invalidateOut s.regs)) h hw hr ht

/-- The converse of `step_of_present`: a presented word is answered exactly as `WordEffect` says. -/
theorem WordEffect.step_eq {s : State} {x : InstrWord} {q : Regs} {d : Word} {e : Byte}
    (he : WordEffect s.cfg s.regs x q d e) (rest : List Request) (hr : s.requests = .present x :: rest) :
    step s = answerWith (acceptRequest s rest) q d e := by
  cases he with
  | runs hx he => exact (step_of_runnable s _ rest _ hr hx).trans (Effect.exec_eq (s := acceptRequest s rest) he)
  | refused hx => exact step_of_unrunnable s _ rest hr hx
  | packs hx he =>
    exact (step_of_unrunnable s _ rest hr hx).trans
      ((packWord_eq_exec _ _).trans (Effect.exec_eq (s := acceptRequest s rest) he))

/-- Settles O57: the effect of the word on the first state is one on the second, which has the same CONFIG and
registers. -/
theorem noHiddenState : Obligations.NoHiddenState := by
  intro s s' t t' x rest rest' hregs hcfg hr hr' ht ht'
  obtain ⟨q, d, e, he, hs⟩ := step_of_present s x rest hr
  rw [hregs, hcfg] at he
  cases hs.symm.trans ht
  cases (he.step_eq rest' hr').symm.trans ht'
  exact ⟨rfl, rfl⟩

end Sys2Proof.Machine
end

section
/-! The lookup table as bytes (20_memory.md R62, R63), and what LUT_SET and LUT_CLEAR do to them (42_lookup_table.md R200,
R202, R203). -/

namespace Sys2Proof.Machine

/-! The serialised table. -/

/-- Settles O27. -/
theorem tableSerialisation : Obligations.TableSerialisation := by
  intro tab s j hj
  have hslot : (16 * s + 2 * j) / 16 = s ∧ (16 * s + 2 * j + 1) / 16 = s := by omega
  have hinstr : (16 * s + 2 * j) % 16 / 2 = j ∧ (16 * s + 2 * j + 1) % 16 / 2 = j := by omega
  have hhalf : (16 * s + 2 * j) % 2 = 0 ∧ (16 * s + 2 * j + 1) % 2 ≠ 0 := by omega
  simp only [lutSer, lutIndex, hslot, hinstr, hhalf, if_true, if_false, and_self]

/-- A byte of the serialised table depends on its instruction only. -/
theorem lutSer_congr {tab tab' : Cells 16} {a : Nat}
    (h : Cells.read tab (8 * (a / 16) + a % 16 / 2) = Cells.read tab' (8 * (a / 16) + a % 16 / 2)) :
    lutSer tab a = lutSer tab' a := by
  simp only [lutSer, lutIndex, h]

@[simp] theorem lutSer_nil (a : Nat) : lutSer [] a = 0 := by
  simp [lutSer]

/-! One slot mapped. -/

theorem read_mapSequence_slot (r : Regs) (i : Nat) {j : Nat} (hj : j < 8) :
    Cells.read (mapSequence i r).lutTab (8 * i + j) = seqRead r j := by
  rw [read_mapSequence, if_pos (by omega), Nat.add_sub_cancel_left]

theorem lutSer_mapSequence_other (r : Regs) {i a : Nat} (ha : a < 16 * i ∨ 16 * i + 16 ≤ a) :
    lutSer (mapSequence i r).lutTab a = lutSer r.lutTab a :=
  lutSer_congr (by rw [read_mapSequence, if_neg (by omega)])

/-! The selector and the slot it selects. -/

theorem customCommand_slot_iff (l : Layout) {n : Nat} (hn : n < 2 ^ 32) (i : Nat) :
    (∃ cmd, customCommand l n = some cmd ∧ (fixedIndex l cmd).toNat = i) ↔ i = n ∧ i < l.nseq ∧ i ∉ namedSlots l := by
  have hslot : (fixedIndex l (.custom n)).toNat = n := (BitVec.toNat_ofNat n 32).trans (Nat.mod_eq_of_lt hn)
  simp only [customCommand_eq_some]
  constructor
  · rintro ⟨_, ⟨rfl, hc⟩, rfl⟩
    rw [hslot]
    exact ⟨rfl, hc⟩
  · rintro ⟨rfl, hc⟩
    exact ⟨_, ⟨rfl, hc⟩, hslot⟩

/-- Selectors 0x01 to 0x06 name a Command, those from 0x80 on a Custom one, and no other selects any (R106, R200). -/
theorem selectCommand_slot_iff (l : Layout) (f : Byte) (i : Nat) :
    (∃ cmd, selectCommand l f = some cmd ∧ (fixedIndex l cmd).toNat = i) ↔ selectsSlot l f i := by
  unfold selectCommand selectsSlot
  split
  case h_7 h1 h2 h3 h4 h5 h6 =>
    simp only [eq_false h1, eq_false h2, eq_false h3, eq_false h4, eq_false h5, eq_false h6, false_and, false_or]
    by_cases hf : 0x80 ≤ f.toNat
    · have hi : f.toNat = 0x80 + i ↔ i = f.toNat - 0x80 := by omega
      rw [if_pos hf, customCommand_slot_iff l (by omega), hi]
      rfl
    · simp only [if_neg hf, reduceCtorEq, false_and, exists_false, false_iff]
      omega
  all_goals
    rename_i hf
    have hcustom : f.toNat ≠ 0x80 + i := by omega
    rw [hf] at hcustom
    simp [hf, hcustom, fixedIndex, @eq_comm _ i]

/-- LUT_SET answers status 0 only when it maps the sequence into the slot of the Command selected. -/
theorem Effect.eq_mapSequence_of_lutSet {c : Config} {r q : Regs} {f : Byte} {d : Word} {e : Byte} {i : Nat}
    (he : Effect c r (.lutSet f) q d e) (h0 : e = 0) (hi : selectsSlot c.layout f i) : q = mapSequence i r := by
  cases he with
  | packed _ _ _ _ hp | packIllegal _ _ _ _ hp => cases hp
  | lutSetSticky _ h => exact absurd h0 h
  | lutSetFailed _ _ _ _ h => exact absurd h0 h
  | lutSetSelector | lutSetBound => exact absurd h0 (by decide)
  | lutSet _ cmd _ hc =>
    obtain ⟨cmd', hc', rfl⟩ := (selectCommand_slot_iff c.layout f i).mpr hi
    cases hc.symm.trans hc'
    rfl

/-- Settles O28: with status 0 LUT_SET has mapped the slot, whose bytes R63 places; LUT_CLEAR leaves the empty table. -/
theorem lutSetStoresOneSlot : Obligations.LutSetStoresOneSlot := by
  refine ⟨fun f s t i hi hx h0 => ?_, fun s t a hx => ?_⟩
  · obtain ⟨q, d, e, he, rfl⟩ := exec_next _ s t hx
    have hq : q = mapSequence i s.regs :=
      he.eq_mapSequence_of_lutSet (Option.some.inj ((statusOf_responseWord _ rfl).symm.trans h0)) hi
    subst hq
    refine ⟨fun j hj => ?_, fun a ha => lutSer_mapSequence_other s.regs ha⟩
    rw [← read_mapSequence_slot s.regs i hj]
    exact tableSerialisation _ i j hj
  · cases hx
    exact lutSer_nil a

end Sys2Proof.Machine
end

section
/-! The read commands (20_memory.md R68): none of them writes a register. -/

namespace Sys2Proof.Machine

theorem Effect.eq_of_isRead {c : Config} {r q : Regs} {i : Instr} {d : Word} {e : Byte} (he : Effect c r i q d e)
    (hi : isRead i) : q = r := by
  rcases hi with rfl | rfl | rfl | ⟨_, rfl⟩ | ⟨_, rfl⟩ | ⟨_, rfl⟩ | ⟨_, rfl⟩ | ⟨_, rfl⟩ <;> cases he with
  | packed _ _ _ _ hp => cases hp
  | _ => rfl

/-- Settles O48: the effect of the read on the first state is one on the state it leaves, which has the same CONFIG and
registers. -/
theorem readsHaveNoSideEffects : Obligations.ReadsHaveNoSideEffects := by
  intro i s hi
  obtain ⟨q, d, e, he, hx⟩ := exec_effect i s
  obtain rfl := he.eq_of_isRead hi
  exact ⟨_, hx, rfl, rfl, Effect.exec_eq (s := { s with response := some (responseWord d e) }) he⟩

end Sys2Proof.Machine
end

section
/-! The two encodings (30_encoding.md R90, R95, R102, R103, R112): the decoder read off the spec's two tables, `lutRows`
and `commandTable`, and the laws between `decode`, `encode`, `runnable` and the packer that follow. -/

namespace Sys2Proof.Machine

/-- Settles O1: a LUT instruction is decoded from its three fields and a command from its four. -/
theorem decodeOfEncode : Obligations.DecodeOfEncode := by
  intro i
  cases i with
  | nop | enc | status | info | rdResult | seqClear | seqPush | seqRead | lutClear | lutSet | lutRead | pcbClear | pcbSet
  | pcbLoadLut | pcbFinalize | pcbRead | ftbClear | ftbWrap | ftbSet | ftbFinalize | outRead | outRead32 =>
    exact decode_commandWord _ _ _ _
  | _ => exact decode_lutWord _ _ _

/-- Settles O7: the words are what the encoder makes of the instructions. -/
theorem sampleWordsDecode : Obligations.SampleWordsDecode :=
  ⟨decodeOfEncode (.cmdSdr 0 0xEB), decodeOfEncode (.raddrSdr 2 0x18), decodeOfEncode .nop,
    decodeOfEncode (.enc 0x01 0 0xEB), decodeOfEncode (.seqPush 0x02 0x02 0x18), decodeOfEncode (.lutSet 0x82),
    decodeOfEncode (.pcbSet 0x0B 30), decodeOfEncode (.ftbSet 0x01 256), decodeOfEncode (.outRead32 0x1C0)⟩

/-! The LUT opcodes. -/

/-- The values of the map and the reserved ones share out the 64 values of an OPCODE (R95). -/
theorem exists_lutRow_iff (o : BitVec 6) :
    (∃ row ∈ lutRows, row.opcode.toNat = o.toNat) ↔ ¬ reservedOpcode o.toNat := by
  revert o
  unfold reservedOpcode
  decide

theorem encode_lutRow {row : LutRow} (hr : row ∈ lutRows) (p : BitVec 2) (d : Byte) :
    encode (row.make p d) = lutWord (row.opcode.setWidth 6) p d := by
  revert row
  simp only [lutRows, ← List.forall_iff_forall_mem, List.Forall]
  and_intros <;> rfl

theorem decodeOpcode_lutRow {row : LutRow} (hr : row ∈ lutRows) (p : BitVec 2) (d : Byte) :
    decodeOpcode (row.opcode.setWidth 6) p d = .ok (row.make p d) := by
  rw [← decode_lutWord, ← encode_lutRow hr]
  exact decodeOfEncode _

theorem decodeOpcode_of_reserved {o : BitVec 6} (ho : reservedOpcode o.toNat) (p : BitVec 2) (d : Byte) :
    decodeOpcode o p d = .error .reservedOpcode := by
  unfold reservedOpcode at ho
  unfold decodeOpcode
  split
  case h_29 => rfl
  all_goals omega

/-- An opcode decodes to the instruction of its row, or is reserved. -/
theorem decodeOpcode_cases (o : BitVec 6) (p : BitVec 2) (d : Byte) :
    (∃ row ∈ lutRows, o = row.opcode.setWidth 6 ∧ decodeOpcode o p d = .ok (row.make p d))
      ∨ reservedOpcode o.toNat ∧ decodeOpcode o p d = .error .reservedOpcode := by
  by_cases ho : reservedOpcode o.toNat
  · exact .inr ⟨ho, decodeOpcode_of_reserved ho p d⟩
  · obtain ⟨row, hr, hrow⟩ := (exists_lutRow_iff o).mpr ho
    have hop : o = row.opcode.setWidth 6 := BitVec.eq_of_toNat_eq (by rw [BitVec.toNat_setWidth, hrow]; omega)
    exact .inl ⟨row, hr, hop, hop ▸ decodeOpcode_lutRow hr p d⟩

theorem decodeOpcode_eq_error_iff (o : BitVec 6) (p : BitVec 2) (d : Byte) :
    decodeOpcode o p d = .error .reservedOpcode ↔ reservedOpcode o.toNat := by
  refine ⟨fun h => ?_, fun h => decodeOpcode_of_reserved h p d⟩
  rcases decodeOpcode_cases o p d with ⟨row, -, -, hok⟩ | ⟨ho, -⟩
  · cases hok.symm.trans h
  · exact ho

theorem encode_of_decodeOpcode {o : BitVec 6} {p : BitVec 2} {d : Byte} {i : Instr} (h : decodeOpcode o p d = .ok i) :
    encode i = lutWord o p d := by
  rcases decodeOpcode_cases o p d with ⟨row, hr, rfl, hok⟩ | ⟨-, he⟩
  · cases hok.symm.trans h
    exact encode_lutRow hr p d
  · cases he.symm.trans h

/-! The command codes. -/

/-- A row of R102 with the instruction it makes of F1, F2 and V. -/
structure CommandForm where
  row : CommandRow
  make : Byte → Byte → Word → Instr

/-- The table of R102, each row with its instruction. -/
def commandForms : List CommandForm :=
  commandTable.zipWith CommandForm.mk
    [fun _ _ _ => .nop, fun f1 f2 v => .enc f1 f2 v, fun _ _ _ => .status, fun _ _ _ => .info, fun _ _ _ => .rdResult,
      fun _ _ _ => .seqClear, fun f1 f2 v => .seqPush f1 f2 v, fun f1 _ _ => .seqRead f1, fun _ _ _ => .lutClear,
      fun f1 _ _ => .lutSet f1, fun _ _ v => .lutRead v, fun _ _ _ => .pcbClear, fun f1 _ v => .pcbSet f1 v,
      fun _ _ _ => .pcbLoadLut, fun _ _ _ => .pcbFinalize, fun _ _ v => .pcbRead v, fun _ _ _ => .ftbClear,
      fun _ _ _ => .ftbWrap, fun f1 _ v => .ftbSet f1 v, fun _ _ _ => .ftbFinalize, fun _ _ v => .outRead v,
      fun _ _ v => .outRead32 v]

theorem mem_commandTable_iff (row : CommandRow) : row ∈ commandTable ↔ ∃ form ∈ commandForms, form.row = row := by
  have h : commandTable = commandForms.map CommandForm.row := rfl
  rw [h, List.mem_map]

/-- The codes of the table and the reserved ones share out the 256 values of CMD (R109). -/
theorem exists_commandRow_iff (c : Byte) : (∃ row ∈ commandTable, row.code = c.toNat) ↔ ¬ reservedCode c.toNat := by
  simp only [commandTable, List.exists_mem_cons_iff, List.not_mem_nil, false_and, exists_false, or_false]
  unfold reservedCode
  omega

/-- The fields the command of a row does not use are 0 (R103). -/
def unusedZero (row : CommandRow) (f1 f2 : Byte) (v : Word) : Bool :=
  (row.usesF1 || f1 == 0) && (row.usesF2 || f2 == 0) && (row.usesV || v == 0)

theorem unusedZero_iff (row : CommandRow) (f1 f2 : Byte) (v : Word) :
    unusedZero row f1 f2 v = true
      ↔ (row.usesF1 = false → f1 = 0) ∧ (row.usesF2 = false → f2 = 0) ∧ (row.usesV = false → v = 0) := by
  simp [unusedZero, and_assoc, or_iff_not_imp_left]

theorem decodeCommand_form {form : CommandForm} (hf : form ∈ commandForms) {c : Byte} (hc : c.toNat = form.row.code)
    (f1 f2 : Byte) (v : Word) :
    decodeCommand c f1 f2 v = whenUnusedZero (unusedZero form.row f1 f2 v) (form.make f1 f2 v) := by
  unfold decodeCommand
  revert form
  simp only [commandForms, commandTable, List.zipWith, ← List.forall_iff_forall_mem, List.Forall]
  and_intros <;> intro hc <;> simp [hc, unusedZero, whenUnusedZero]

theorem decodeCommand_of_reserved {c : Byte} (hc : reservedCode c.toNat) (f1 f2 : Byte) (v : Word) :
    decodeCommand c f1 f2 v = .error .reservedCommand := by
  unfold reservedCode at hc
  unfold decodeCommand
  split
  case h_23 => rfl
  all_goals omega

/-- The word of a command carries the fields it uses, and 0 in the others (R102, R112). -/
theorem encode_form {form : CommandForm} (hf : form ∈ commandForms) (f1 f2 : Byte) (v : Word) :
    encode (form.make f1 f2 v)
      = commandWord (BitVec.ofNat 8 form.row.code) (if form.row.usesF1 then f1 else 0)
          (if form.row.usesF2 then f2 else 0) (if form.row.usesV then v else 0) := by
  revert form
  simp only [commandForms, commandTable, List.zipWith, ← List.forall_iff_forall_mem, List.Forall]
  and_intros <;> rfl

/-- Of the commands only PCB_SET and FTB_SET have a field id to be in range (R107, R108). -/
theorem wellFormed_form {form : CommandForm} (hf : form ∈ commandForms) (f1 f2 : Byte) (v : Word) :
    (form.make f1 f2 v).wellFormed = true
      ↔ (form.row.code = 0x31 → 0x01 ≤ f1.toNat ∧ f1.toNat ≤ 0x0F)
        ∧ (form.row.code = 0x42 → 0x01 ≤ f1.toNat ∧ f1.toNat ≤ 0x03) := by
  revert form
  simp only [commandForms, commandTable, List.zipWith, ← List.forall_iff_forall_mem, List.Forall]
  and_intros <;> simp [Instr.wellFormed, pcbFieldIdOk, ftbFieldIdOk]

/-! What decodes, what runs. -/

/-- A command decodes when its code is in the table and the fields its row does not use are 0. -/
theorem decodeCommand_eq_ok_iff (c f1 f2 : Byte) (v : Word) (i : Instr) :
    decodeCommand c f1 f2 v = .ok i
      ↔ ∃ form ∈ commandForms, c.toNat = form.row.code ∧ unusedZero form.row f1 f2 v = true ∧ form.make f1 f2 v = i := by
  constructor
  · intro h
    by_cases hc : reservedCode c.toNat
    · cases (decodeCommand_of_reserved hc f1 f2 v).symm.trans h
    · obtain ⟨row, hr, hcode⟩ := (exists_commandRow_iff c).mpr hc
      obtain ⟨form, hf, rfl⟩ := (mem_commandTable_iff row).mp hr
      rw [decodeCommand_form hf hcode.symm, whenUnusedZero_eq_ok] at h
      exact ⟨form, hf, hcode.symm, h⟩
  · rintro ⟨form, hf, hcode, h⟩
    rwa [decodeCommand_form hf hcode, whenUnusedZero_eq_ok]

theorem encode_of_decodeCommand {c f1 f2 : Byte} {v : Word} {i : Instr} (h : decodeCommand c f1 f2 v = .ok i) :
    encode i = commandWord c f1 f2 v := by
  obtain ⟨form, hf, hcode, hu, rfl⟩ := (decodeCommand_eq_ok_iff c f1 f2 v i).mp h
  obtain ⟨h1, h2, hv⟩ := (unusedZero_iff form.row f1 f2 v).mp hu
  have keep : ∀ {n : Nat} {b : Bool} {x : BitVec n}, (b = false → x = 0) → (if b then x else 0) = x := by
    intro n b x hx
    cases b
    · exact (hx rfl).symm
    · rfl
  rw [encode_form hf, ← eq_ofNat c _ hcode, keep h1, keep h2, keep hv]

theorem decode_cmd64_eq_ok_iff (w : DWord) (i : Instr) :
    decode (.cmd64 w) = .ok i
      ↔ fieldRsv w = 0 ∧ decodeCommand (fieldCmd w) (fieldF1 w) (fieldF2 w) (fieldV w) = .ok i := by
  by_cases h : fieldRsv w = 0
  · rw [decode_cmd64 w h, and_iff_right h]
  · rw [decode_cmd64_reserved w h]
    exact ⟨fun he => (nomatch he), fun hd => absurd hd.1 h⟩

/-- Settles O2: the fields a word decodes from are the fields its instruction is encoded with, and they make up the
word. -/
theorem encodeOfDecode : Obligations.EncodeOfDecode := by
  intro x i h
  cases x with
  | lut16 w => rw [encode_of_decodeOpcode h, lutWord, lut_fields]
  | cmd64 w =>
    obtain ⟨hrsv, hdec⟩ := (decode_cmd64_eq_ok_iff w i).mp h
    rw [encode_of_decodeCommand hdec, commandWord, ← hrsv, command_fields]

theorem runnable_eq_some_iff (x : InstrWord) (i : Instr) :
    runnable x = some i ↔ decode x = .ok i ∧ i.wellFormed = true := by
  unfold runnable
  cases h : decode x with
  | error e => simp
  | ok j =>
    simp only [Option.ite_none_right_eq_some, Option.some.injEq, Except.ok.injEq]
    exact ⟨fun ⟨hw, hj⟩ => ⟨hj, hj ▸ hw⟩, fun ⟨hj, hw⟩ => ⟨hj ▸ hw, hj⟩⟩

/-- R103 on the fields of the word. -/
theorem wordWellFormed_iff (w : DWord) :
    wordWellFormed w ↔ ∃ row ∈ commandTable, (fieldCmd w).toNat = row.code ∧ fieldRsv w = 0
      ∧ unusedZero row (fieldF1 w) (fieldF2 w) (fieldV w) = true
      ∧ (row.code = 0x31 → 0x01 ≤ (fieldF1 w).toNat ∧ (fieldF1 w).toNat ≤ 0x0F)
      ∧ (row.code = 0x42 → 0x01 ≤ (fieldF1 w).toNat ∧ (fieldF1 w).toNat ≤ 0x03) := by
  simp only [wordWellFormed, unusedZero_iff, eq_zero_iff, fieldCmd_toNat, fieldRsv_toNat, fieldF1_toNat, fieldF2_toNat,
    fieldV_toNat, and_assoc]

/-- Settles O3: a word runs when it decodes by a row of the table to a well-formed instruction, and on that row the two
conditions are R103. -/
theorem commandWordsWellFormed : Obligations.CommandWordsWellFormed := by
  refine ⟨fun w => ?_, fun w s _ => rfl⟩
  simp only [runnable_eq_some_iff, decode_cmd64_eq_ok_iff, decodeCommand_eq_ok_iff, wordWellFormed_iff]
  constructor
  · rintro ⟨_, ⟨hrsv, form, hf, hcode, hu, rfl⟩, hw⟩
    exact ⟨form.row, (mem_commandTable_iff _).mpr ⟨form, hf, rfl⟩, hcode, hrsv, hu, (wellFormed_form hf _ _ _).mp hw⟩
  · rintro ⟨row, hr, hcode, hrsv, hu, hid⟩
    obtain ⟨form, hf, rfl⟩ := (mem_commandTable_iff row).mp hr
    exact ⟨_, ⟨hrsv, form, hf, hcode, hu, rfl⟩, (wellFormed_form hf _ _ _).mpr hid⟩

/-- Settles O4: a well-formed word has its code in the table, and no code of the table is reserved. -/
theorem reservedCommandCodes : Obligations.ReservedCommandCodes := by
  intro w s hres
  rw [← fieldCmd_toNat] at hres
  have hw : ¬ wordWellFormed w := by
    rintro ⟨row, hr, hcode, -⟩
    exact (exists_commandRow_iff (fieldCmd w)).mp ⟨row, hr, hcode.symm.trans (fieldCmd_toNat w).symm⟩ hres
  exact ⟨Option.eq_none_iff_forall_ne_some.mpr fun i hi => hw ((commandWordsWellFormed.1 w).mp ⟨i, hi⟩),
    commandWordsWellFormed.2 w s hw⟩

end Sys2Proof.Machine
end

section
/-! The packing of a LUT instruction (30_encoding.md R91) and the opcode map of the default family (R95). -/

namespace Sys2Proof.Machine

/-- Settles O5: a legal triple is packed to its three fields in a row, and the fields of every word are a legal triple. -/
theorem packingIsBijection : Obligations.PackingIsBijection := by
  refine ⟨fun o p d ho hp hd => ⟨eq_ofNat _ _ (packInstr_toNat o p d ho hp hd), ?_⟩, fun w => ?_⟩
  · rw [packInstr_eq_append o p d ho hp hd]
    exact ⟨lutOpcode_append _ _ _, lutPads_append _ _ _, lutOperand_append _ _ _⟩
  · have ho : ((lutOpcode w).setWidth 8).toNat < 64 := by rw [BitVec.toNat_setWidth]; omega
    have hp : ((lutPads w).setWidth 8).toNat < 4 := by rw [BitVec.toNat_setWidth]; omega
    have hd : ((lutOperand w).setWidth 32).toNat < 256 := by rw [BitVec.toNat_setWidth]; omega
    refine (packInstr_eq_append _ _ _ ho hp hd).trans (Eq.trans ?_ (lut_fields w))
    simp

theorem mem_opcodesDefault_iff (o : BitVec 6) :
    o ∈ familyDefault.opcodes ↔ ∃ row ∈ lutRows, row.opcode.toNat = o.toNat := by
  revert o
  decide

theorem instrLegal_default_of_reserved {f : Family} (hf : f = familyDefault) {o : Byte} (ho : reservedOpcode o.toNat)
    (p : Byte) (d : Word) : instrLegal f o p d = false := by
  rw [Bool.eq_false_iff, Ne, instrLegal_iff, hf]
  rintro ⟨h64, hmem, -⟩
  have hop : (o.setWidth 6).toNat = o.toNat := by rw [BitVec.toNat_setWidth]; omega
  rw [mem_opcodesDefault_iff, exists_lutRow_iff, hop] at hmem
  exact hmem ho

/-- Settles O6: the map and its complement are those of the decoder; a reserved opcode is in no default triple, so ENC
and SEQ_PUSH have the outcome of an illegal one. -/
theorem lutOpcodeMap : Obligations.LutOpcodeMap := by
  refine ⟨fun row hr p d => (decode_lutWord _ p d).trans (decodeOpcode_lutRow hr p d),
    fun w => decodeOpcode_eq_error_iff _ _ _, mem_opcodesDefault_iff, by decide, fun o p d s hf ho => ?_⟩
  have hl : instrLegal s.cfg.family o p d = false := instrLegal_default_of_reserved hf ho p d
  exact ⟨Effect.exec_eq (.packIllegal (.enc o p d) o p d rfl hl),
    fun h0 h8 => Effect.exec_eq (.seqPushIllegal o p d h0 (fun hk => absurd h8 (by rw [hk]; decide)) hl)⟩

end Sys2Proof.Machine
end

section
/-! The response word (30_encoding.md R101, R310): its form, read off `Effect` for every instruction. -/

namespace Sys2Proof.Machine

section
variable {c : Config} {r q : Regs} {i : Instr} {d : Word} {e : Byte}

theorem Effect.data_eq_zero (he : Effect c r i q d e) (h : e ≠ 0) : d = 0 := by
  cases he <;> first | rfl | exact absurd rfl h

/-- The packer's only error is InvalidFieldValue. -/
theorem Effect.status_le_of_packerTriple {x : Byte × Byte × Word} (he : Effect c r i q d e)
    (hi : packerTriple i = some x) : e.toNat ≤ 1 := by
  cases he with
  | packed | packIllegal => decide
  | _ => cases hi

/-- A status is a code of R310 or a sticky error, which holds one. -/
theorem Effect.status_le (he : Effect c r i q d e) (h : StickyInv r) : e.toNat ≤ 6 := by
  have hs : ∀ st, (stageErr st r).toNat ≤ 6 := fun st => (h.stageErr_le st).trans (by decide)
  cases he with
  | seqPushSticky | lutSetFailed => exact hs .seq
  | lutSetSticky | pcbLoadFailed => exact hs .lut
  | pcbSetSticky | pcbLoadSticky | pcbFinalizeSticky | ftbWrapFailed => exact hs .pcb
  | ftbWrapSticky | ftbSetSticky | ftbFinalizeSticky => exact hs .ftb
  | _ => decide

end

/-- The form of a response word (R101). -/
theorem responseWord_form {d : Word} {e : Byte} (h : e ≠ 0 → d = 0) :
    (responseWord d e).extractLsb' 8 24 = 0
      ∧ ((responseWord d e).extractLsb' 0 8 ≠ 0 → (responseWord d e).extractLsb' 32 32 = 0) := by
  simpa using h

/-- Settles O10: the data and the status of an instruction's answer are those of its `Effect`, and a bare LUT word is
answered as its ENC. -/
theorem everyWordAnswered : Obligations.EveryWordAnswered := by
  refine ⟨fun i s t hx => ?_, fun x s t hx => ?_, fun d c => ⟨responseWord_status d c, responseWord_data d c⟩⟩
  · obtain ⟨q, d, e, he, rfl⟩ := exec_next i s t hx
    obtain ⟨hz, hd⟩ := responseWord_form he.data_eq_zero
    exact ⟨_, rfl, hz, hd, fun h => by rw [responseWord_status]; exact he.status_le h.sticky⟩
  · cases x with
    | cmd64 w =>
      cases hx
      obtain ⟨hz, hd⟩ := responseWord_form (d := 0) (e := 5) fun _ => rfl
      exact ⟨_, rfl, hz, hd, by decide⟩
    | lut16 w =>
      obtain ⟨q, d, e, he, rfl⟩ := exec_next (lutWordEnc w) s t hx
      obtain ⟨hz, hd⟩ := responseWord_form he.data_eq_zero
      have hle : e.toNat ≤ 1 := he.status_le_of_packerTriple rfl
      exact ⟨_, rfl, hz, hd, by rw [responseWord_status]; omega⟩

end Sys2Proof.Machine
end

section
/-! The packer on a triple (40_instruction_encoder.md R130 to R132), and the rules of the 28 LUT opcodes (R140 to R167),
which are one statement about the rows of R95. -/

namespace Sys2Proof.Machine

/-! A legal triple and its packed value. -/

theorem instrLegal_of_tripleLegal {f : Family} {o p : Byte} {d : Word} (h : tripleLegal f o p d) :
    instrLegal f o p d = true := (instrLegal_iff f o p d).mpr h

theorem instrLegal_of_not_tripleLegal {f : Family} {o p : Byte} {d : Word} (h : ¬ tripleLegal f o p d) :
    instrLegal f o p d = false := Bool.eq_false_iff.mpr fun hl => h ((instrLegal_iff f o p d).mp hl)

section
variable {f : Family} {o p : Byte} {d : Word}

theorem packInstr_eq_packedNat (h : tripleLegal f o p d) :
    packInstr o p d = BitVec.ofNat 16 (packedNat o.toNat p.toNat d.toNat) := by
  obtain ⟨ho, -, hp, hd⟩ := h
  exact (packingIsBijection.1 o p d ho hp hd).1

/-- The packed value on the DATA port. -/
theorem packInstr_setWidth_eq_packedNat (h : tripleLegal f o p d) :
    (packInstr o p d).setWidth 32 = BitVec.ofNat 32 (packedNat o.toNat p.toNat d.toNat) := by
  obtain ⟨ho, -, hp, hd⟩ := h
  refine eq_ofNat _ _ ?_
  rw [BitVec.toNat_setWidth_of_le (by omega)]
  exact packInstr_toNat o p d ho hp hd

/-- The three bit fields of a packed legal triple are its numbers (R90, R132). -/
theorem packInstr_fields_toNat (h : tripleLegal f o p d) :
    ((packInstr o p d).extractLsb' 10 6).toNat = o.toNat ∧ ((packInstr o p d).extractLsb' 8 2).toNat = p.toNat
      ∧ ((packInstr o p d).extractLsb' 0 8).toNat = d.toNat := by
  obtain ⟨ho, -, hp, hd⟩ := h
  obtain ⟨-, eo, ep, ed⟩ := packingIsBijection.1 o p d ho hp hd
  rw [eo, ep, ed]
  simp only [BitVec.toNat_setWidth]
  omega

end

theorem packInstr_injective {f : Family} {o p o' p' : Byte} {d d' : Word} (h : tripleLegal f o p d)
    (h' : tripleLegal f o' p' d') (he : packInstr o p d = packInstr o' p' d') : o = o' ∧ p = p' ∧ d = d' := by
  obtain ⟨ho, hp, hd⟩ := packInstr_fields_toNat h
  obtain ⟨ho', hp', hd'⟩ := packInstr_fields_toNat h'
  rw [he] at ho hp hd
  exact ⟨BitVec.eq_of_toNat_eq (ho.symm.trans ho'), BitVec.eq_of_toNat_eq (hp.symm.trans hp'),
    BitVec.eq_of_toNat_eq (hd.symm.trans hd')⟩

/-! ENC and SEQ_PUSH of a triple. -/

section
variable {s : State} {o p : Byte} {d : Word}

theorem exec_enc_of_legal (h : tripleLegal s.cfg.family o p d) :
    exec (.enc o p d) s = doneWith s { s.regs with result := packInstr o p d } ((packInstr o p d).setWidth 32) :=
  Effect.exec_eq (.packed (.enc o p d) o p d rfl (instrLegal_of_tripleLegal h))

theorem exec_enc_of_illegal (h : ¬ tripleLegal s.cfg.family o p d) :
    exec (.enc o p d) s = failedWith s s.regs 1 :=
  Effect.exec_eq (.packIllegal (.enc o p d) o p d rfl (instrLegal_of_not_tripleLegal h))

theorem seqK_ne_eight {k : BitVec 4} (h : k.toNat < 8) : k ≠ 8 := by
  rintro rfl
  exact absurd h (by decide)

/-- The count SEQ_PUSH answers does not wrap. -/
theorem seqK_succ_setWidth {k : BitVec 4} (h : k.toNat < 8) : (k + 1).setWidth 32 = BitVec.ofNat 32 (k.toNat + 1) := by
  have hk : (k + 1).toNat = k.toNat + 1 := BitVec.toNat_add_of_lt (show k.toNat + 1 < 2 ^ 4 by omega)
  exact eq_ofNat _ _ ((BitVec.toNat_setWidth_of_le (by omega)).trans hk)

theorem exec_seqPush_of_legal (h0 : s.regs.seqErr = 0) (h8 : s.regs.seqK.toNat < 8)
    (h : tripleLegal s.cfg.family o p d) :
    exec (.seqPush o p d) s
      = doneWith s (pushSeq (packInstr o p d) s.regs) (BitVec.ofNat 32 (s.regs.seqK.toNat + 1)) := by
  rw [← seqK_succ_setWidth h8]
  exact Effect.exec_eq (.seqPush o p d h0 (seqK_ne_eight h8) (instrLegal_of_tripleLegal h))

theorem exec_seqPush_of_illegal (h0 : s.regs.seqErr = 0) (h8 : s.regs.seqK.toNat < 8)
    (h : ¬ tripleLegal s.cfg.family o p d) :
    exec (.seqPush o p d) s = failedWith s { s.regs with seqErr := 1 } 1 :=
  Effect.exec_eq (.seqPushIllegal o p d h0 (seqK_ne_eight h8) (instrLegal_of_not_tripleLegal h))

end

/-- Settles O12: the word is the encoder's, and the two outcomes of the packer are those of a legal triple and of any
other. -/
theorem encPacksOrRejects : Obligations.EncPacksOrRejects := by
  refine fun o p d s => ⟨decodeOfEncode (.enc o p d), fun h => ?_, exec_enc_of_illegal⟩
  rw [exec_enc_of_legal h, packInstr_setWidth_eq_packedNat h, packInstr_eq_packedNat h]

/-- Settles O13: a legal triple is read back from its packed value, so two that pack alike are equal; whether a triple
is legal, and what it packs to, depends on CONFIG alone. -/
theorem packerLaws : Obligations.PackerLaws := by
  refine ⟨fun o p d s t h ht => ?_, fun f o p o' p' d d' => packInstr_injective,
    fun o p d s s' t t' hcfg ht ht' => ?_⟩
  · cases (exec_enc_of_legal h).symm.trans ht
    exact packInstr_fields_toNat h
  · by_cases h : tripleLegal s.cfg.family o p d
    · cases (exec_enc_of_legal h).symm.trans ht
      cases (exec_enc_of_legal (s := s') (hcfg ▸ h)).symm.trans ht'
      rfl
    · cases (exec_enc_of_illegal h).symm.trans ht
      cases (exec_enc_of_illegal (s := s') (hcfg ▸ h)).symm.trans ht'
      rfl

/-! The rules of the LUT opcodes. -/

theorem lutRow_opcode_lt {row : LutRow} (hr : row ∈ lutRows) : row.opcode.toNat < 64 := by
  revert row
  decide

/-- The word of a row, as the number its pattern gives (R140 to R167). -/
theorem encode_lutRow_eq_packedNat {row : LutRow} (hr : row ∈ lutRows) (p : BitVec 2) (d : Byte) :
    encode (row.make p d) = .lut16 (BitVec.ofNat 16 (packedNat row.opcode.toNat p.toNat d.toNat)) := by
  have hop : (row.opcode.setWidth 6).toNat = row.opcode.toNat := by
    rw [BitVec.toNat_setWidth]
    exact Nat.mod_eq_of_lt (lutRow_opcode_lt hr)
  rw [encode_lutRow hr, lutWord, packedNat, ← hop, ← lutWord_toNat, BitVec.ofNat_toNat, BitVec.setWidth_eq]

/-- Every row of R95 has its rule: the word is the row's, and the packer and the sequence take its triple exactly when
the pad class and the operand are in range. -/
theorem opcodeRule_of_mem_lutRows {make : BitVec 2 → Byte → Instr} {op : Byte} {base : Nat}
    (hr : ⟨op, make⟩ ∈ lutRows) (hbase : base = op.toNat * 1024) : opcodeRule make op base := by
  subst hbase
  have henc := encode_lutRow_eq_packedNat hr
  refine ⟨fun p d => ⟨henc p d, ?_⟩, fun s p d hmem => ⟨fun hp hd => ?_, fun hrange => ?_⟩⟩
  · exact (congrArg decode (henc p d).symm).trans (decodeOfEncode (make p d))
  · have h : tripleLegal s.cfg.family op p d := ⟨lutRow_opcode_lt hr, hmem, hp, hd⟩
    refine ⟨(encPacksOrRejects op p d s).2.1 h, fun h0 h8 => ?_⟩
    rw [exec_seqPush_of_legal h0 h8 h, packInstr_eq_packedNat h]
    rfl
  · have h : ¬ tripleLegal s.cfg.family op p d := fun ⟨_, _, hp, hd⟩ => by omega
    exact ⟨exec_enc_of_illegal h, fun h0 h8 => exec_seqPush_of_illegal h0 h8 h⟩

/-- Settles O14: the ten are rows of R95. -/
theorem opcodesStopToMode1Ddr : Obligations.OpcodesStopToMode1Ddr := by
  refine ⟨?_, ?_, ?_, ?_, ?_, ?_, ?_, ?_, ?_, ?_⟩ <;> exact opcodeRule_of_mem_lutRows (by simp [lutRows]) rfl

/-- Settles O15: the ten are rows of R95. -/
theorem opcodesMode2SdrToReadDdr : Obligations.OpcodesMode2SdrToReadDdr := by
  refine ⟨?_, ?_, ?_, ?_, ?_, ?_, ?_, ?_, ?_, ?_⟩ <;> exact opcodeRule_of_mem_lutRows (by simp [lutRows]) rfl

/-- Settles O16: the eight are rows of R95. -/
theorem opcodesLearnSdrToDummyRwdsDdr : Obligations.OpcodesLearnSdrToDummyRwdsDdr := by
  refine ⟨?_, ?_, ?_, ?_, ?_, ?_, ?_, ?_⟩ <;> exact opcodeRule_of_mem_lutRows (by simp [lutRows]) rfl

end Sys2Proof.Machine
end

section
/-! The sequence assembler (41_sequence_assembler.md R180 to R184). SEQ_CLEAR and a list of pushes leave one of three
accumulators, which `SeqAfter` lists; one more push leads from each of them to one of them. -/

namespace Sys2Proof.Machine

section
variable {s : State} {o p : Byte} {d : Word}

theorem exec_seqPush_of_failed (h : s.regs.seqErr ≠ 0) :
    exec (.seqPush o p d) s = failedWith s s.regs s.regs.seqErr :=
  Effect.exec_eq (.seqPushSticky o p d h)

theorem exec_seqPush_of_full (h0 : s.regs.seqErr = 0) (h8 : s.regs.seqK.toNat = 8) :
    exec (.seqPush o p d) s = failedWith s { s.regs with seqErr := 2 } 2 :=
  Effect.exec_eq (.seqPushFull o p d h0 (BitVec.eq_of_toNat_eq h8))

end

/-- Settles O18. -/
theorem seqClearStartsEmpty : Obligations.SeqClearStartsEmpty :=
  ⟨decodeOfEncode .seqClear, fun _ => Effect.exec_eq .seqClear⟩

/-- Settles O19: the four outcomes of SEQ_PUSH; what a legal triple packs to is its number of R91. -/
theorem seqPushAppendsOrFails : Obligations.SeqPushAppendsOrFails := by
  refine fun o p d s => ⟨decodeOfEncode (.seqPush o p d), exec_seqPush_of_failed, exec_seqPush_of_full,
    exec_seqPush_of_illegal, fun h0 h8 h => ?_⟩
  rw [exec_seqPush_of_legal h0 h8 h, packInstr_eq_packedNat h]
  rfl

/-! The count and what the slots read. -/

section
variable {r : Regs}

theorem seqRead_eq_getElem {k : Nat} (hk : k < 8) : seqRead r k = r.seqSlot[k] := by
  simp [seqRead, List.getD_eq_getElem?_getD, hk]

theorem seqK_succ_toNat {k : BitVec 4} (h : k.toNat < 8) : (k + 1).toNat = k.toNat + 1 :=
  BitVec.toNat_add_of_lt (show k.toNat + 1 < 2 ^ 4 by omega)

theorem seqRead_pushSeq_self (w : Half) (hk : r.seqK.toNat < 8) : seqRead (pushSeq w r) r.seqK.toNat = w := by
  rw [seqRead_eq_getElem hk]
  exact Vector.getElem_setIfInBounds_self hk

end

/-- Settles O20. -/
theorem seqReadAnswersSlot : Obligations.SeqReadAnswersSlot := by
  refine fun f s => ⟨decodeOfEncode (.seqRead f), fun h => ?_, fun h => Effect.exec_eq (.seqReadRange f h)⟩
  rw [← seqRead_eq_getElem h]
  exact Effect.exec_eq (.seqRead f h)

/-! SEQ_CLEAR and a list of pushes. -/

/-- The instructions of a list of triples, as SEQ_PUSH packs them. -/
def packedTriples (xs : List (Byte × Byte × Word)) : List Half := xs.map fun x => packInstr x.1 x.2.1 x.2.2

/-- What SEQ_CLEAR and a push of each of `xs` in order leave in the accumulator: all of them and then no-ops, the error
of a ninth push, or the error of an illegal one. -/
inductive SeqAfter (fam : Family) (xs : List (Byte × Byte × Word)) (r : Regs) : Prop
  | held (hlen : xs.length ≤ 8) (herr : r.seqErr = 0) (hk : r.seqK.toNat = xs.length)
      (hslot : ∀ j < 8, seqRead r j = (packedTriples xs).getD j 0)
  | overflowed (hlen : 9 ≤ xs.length) (herr : r.seqErr = 2)
  | rejected (herr : r.seqErr = 1) (hx : ∃ x ∈ xs, ¬ tripleLegal fam x.1 x.2.1 x.2.2)

section
variable {c : Config} {r q : Regs} {xs : List (Byte × Byte × Word)} {x : Byte × Byte × Word} {d : Word} {e : Byte}

theorem seqAfter_clearSeq (fam : Family) (r : Regs) : SeqAfter fam [] (clearSeq r) :=
  .held (Nat.zero_le 8) rfl rfl fun j _ => seqRead_eq_zero_of_replicate rfl j

/-- A push into an accumulator that holds `xs` and is not full. -/
theorem seqRead_pushSeq_packedTriples (hk : r.seqK.toNat = xs.length) (hlt : xs.length < 8)
    (hslot : ∀ j < 8, seqRead r j = (packedTriples xs).getD j 0) {j : Nat} (hj : j < 8) :
    seqRead (pushSeq (packInstr x.1 x.2.1 x.2.2) r) j = (packedTriples (xs ++ [x])).getD j 0 := by
  have hlen : (packedTriples xs).length = xs.length := List.length_map _
  have happ : packedTriples (xs ++ [x]) = packedTriples xs ++ [packInstr x.1 x.2.1 x.2.2] := List.map_append
  rw [happ]
  rcases lt_trichotomy j xs.length with h | rfl | h
  · rw [seqRead_pushSeq _ (by omega), hslot j hj, List.getD_append _ _ _ _ (by omega)]
  · rw [← hk, seqRead_pushSeq_self _ (by omega), List.getD_append_right _ _ _ _ (by omega), hlen, hk, Nat.sub_self]
    rfl
  · rw [seqRead_pushSeq _ (by omega), hslot j hj, List.getD_eq_default _ _ (by omega),
      List.getD_eq_default _ _ (by simp; omega)]

theorem Effect.seqErr_of_push_of_ne_zero {o p : Byte} {v : Word} (he : Effect c r (.seqPush o p v) q d e)
    (h : r.seqErr ≠ 0) : q.seqErr = r.seqErr :=
  he.stageErr_of_ne_zero (st := .seq) nofun h

/-- The first error of the accumulator stays; without one the count decides between overflow and the field test
(R181). -/
theorem Effect.seqAfter_push (he : Effect c r (.seqPush x.1 x.2.1 x.2.2) q d e) (h : SeqAfter c.family xs r) :
    SeqAfter c.family (xs ++ [x]) q := by
  cases h with
  | held hlen herr hk hslot =>
    cases he with
    | packed _ _ _ _ hi | packIllegal _ _ _ _ hi => cases hi
    | seqPushSticky _ _ _ h0 => exact absurd herr h0
    | seqPushFull _ _ _ _ h8 =>
      have hx : xs.length = 8 := hk.symm.trans (congrArg BitVec.toNat h8)
      exact .overflowed (by simp [hx]) rfl
    | seqPushIllegal _ _ _ _ _ hl =>
      refine .rejected rfl ⟨x, by simp, fun hx => ?_⟩
      exact absurd (instrLegal_of_tripleLegal hx) (by simp [hl])
    | seqPush _ _ _ _ h8 _ =>
      have hlt : r.seqK.toNat < 8 := Nat.lt_of_le_of_ne (hk ▸ hlen) fun hk8 => h8 (BitVec.eq_of_toNat_eq hk8)
      exact .held (by simp; omega) herr (by rw [pushSeq_seqK, seqK_succ_toNat hlt, hk, List.length_append]; rfl)
        fun j => seqRead_pushSeq_packedTriples hk (hk ▸ hlt) hslot
  | overflowed hlen herr =>
    exact .overflowed (by simp; omega) ((he.seqErr_of_push_of_ne_zero (by simp [herr])).trans herr)
  | rejected herr hx =>
    obtain ⟨y, hy, hl⟩ := hx
    exact .rejected ((he.seqErr_of_push_of_ne_zero (by simp [herr])).trans herr) ⟨y, List.mem_append_left _ hy, hl⟩

/-- LUT_SET fails on a failed sequence, whatever its selector, and leaves the table (R183, R203). -/
theorem Effect.lutSet_of_seqErr {f : Byte} (he : Effect c r (.lutSet f) q d e) (h : r.seqErr ≠ 0) :
    e ≠ 0 ∧ q.lutTab = r.lutTab := by
  cases he with
  | packed _ _ _ _ hi | packIllegal _ _ _ _ hi => cases hi
  | lutSetSticky _ hl => exact ⟨hl, rfl⟩
  | lutSetSelector | lutSetBound => exact ⟨by decide, rfl⟩
  | lutSetFailed => exact ⟨h, rfl⟩
  | lutSet _ _ _ _ h0 => exact absurd h0 h

end

theorem execAll_cons_of_exec {s t : State} {i : Instr} (h : exec i s = .next t) (is : List Instr) :
    execAll s (i :: is) = execAll t is := by
  rw [execAll, h]

/-- The pushes of `ys` after those of `xs`. -/
theorem execAll_pushes (ys : List (Byte × Byte × Word)) :
    ∀ (s : State) (xs : List (Byte × Byte × Word)), SeqAfter s.cfg.family xs s.regs →
      ∃ t, execAll s (ys.map pushOf) = some t ∧ SeqAfter s.cfg.family (xs ++ ys) t.regs := by
  induction ys with
  | nil => exact fun s xs h => ⟨s, rfl, by simpa using h⟩
  | cons y ys ih =>
    intro s xs h
    obtain ⟨q, d, e, he, hx⟩ := exec_effect (pushOf y) s
    obtain ⟨t, ht, hafter⟩ :=
      ih { s with regs := q, response := some (responseWord d e) } (xs ++ [y]) (he.seqAfter_push h)
    refine ⟨t, (execAll_cons_of_exec hx _).trans ht, ?_⟩
    rwa [List.append_assoc, List.singleton_append] at hafter

theorem execAll_seqClear_pushes (s : State) (xs : List (Byte × Byte × Word)) :
    ∃ t, execAll s (.seqClear :: xs.map pushOf) = some t ∧ SeqAfter s.cfg.family xs t.regs :=
  execAll_pushes xs _ [] (seqAfter_clearSeq s.cfg.family s.regs)

/-- Settles O21: up to 8 legal pushes rule out both errors, and more than 8 pushes rule out that all are held. -/
theorem sequenceLaw : Obligations.SequenceLaw := by
  refine ⟨fun s xs hlen hlegal => ?_, fun s xs hlen => ?_⟩
  · obtain ⟨t, ht, hafter⟩ := execAll_seqClear_pushes s xs
    refine ⟨t, ht, ?_⟩
    cases hafter with
    | held _ herr hk hslot => exact ⟨herr, hk, hslot⟩
    | overflowed h9 => omega
    | rejected _ hx =>
      obtain ⟨x, hx, hl⟩ := hx
      exact absurd (hlegal x hx) hl
  · obtain ⟨t, ht, hafter⟩ := execAll_seqClear_pushes s xs
    have herr : t.regs.seqErr = 2
        ∨ t.regs.seqErr = 1 ∧ ∃ x ∈ xs, ¬ tripleLegal s.cfg.family x.1 x.2.1 x.2.2 := by
      cases hafter with
      | held h8 => omega
      | overflowed _ h2 => exact .inl h2
      | rejected h1 hx => exact .inr ⟨h1, hx⟩
    have hne : t.regs.seqErr ≠ 0 := by rcases herr with h | ⟨h, -⟩ <;> simp [h]
    refine ⟨t, ht, herr, fun f u hu => ?_⟩
    obtain ⟨q, d, e, he, rfl⟩ := exec_next _ t u hu
    obtain ⟨he0, htab⟩ := he.lutSet_of_seqErr hne
    refine ⟨?_, htab⟩
    rw [statusOf_responseWord _ rfl]
    exact fun h => he0 (Option.some.inj h)

end Sys2Proof.Machine
end

section
/-! The LUT commands (42_lookup_table.md R200 to R204). `selectsSlot_iff` reads the slot map off the list of the named
slots; that the map is injective, and what the default layout selects, follow from it. -/

namespace Sys2Proof.Machine

/-! The slot map. -/

section
variable {l : Layout} {f f' : Byte} {i : Nat}

/-- Selector `k + 1` selects the `k`-th named slot, selector `0x80 + i` the slot `i` that no named Command has. -/
theorem selectsSlot_iff :
    selectsSlot l f i
      ↔ (∃ k, f.toNat = k + 1 ∧ (namedSlots l)[k]? = some i)
        ∨ f.toNat = 0x80 + i ∧ i < l.nseq ∧ i ∉ namedSlots l := by
  constructor
  · rintro (⟨hf, rfl⟩ | ⟨hf, rfl⟩ | ⟨hf, rfl⟩ | ⟨hf, rfl⟩ | ⟨hf, rfl⟩ | ⟨hf, rfl⟩ | h)
    pick_goal 7
    · exact .inr h
    all_goals exact .inl ⟨_, hf, rfl⟩
  · rintro (⟨k, hf, hk⟩ | h)
    · have hlen : k < 6 := (List.getElem?_eq_some_iff.mp hk).1
      unfold selectsSlot
      interval_cases k <;> obtain rfl := Option.some.inj hk <;> simp [hf]
    · exact .inr (.inr (.inr (.inr (.inr (.inr h)))))

theorem lt_nseq_of_selectsSlot (hb : ∀ i ∈ namedSlots l, i < l.nseq) (h : selectsSlot l f i) : i < l.nseq := by
  rcases selectsSlot_iff.mp h with ⟨k, -, hk⟩ | ⟨-, hi, -⟩
  · exact hb i (List.mem_of_getElem? hk)
  · exact hi

/-- A named slot stands once in the list, and no Custom selector selects one. -/
theorem eq_of_selectsSlot (hn : (namedSlots l).Nodup) (h : selectsSlot l f i) (h' : selectsSlot l f' i) : f = f' := by
  refine BitVec.eq_of_toNat_eq ?_
  rcases selectsSlot_iff.mp h with ⟨k, hf, hk⟩ | ⟨hf, -, hi⟩ <;>
    rcases selectsSlot_iff.mp h' with ⟨k', hf', hk'⟩ | ⟨hf', -, hi'⟩
  · have hlt : k < (namedSlots l).length := (List.getElem?_eq_some_iff.mp hk).1
    obtain rfl : k = k' := (List.getElem?_inj hlt hn).mp (hk.trans hk'.symm)
    exact hf.trans hf'.symm
  · exact absurd (List.mem_of_getElem? hk) hi'
  · exact absurd (List.mem_of_getElem? hk') hi
  · exact hf.trans hf'.symm

theorem selectCommand_eq_none (h : ∀ i, ¬ selectsSlot l f i) : selectCommand l f = none :=
  Option.eq_none_iff_forall_ne_some.mpr fun cmd hc => h _ ((selectCommand_slot_iff l f _).mp ⟨cmd, hc, rfl⟩)

end

/-- Settles O22. -/
theorem slotMapInjective : Obligations.SlotMapInjective :=
  ⟨selectCommand_slot_iff, fun _ hn hb _ _ _ h => ⟨lt_nseq_of_selectsSlot hb h, eq_of_selectsSlot hn h⟩⟩

/-- The slots of the default layout: a named selector reads one off the list, a Custom one is below 16 and not in it. -/
theorem selectsSlot_layoutDefault_iff (f : Byte) (i : Nat) :
    selectsSlot layoutDefault f i
      ↔ (∃ k, f.toNat = k + 1 ∧ [0, 1, 3, 5, 9, 11][k]? = some i)
        ∨ f.toNat = 0x80 + i ∧ i < 16 ∧ i ∉ [0, 1, 3, 5, 9, 11] :=
  selectsSlot_iff

/-- Settles O23: the table is computed row by row; a selector of no Command is neither one of the six nor 0x80 plus a
slot below 16 outside the named ones. -/
theorem defaultSlots : Obligations.DefaultSlots := by
  refine ⟨by unfold selectsSlot; decide, by unfold selectsSlot; decide, fun f hf i hs => ?_, rfl⟩
  rcases (selectsSlot_layoutDefault_iff f i).mp hs with ⟨k, hk, hget⟩ | ⟨hcustom, hi, hfree⟩
  · have hlen : k < 6 := (List.getElem?_eq_some_iff.mp hget).1
    simp only [List.mem_cons, List.not_mem_nil, or_false] at hf
    omega
  · simp only [List.mem_cons, List.not_mem_nil, or_false] at hf hfree
    omega

/-! The commands. -/

section
variable {f : Byte} {i : Nat} {s : State}

theorem exec_lutSet_of_selectsNone (h : s.regs.lutErr = 0) (hn : ∀ i, ¬ selectsSlot s.cfg.layout f i) :
    exec (.lutSet f) s = failedWith s { s.regs with lutErr := 1 } 1 :=
  Effect.exec_eq (.lutSetSelector f h (selectCommand_eq_none hn))

theorem exec_lutSet_of_seqErr (hsel : selectsSlot s.cfg.layout f i) (h : s.regs.lutErr = 0) (hs : s.regs.seqErr ≠ 0) :
    exec (.lutSet f) s = failedWith s { s.regs with lutErr := s.regs.seqErr } s.regs.seqErr := by
  obtain ⟨cmd, hc, -⟩ := (selectCommand_slot_iff _ f i).mpr hsel
  exact Effect.exec_eq (.lutSetFailed f cmd h hc hs)

theorem exec_lutSet_of_nseq_le (hsel : selectsSlot s.cfg.layout f i) (h : s.regs.lutErr = 0) (hs : s.regs.seqErr = 0)
    (hi : s.cfg.layout.nseq ≤ i) : exec (.lutSet f) s = failedWith s { s.regs with lutErr := 4 } 4 := by
  obtain ⟨cmd, hc, rfl⟩ := (selectCommand_slot_iff _ f i).mpr hsel
  exact Effect.exec_eq (.lutSetBound f cmd h hc hs hi)

theorem exec_lutSet_of_lt_nseq (hsel : selectsSlot s.cfg.layout f i) (h : s.regs.lutErr = 0) (hs : s.regs.seqErr = 0)
    (hi : i < s.cfg.layout.nseq) :
    exec (.lutSet f) s = doneWith s (mapSequence i s.regs) (BitVec.ofNat 32 i) := by
  obtain ⟨cmd, hc, rfl⟩ := (selectCommand_slot_iff _ f i).mpr hsel
  rw [BitVec.ofNat_toNat, BitVec.setWidth_eq]
  exact Effect.exec_eq (.lutSet f cmd h hc hs hi)

end

/-- Settles O24. -/
theorem lutClearEmptiesTable : Obligations.LutClearEmptiesTable :=
  ⟨decodeOfEncode .lutClear, fun _ => Effect.exec_eq .lutClear⟩

/-- Settles O25: the five outcomes of LUT_SET, by the slot its selector selects; the new table is that of
`mapSequence`, which writes the cells of this one slot. -/
theorem lutSetMapsSequence : Obligations.LutSetMapsSequence := fun f s =>
  ⟨decodeOfEncode (.lutSet f), fun h => Effect.exec_eq (.lutSetSticky f h), exec_lutSet_of_selectsNone,
    fun i hsel h => ⟨exec_lutSet_of_seqErr hsel h, exec_lutSet_of_nseq_le hsel h, fun hs hi =>
      ⟨_, exec_lutSet_of_lt_nseq hsel h hs hi, read_mapSequence i s.regs⟩⟩⟩

/-- Settles O26. -/
theorem lutReadAnswersByte : Obligations.LutReadAnswersByte := fun v _ =>
  ⟨decodeOfEncode (.lutRead v), fun h => Effect.exec_eq (.lutRead v h), fun h => Effect.exec_eq (.lutReadRange v h)⟩

end Sys2Proof.Machine
end

section
/-! The tables of the legal values (43_peripheral_block.md R224, 44_flash_type_block.md R272): what the encoders answer
is what the tables say, and every value a table stores is a word. -/

namespace Sys2Proof.Machine

section
variable {w : Nat} {rows : List (Word × BitVec w)} {v : Word} {e : Nat}

theorem mapGives_iff : mapGives rows v e ↔ ∃ c, mapLookup rows v = some c ∧ c.toNat = e := by
  simp only [mapLookup_eq_some]
  constructor
  · rintro ⟨before, c, after, hrows, hfirst, rfl⟩
    exact ⟨c, ⟨before, after, hrows, hfirst⟩, rfl⟩
  · rintro ⟨c, ⟨before, after, hrows, hfirst⟩, rfl⟩
    exact ⟨before, c, after, hrows, hfirst, rfl⟩

/-- Where no two rows have one key, the first row of a key is its only one. -/
theorem mapGives_iff_mem (hn : (rows.map Prod.fst).Nodup) : mapGives rows v e ↔ ∃ c, (v, c) ∈ rows ∧ e = c.toNat := by
  constructor
  · rintro ⟨before, c, after, rfl, -, he⟩
    exact ⟨c, by simp, he⟩
  · rintro ⟨c, hmem, he⟩
    obtain ⟨before, after, rfl⟩ := List.append_of_mem hmem
    refine ⟨before, c, after, rfl, fun r hr hkey => ?_, he⟩
    rw [List.map_append, List.nodup_append] at hn
    obtain ⟨-, -, hdisjoint⟩ := hn
    exact hdisjoint r.1 (List.mem_map_of_mem hr) v (by simp) hkey

end

theorem freqEncode_eq_some_iff_mapGives {m : List (Word × Byte)} {v e : Word} :
    freqEncode m v = some e ↔ mapGives m v e.toNat := by
  rw [freqEncode_eq_some, mapGives_iff]

theorem regionEncode_eq_some_iff {m : RegionEnc} {v e : Word} :
    regionEncode m v = some e ↔ regionGives m v e.toNat := by
  cases m with
  | identity => simp only [regionEncode, regionGives, Option.some.injEq, ← BitVec.toNat_inj, eq_comm]
  | table rows => simp only [regionEncode, regionGives, mapGives_iff, BitVec.toNat_inj, exists_eq_right]

theorem deviceModeSeqLegal_iff {nseq : Nat} {v : Word} :
    deviceModeSeqLegal nseq v = true
      ↔ v.toNat / 2 ^ 16 = 0 ∧ 1 ≤ v.toNat % 2 ^ 8 ∧ v.toNat / 2 ^ 8 % 2 ^ 8 + v.toNat % 2 ^ 8 ≤ nseq := by
  have hv : v.toNat < 2 ^ 32 := v.isLt
  have hhigh : v.toNat / 2 ^ 16 % 2 ^ 16 = v.toNat / 2 ^ 16 := Nat.mod_eq_of_lt (by omega)
  simp only [deviceModeSeqLegal, Bool.and_eq_true, beq_iff_eq, decide_eq_true_eq, ← BitVec.toNat_inj,
    BitVec.extractLsb'_toNat, Nat.shiftRight_eq_div_pow, hhigh, and_assoc]
  simp

theorem fieldEncode_eq_some_iff (c : Config) (f : PcbField) (v e : Word) :
    fieldEncode c f v = some e ↔ fieldTable c f v e.toNat := by
  cases f <;>
    simp only [fieldEncode, fieldTable, legalCode_eq_some, legalWhen_eq_some, freqEncode_eq_some_iff_mapGives,
      regionEncode_eq_some_iff, deviceModeSeqLegal_iff, BitVec.toNat_inj, decide_eq_true_eq, Option.some.injEq]
  case deviceModeCfgEnable => simp [← BitVec.toNat_inj]
  case deviceModeArg => exact eq_comm

theorem trailerEncode_eq_some_iff (c : Config) (t : FtbField) (v e : Word) :
    trailerEncode c t v = some e ↔ trailerTable c t v e.toNat := by
  cases t <;>
    simp only [trailerEncode, trailerTable, legalWhen_eq_some, freqEncode_eq_some_iff_mapGives, BitVec.toNat_inj,
      decide_eq_true_eq]

section
variable {c : Config} {v : Word} {e : Nat}

theorem exists_word_of_mapGives {w : Nat} {rows : List (Word × BitVec w)} (hw : w ≤ 32) (h : mapGives rows v e) :
    ∃ x : Word, x.toNat = e := by
  obtain ⟨code, -, rfl⟩ := mapGives_iff.mp h
  exact ⟨code.setWidth 32, BitVec.toNat_setWidth_of_le hw⟩

theorem exists_word_of_regionGives {m : RegionEnc} (h : regionGives m v e) : ∃ x : Word, x.toNat = e := by
  cases m with
  | identity => exact ⟨v, h.symm⟩
  | table rows => exact exists_word_of_mapGives le_rfl h

theorem exists_word_of_fieldTable {f : PcbField} (h : fieldTable c f v e) : ∃ x : Word, x.toNat = e := by
  cases f
  case serialClkFreq => exact exists_word_of_mapGives (by omega) h
  case sflashA1Size | sflashA2Size | sflashB1Size | sflashB2Size => exact exists_word_of_regionGives h
  case deviceModeArg => exact ⟨v, h.symm⟩
  all_goals exact ⟨v, h.1.symm⟩

theorem exists_word_of_trailerTable {t : FtbField} (h : trailerTable c t v e) : ∃ x : Word, x.toNat = e := by
  cases t
  case ipCmdSerialClkFreq => exact exists_word_of_mapGives (by omega) h
  all_goals exact ⟨v, h.1.symm⟩

end

theorem fieldEncode_eq_none {c : Config} {f : PcbField} {v : Word} (h : ∀ e, ¬ fieldTable c f v e) :
    fieldEncode c f v = none :=
  Option.eq_none_iff_forall_ne_some.mpr fun e he => h e.toNat ((fieldEncode_eq_some_iff c f v e).mp he)

/-- The ids 0x01 to 0x0F name the fields in the order of the table, no other id names one (30_encoding.md R107). -/
theorem pcbFieldOf_eq (b : Byte) : pcbFieldOf b = if 1 ≤ b.toNat then pcbFieldsAll[b.toNat - 1]? else none := by
  unfold pcbFieldOf
  generalize b.toNat = n
  by_cases hn : n < 16
  · interval_cases n <;> rfl
  · obtain ⟨k, rfl⟩ := Nat.exists_eq_add_of_le' (not_lt.mp hn)
    rfl

/-- Settles O30: the encoder agrees with the table, so a value of the table fits its register and reads back. -/
theorem peripheralFieldTable : Obligations.PeripheralFieldTable := by
  refine ⟨fieldEncode_eq_some_iff, fun c f g v e pf h => ⟨?_, getField_setField_ne pf f g e⟩, pcbFieldOf_eq, rfl⟩
  exact getField_setField pf f e (fieldEncode_lt c f v e ((fieldEncode_eq_some_iff c f v e).mpr h))

end Sys2Proof.Machine
end

section
/-! The layout invariant (43_peripheral_block.md R221): each test says its item in numbers. The disjointness test says
that no bit is in two regions because the items before it leave no region empty. -/

namespace Sys2Proof.Machine

section
variable {l : Layout}

theorem wfTable_iff :
    wfTable l = true ↔ 1 ≤ l.nseq ∧ 8 ≤ l.lutOff ∧ l.lutOff + 16 * l.nseq ≤ l.pcbSize.toNat := by
  simp [wfTable, and_assoc]

theorem wfFields_iff : wfFields l = true ↔ ∀ f, entryOk 8 l.pcbSize.toNat (fieldEntry l f) = true := by
  simp [wfFields, fieldEntries, mem_pcbFieldsAll]

theorem wfTrailer_iff :
    wfTrailer l = true ↔ ∀ t, entryOk l.pcbSize.toNat l.totalSize.toNat (trailerEntry l t) = true := by
  simp [wfTrailer, trailerEntries, mem_ftbFieldsAll]

theorem wfDisjoint_iff (hne : ∀ r ∈ imageRegions l, r.1 < r.2) :
    wfDisjoint l = true
      ↔ (imageRegions l).Pairwise fun a b => ∀ n, ¬ ((a.1 ≤ n ∧ n < a.2) ∧ b.1 ≤ n ∧ n < b.2) :=
  (allApart_iff _).trans (List.Pairwise.iff_of_mem fun ha hb => apart_iff _ _ (hne _ ha) (hne _ hb))

theorem imageRegions_nonempty (htable : wfTable l = true) (hfields : wfFields l = true) (htrailer : wfTrailer l = true)
    {r : Nat × Nat} (hr : r ∈ imageRegions l) : r.1 < r.2 := by
  simp only [imageRegions, fieldEntries, trailerEntries, List.mem_cons, List.mem_append, List.mem_map] at hr
  rcases hr with rfl | rfl | rfl | ⟨-, ⟨f, -, rfl⟩, rfl⟩ | ⟨-, ⟨t, -, rfl⟩, rfl⟩
  · decide
  · decide
  · have hnseq := (wfTable_iff.mp htable).1
    change 8 * l.lutOff < 8 * (l.lutOff + 16 * l.nseq)
    omega
  · exact (entryBits_bounds _ _ _ (wfFields_iff.mp hfields f)).2.1
  · exact (entryBits_bounds _ _ _ (wfTrailer_iff.mp htrailer t)).2.1

theorem wfCmdIndex_iff : wfCmdIndex l = true ↔ (namedSlots l).Nodup ∧ ∀ i ∈ namedSlots l, i < l.nseq := by
  simp [wfCmdIndex]

end

section
variable {c : Config} {nb : Nat}

theorem fieldFits_iff_fieldTable {f : PcbField} :
    fieldFits c f nb = true ↔ ∀ (v : Word) (e : Nat), fieldTable c f v e → e < 2 ^ nb := by
  rw [fieldFits_iff]
  constructor
  · intro h v e he
    obtain ⟨x, rfl⟩ := exists_word_of_fieldTable he
    exact h v x ((fieldEncode_eq_some_iff c f v x).mpr he)
  · exact fun h v e he => h v e.toNat ((fieldEncode_eq_some_iff c f v e).mp he)

theorem trailerFits_iff_trailerTable {t : FtbField} :
    trailerFits c t nb = true ↔ ∀ (v : Word) (e : Nat), trailerTable c t v e → e < 2 ^ nb := by
  rw [trailerFits_iff]
  constructor
  · intro h v e he
    obtain ⟨x, rfl⟩ := exists_word_of_trailerTable he
    exact h v x ((trailerEncode_eq_some_iff c t v x).mpr he)
  · exact fun h v e he => h v e.toNat ((trailerEncode_eq_some_iff c t v e).mp he)

theorem wfValues_iff :
    wfValues c = true
      ↔ (∀ f ∈ c.family.fields, ∀ (v : Word) (e : Nat), fieldTable c f v e → e < 2 ^ (fieldEntry c.layout f).nb)
        ∧ ∀ (t : FtbField) (v : Word) (e : Nat), trailerTable c t v e → e < 2 ^ (trailerEntry c.layout t).nb := by
  simp only [wfValues, Bool.and_eq_true, List.all_eq_true, fieldFits_iff_fieldTable, trailerFits_iff_trailerTable,
    mem_ftbFieldsAll, true_implies]

theorem layoutWf_iff :
    layoutWf c = true
      ↔ wfTotal c.layout = true ∧ wfTable c.layout = true ∧ wfFields c.layout = true ∧ wfTrailer c.layout = true
        ∧ wfDisjoint c.layout = true ∧ wfCmdIndex c.layout = true ∧ wfValues c = true := by
  simp only [layoutWf, Bool.and_eq_true, and_assoc]

end

/-- Settles O37: the seven tests, item by item, and the two finalizes and LUT_SET under a layout that fails one. -/
theorem layoutInvariantIsSevenItems : Obligations.LayoutInvariantIsSevenItems := by
  refine ⟨fun c => layoutWf_iff.trans ?_, fun s hw => ⟨fun h => ?_, fun h => ?_⟩, fun s f i h hs hsel hi => ?_⟩
  · have hitem3 := forall_congr' fun f => entryOk_iff 8 c.layout.pcbSize.toNat (fieldEntry c.layout f)
    have hitem4 := forall_congr' fun t =>
      entryOk_iff c.layout.pcbSize.toNat c.layout.totalSize.toNat (trailerEntry c.layout t)
    refine and_congr decide_eq_true_iff ?_
    rw [← wfTable_iff, ← wfCmdIndex_iff, ← wfValues_iff]
    refine and_congr_right fun htable => ?_
    refine (and_congr_right fun hfields => and_congr_right fun htrailer => and_congr_left fun _ =>
      wfDisjoint_iff fun _ => imageRegions_nonempty htable hfields htrailer).trans ?_
    exact and_congr (wfFields_iff.trans hitem3) (and_congr_left fun _ => wfTrailer_iff.trans hitem4)
  · exact Effect.exec_eq (.pcbFinalizeLayout h hw)
  · exact Effect.exec_eq (.ftbFinalizeLayout h hw)
  · exact exec_lutSet_of_nseq_le hsel h hs hi

/-! The default CONFIG. -/

theorem mem_iff_toNat_mem_map (b : Byte) (codes : List Byte) : b ∈ codes ↔ b.toNat ∈ codes.map BitVec.toNat :=
  (List.mem_map_of_injective fun _ _ => BitVec.eq_of_toNat_eq).symm

theorem mapGives_freqDefault_iff (v : Word) (e : Nat) :
    mapGives freqDefault v e ↔ (v.toNat, e) ∈ defaultFrequencies := by
  have hrows : defaultFrequencies = freqDefault.map fun r => (r.1.toNat, r.2.toNat) := rfl
  rw [mapGives_iff_mem (by decide), hrows, List.mem_map]
  constructor
  · rintro ⟨c, hc, rfl⟩
    exact ⟨(v, c), hc, rfl⟩
  · rintro ⟨⟨k, c⟩, hc, heq⟩
    obtain ⟨hk, rfl⟩ := Prod.mk.inj heq
    obtain rfl : k = v := BitVec.eq_of_toNat_eq hk
    exact ⟨c, hc, rfl⟩

theorem layoutWf_configDefault : layoutWf configDefault = true := by decide

/-- Settles O38: the default maps and codes are read off their lists, the rest is computed. -/
theorem defaultLayoutWellFormed : Obligations.DefaultLayoutWellFormed :=
  ⟨layoutWf_configDefault, ⟨rfl, rfl, rfl, rfl, rfl, rfl⟩, rfl, fun f => by cases f <;> exact ⟨rfl, rfl⟩, rfl,
    fun u => by cases u <;> exact ⟨rfl, rfl⟩, rfl, rfl, mem_pcbFieldsAll,
    fun b => ⟨mem_iff_toNat_mem_map b _, mem_iff_toNat_mem_map b _, mem_iff_toNat_mem_map b _,
      mem_iff_toNat_mem_map b _⟩,
    fun v e => ⟨mapGives_freqDefault_iff v e, mapGives_freqDefault_iff v e, Iff.rfl⟩, rfl, rfl⟩

end Sys2Proof.Machine
end

section
/-! The peripheral image, bit by bit (43_peripheral_block.md R225, R226). Under a well-formed layout every bit belongs
to the header, to one field's entry, to the table, or to nothing. -/

namespace Sys2Proof.Machine

/-- Bit `k` of an entry's value stands in the entry's bits. -/
theorem inRange_entryBits {e : Entry} {k : Nat} (hk : k < e.nb) : inRange (entryBits e) (8 * e.off + e.sh + k) :=
  ⟨Nat.le_add_right _ _, Nat.add_lt_add_left hk _⟩

section
variable {c : Config} (hw : layoutWf c = true) (pf : PcbFields) (lut : Memory)
include hw

theorem layoutWf_entryFits (f : PcbField) : EntryFits (fieldEntry c.layout f) :=
  entryFits_of_entryOk _ _ _ (layoutWf_field c hw f)

/-- Outside the entries of the family's fields the image before the table holds the header. -/
theorem imageBit_fieldImage_out {n : Nat}
    (hn : ∀ f ∈ c.family.fields, ¬ inRange (entryBits (fieldEntry c.layout f)) n) :
    imageBit (fieldImage c pf) n = imageBit (headerImage c) n :=
  imageBit_writeEntries_out _ _ _ _ (fun f _ => layoutWf_entryFits hw f) n
    fun f hf => hn f ((mem_familyFields c f).mp hf)

/-- In the entry of a field of the family it holds the field's value. -/
theorem imageBit_fieldImage_in {f : PcbField} (hf : f ∈ c.family.fields) {n : Nat}
    (hn : inRange (entryBits (fieldEntry c.layout f)) n) :
    imageBit (fieldImage c pf) n = (imageValue pf f).getLsbD (n - (entryBits (fieldEntry c.layout f)).1) :=
  imageBit_writeEntries_in _ _ _ _ (fun f _ => layoutWf_entryFits hw f)
    ((layoutWf_fields_apart c hw).1.sublist List.filter_sublist) f ((mem_familyFields c f).mpr hf) n hn

/-- The header stands in front of every entry and of the table. -/
theorem imageBit_buildPcb_header {n : Nat} (hn : n < 64) :
    imageBit (buildPcb c pf lut) n = imageBit (headerImage c) n := by
  obtain ⟨-, hlut, -⟩ := layoutWf_table c hw
  rw [imageBit_buildPcb_out c pf lut n (by omega), imageBit_fieldImage_out hw]
  intro f _ hin
  have hlo := (entryBits_bounds _ _ _ (layoutWf_field c hw f)).1
  have hle := hin.1
  omega

/-- No bit of a field's entry is one of the table's. -/
theorem imageBit_buildPcb_entry {f : PcbField} {n : Nat} (hn : inRange (entryBits (fieldEntry c.layout f)) n) :
    imageBit (buildPcb c pf lut) n = imageBit (fieldImage c pf) n :=
  imageBit_buildPcb_out c pf lut n fun htable =>
    not_inRange_of_apart _ _ n ((layoutWf_fields_apart c hw).2 f) htable hn

/-- Every bit that is in no region of the image is 0. -/
theorem imageBit_buildPcb_unused {n : Nat} (hn : 64 ≤ n)
    (hf : ∀ f ∈ c.family.fields, ¬ inRange (entryBits (fieldEntry c.layout f)) n)
    (htable : ¬ (8 * c.layout.lutOff ≤ n ∧ n < 8 * (c.layout.lutOff + 16 * c.layout.nseq))) :
    imageBit (buildPcb c pf lut) n = false := by
  rw [imageBit_buildPcb_out c pf lut n htable, imageBit_fieldImage_out hw pf hf, imageBit_headerImage,
    if_neg (by omega), if_neg (by omega)]

theorem entryHolds_buildPcb {f : PcbField} (hf : f ∈ c.family.fields) :
    entryHolds (buildPcb c pf lut) (fieldEntry c.layout f) (imageValue pf f) := by
  intro k hk
  have hin := inRange_entryBits (e := fieldEntry c.layout f) hk
  rw [imageBit_buildPcb_entry hw pf lut hin, imageBit_fieldImage_in hw pf hf hin]
  exact congrArg _ (Nat.add_sub_cancel_left _ _)

/-- The entry of a field the family lacks is apart from every other region, so it stays 0. -/
theorem entryHolds_buildPcb_zero {f : PcbField} (hf : f ∉ c.family.fields) :
    entryHolds (buildPcb c pf lut) (fieldEntry c.layout f) 0 := by
  intro k hk
  have hin := inRange_entryBits (e := fieldEntry c.layout f) hk
  obtain ⟨hlo, -, -⟩ := entryBits_bounds _ _ _ (layoutWf_field c hw f)
  refine (imageBit_buildPcb_unused hw pf lut (hlo.trans hin.1) (fun g hg => ?_) fun htable =>
    not_inRange_of_apart _ _ _ ((layoutWf_fields_apart c hw).2 f) htable hin).trans BitVec.getLsbD_zero.symm
  have hne : f ≠ g := fun h => hf (h ▸ hg)
  exact not_inRange_of_apart _ _ _ (layoutWf_field_apart c hw f g hne) hin

end

/-- A word whose bits stand at byte `a` of an array is there byte by byte, little-endian (20_memory.md R62). -/
theorem read_eq_extractLsb' {m : Memory} {a i : Nat} {v : Word}
    (h : ∀ k < 32, imageBit m (8 * a + k) = v.getLsbD k) (hi : i < 4) :
    Cells.read m (a + i) = v.extractLsb' (8 * i) 8 := by
  refine BitVec.eq_of_getLsbD_eq fun k hk => ?_
  have hbit := h (8 * i + k) (by omega)
  rw [imageBit, show (8 * a + (8 * i + k)) / 8 = a + i by omega, show (8 * a + (8 * i + k)) % 8 = k by omega] at hbit
  rw [hbit, BitVec.getLsbD_extractLsb', decide_eq_true hk, Bool.true_and]

/-- Settles O35: the header, the entries of the family's fields, the table, and the unused bits. -/
theorem pcbImageContents : Obligations.PcbImageContents := by
  refine fun c pf lut hw => ⟨fun i hi => ?_, fun i hi => ?_, fun f hf => entryHolds_buildPcb hw pf lut hf,
    fun a ha => ?_, fun n => imageBit_buildPcb_unused hw pf lut⟩
  · have hread := read_eq_extractLsb' (m := buildPcb c pf lut) (a := 0) (v := c.tag) (fun k hk => by
      rw [imageBit_buildPcb_header hw pf lut (by omega), imageBit_headerImage, if_pos (by omega), Nat.zero_add]) hi
    rwa [Nat.zero_add] at hread
  · refine read_eq_extractLsb' (fun k hk => ?_) hi
    rw [imageBit_buildPcb_header hw pf lut (by omega), imageBit_headerImage, if_neg (by omega), if_pos (by omega),
      Nat.add_sub_cancel_left]
  · rw [read_buildPcb, lutBytes, if_pos (by omega), Nat.add_sub_cancel_left]

theorem fieldEncode_sflashSize {f : PcbField} (c : Config) (v : Word)
    (hf : f ∈ [PcbField.sflashA1Size, .sflashA2Size, .sflashB1Size, .sflashB2Size]) :
    fieldEncode c f v = regionEncode c.family.regionEnc v := by
  simp only [List.mem_cons, List.not_mem_nil, or_false] at hf
  rcases hf with rfl | rfl | rfl | rfl <;> rfl

/-- Settles O36: while device mode is disabled the two entries hold 0, whether the family has the field or not. -/
theorem derivedFields : Obligations.DerivedFields := by
  refine ⟨fun c f v hf => ⟨fieldEncode_sflashSize c v hf, fun hc => ?_⟩, fun c pf lut f hw hd hf => ?_⟩
  · rw [fieldEncode_sflashSize c v hf, hc]
    rfl
  · have hzero : imageValue pf f = 0 := if_pos ⟨hf, hd⟩
    by_cases hm : f ∈ c.family.fields
    · exact hzero ▸ entryHolds_buildPcb hw pf lut hm
    · exact entryHolds_buildPcb_zero hw pf lut hm

end Sys2Proof.Machine
end

section
/-! The commands of the peripheral-block layout engine (43_peripheral_block.md R227 to R231): each outcome is a case of
`Effect`. -/

namespace Sys2Proof.Machine

/-- Settles O29. -/
theorem pcbClearStartsEmpty : Obligations.PcbClearStartsEmpty :=
  ⟨decodeOfEncode .pcbClear, fun _ => Effect.exec_eq .pcbClear⟩

theorem storeField_invalidatePcb_eq (f : PcbField) (e : Word) (r : Regs) :
    storeField f e (invalidatePcb r)
      = { pcbStale r with
          pf := setField r.pf f e
          pfSclkSet := if f = .serialClkFreq then true else r.pfSclkSet } := by
  have hset : (r.pfSclkSet || f == .serialClkFreq) = if f = .serialClkFreq then true else r.pfSclkSet := by
    by_cases h : f = .serialClkFreq <;> simp [h]
  exact congrArg (fun b => { pcbStale r with pf := setField r.pf f e, pfSclkSet := b }) hset

/-- Settles O31: a value is illegal when the table of R224 stores nothing for it. -/
theorem pcbSetStoresOrFails : Obligations.PcbSetStoresOrFails := by
  refine fun b v s => ⟨decodeOfEncode (.pcbSet b v), fun hf => Effect.exec_eq (.pcbSetId b v hf), fun f hf =>
    ⟨fun h => Effect.exec_eq (.pcbSetSticky b v f hf h), fun h hl => ?_, fun e h hm hl => ?_⟩⟩
  · exact Effect.exec_eq (.pcbSetIllegal b v f hf h (hl.imp_right fieldEncode_eq_none))
  · rw [← storeField_invalidatePcb_eq]
    exact Effect.exec_eq (.pcbSet b v f e hf h hm ((fieldEncode_eq_some_iff _ f v e).mpr hl))

/-- Settles O32: the new PCB_LUT is the serialised table, index by index. -/
theorem pcbLoadLutCopiesTable : Obligations.PcbLoadLutCopiesTable :=
  ⟨decodeOfEncode .pcbLoadLut, fun _ => ⟨fun h => Effect.exec_eq (.pcbLoadSticky h),
    fun h hl => Effect.exec_eq (.pcbLoadFailed h hl), fun h hl =>
      ⟨_, Effect.exec_eq (.pcbLoad h hl), Memory.wf_tabulate _ _, read_tabulate _ _⟩⟩⟩

/-- Settles O33. -/
theorem pcbFinalizeBuildsOrRefuses : Obligations.PcbFinalizeBuildsOrRefuses :=
  ⟨decodeOfEncode .pcbFinalize, fun _ => ⟨fun h => Effect.exec_eq (.pcbFinalizeSticky h),
    fun h hw => Effect.exec_eq (.pcbFinalizeLayout h hw), fun h hw hm => Effect.exec_eq (.pcbFinalizeMissing h hw hm),
    fun h hw hl hs hd => Effect.exec_eq (.pcbFinalize h hw hl hs hd)⟩⟩

/-- Settles O34. -/
theorem pcbReadAnswersByte : Obligations.PcbReadAnswersByte := fun v _ =>
  ⟨decodeOfEncode (.pcbRead v), fun h => Effect.exec_eq (.pcbReadRange v h),
    fun h hv => Effect.exec_eq (.pcbReadInvalid v h hv), fun h hv => Effect.exec_eq (.pcbRead v h hv)⟩

end Sys2Proof.Machine
end

section
/-! The final image, bit by bit (44_flash_type_block.md R270, R276). Every trailer entry stands past the wrapped block,
so the writes of the trailer fields leave its bytes alone. -/

namespace Sys2Proof.Machine

section
variable {c : Config} (hw : layoutWf c = true) (fwrap : Memory) (tf : TrailerFields)
include hw

theorem layoutWf_trailerEntryFits (t : FtbField) : EntryFits (trailerEntry c.layout t) :=
  entryFits_of_entryOk _ _ _ (layoutWf_trailer c hw t)

/-- Outside the trailer entries the final image is the wrapped block, cut to its size. -/
theorem imageBit_buildFinal_out {n : Nat} (hn : ∀ t, ¬ inEntry (trailerEntry c.layout t) n) :
    imageBit (buildFinal c fwrap tf) n = imageBit (Cells.take fwrap c.layout.pcbSize.toNat) n :=
  imageBit_writeEntries_out _ _ _ _ (fun t _ => layoutWf_trailerEntryFits hw t) n fun t _ => hn t

theorem read_buildFinal_of_lt {a : Nat} (ha : a < c.layout.pcbSize.toNat) :
    Cells.read (buildFinal c fwrap tf) a = Cells.read fwrap a := by
  have hbits : Cells.read (buildFinal c fwrap tf) a = Cells.read (Cells.take fwrap c.layout.pcbSize.toNat) a := by
    refine read_eq_of_imageBit _ _ _ fun k hk => imageBit_buildFinal_out hw fwrap tf fun t hin => ?_
    have hlo := (entryBits_bounds _ _ _ (layoutWf_trailer c hw t)).1
    have hle := hin.1
    simp only [entryBits] at hlo
    omega
  rw [hbits, Cells.read_take, if_pos ha]

theorem entryHolds_buildFinal (t : FtbField) :
    entryHolds (buildFinal c fwrap tf) (trailerEntry c.layout t) (getTrailer tf t) := by
  intro k hk
  rw [buildFinal_eq, imageBit_writeEntries_in _ _ _ _ (fun u _ => layoutWf_trailerEntryFits hw u)
    (layoutWf_trailers_apart c hw) t (mem_ftbFieldsAll t) _ (inRange_entryBits hk)]
  exact congrArg _ (Nat.add_sub_cancel_left _ _)

theorem imageBit_buildFinal_unused {n : Nat} (hn : 8 * c.layout.pcbSize.toNat ≤ n)
    (hout : ∀ t, ¬ inEntry (trailerEntry c.layout t) n) : imageBit (buildFinal c fwrap tf) n = false := by
  rw [imageBit_buildFinal_out hw fwrap tf hout, imageBit, Cells.read_take, if_neg (by omega)]
  exact BitVec.getLsbD_zero

end

/-- Settles O44: the wrapped block, the entries of the trailer fields, the unused bits, and the size. -/
theorem finalImageContents : Obligations.FinalImageContents := fun c fwrap tf hw =>
  ⟨fun _ => read_buildFinal_of_lt hw fwrap tf, entryHolds_buildFinal hw fwrap tf,
    fun _ => imageBit_buildFinal_unused hw fwrap tf, within_buildFinal c fwrap tf hw⟩

end Sys2Proof.Machine
end

section
/-! A valid final image is complete (44_flash_type_block.md R277): the invariant says what OUT was built from, and the
bits of the two images say the rest. -/

namespace Sys2Proof.Machine

theorem memRead_buildPcb_tag {c : Config} (hw : layoutWf c = true) (pf : PcbFields) (lut : Memory) :
    memRead (buildPcb c pf lut) 0 4 = c.tag := by
  refine BitVec.eq_of_getLsbD_eq fun k hk => ?_
  rw [memRead_getLsbD _ _ _ _ hk, decide_eq_true (by omega), Bool.true_and,
    imageBit_buildPcb_header hw pf lut (by omega), imageBit_headerImage, if_pos (by omega), Nat.mul_zero, Nat.zero_add]

/-- The tag of the wrapped block is the first word of the final image. -/
theorem memRead_buildFinal_tag {c : Config} (hw : layoutWf c = true) (fwrap : Memory) (tf : TrailerFields) :
    memRead (buildFinal c fwrap tf) 0 4 = memRead fwrap 0 4 := by
  obtain ⟨-, hlut, hsize⟩ := layoutWf_table c hw
  exact memRead_congr _ _ _ _ fun i hi => read_buildFinal_of_lt hw fwrap tf (by omega)

/-- With every TF_SET bit 1 each trailer register holds the encoding of a legal value (R30). -/
theorem WrapInv.trailer_legal {c : Config} {r : Regs} (h : WrapInv c r) (ht : r.tfSet = 0b111) (t : FtbField) :
    ∃ v, trailerEncode c t v = some (getTrailer r.tf t) :=
  h.2 t (by rw [ht]; cases t <;> rfl)

/-- Settles O58: OUT is the final image of a wrapped peripheral image and of legal trailer registers. -/
theorem validImageIsComplete : Obligations.ValidImageIsComplete := by
  intro s hinv hvalid
  obtain ⟨-, hwrapped, hset, hw, hout⟩ := hinv.out.2 hvalid
  obtain ⟨-, pf, lut, hlegal, hfwrap⟩ := hinv.wrap.1 hwrapped
  rw [hout]
  refine ⟨within_buildFinal _ _ _ hw, ?_, ⟨pf, lut, hlegal, fun a ha => ?_⟩,
    fun _ => imageBit_buildFinal_unused hw _ _, fun t => ?_⟩
  · rw [memRead_buildFinal_tag hw, hfwrap, memRead_buildPcb_tag hw]
  · rw [read_buildFinal_of_lt hw _ _ ha, hfwrap]
  · obtain ⟨v, hv⟩ := hinv.wrap.trailer_legal hset t
    exact ⟨v, _, hv, rfl, entryHolds_buildFinal hw _ _ t⟩

end Sys2Proof.Machine
end

section
/-! The commands of the flash-type-block wrapper (44_flash_type_block.md R272 to R276): each outcome is a case of
`Effect`. -/

namespace Sys2Proof.Machine

/-- Settles O39. -/
theorem ftbClearStartsEmpty : Obligations.FtbClearStartsEmpty :=
  ⟨decodeOfEncode .ftbClear, fun _ => Effect.exec_eq .ftbClear⟩

/-- Settles O40. -/
theorem ftbWrapCopiesImage : Obligations.FtbWrapCopiesImage :=
  ⟨decodeOfEncode .ftbWrap, fun _ => ⟨fun h => Effect.exec_eq (.ftbWrapSticky h),
    fun h hp => Effect.exec_eq (.ftbWrapFailed h hp), fun h hp hv => Effect.exec_eq (.ftbWrapMissing h hp hv),
    fun h hp hv => Effect.exec_eq (.ftbWrap h hp hv)⟩⟩

/-! The trailer fields. -/

theorem trailerEncode_eq_none {c : Config} {t : FtbField} {v : Word} (h : ∀ e, ¬ trailerTable c t v e) :
    trailerEncode c t v = none :=
  Option.eq_none_iff_forall_ne_some.mpr fun e he => h e.toNat ((trailerEncode_eq_some_iff c t v e).mp he)

/-- The ids 0x01 to 0x03 name the trailer fields in the order of the table, no other id names one (30_encoding.md
R108). -/
theorem ftbFieldOf_eq (b : Byte) : ftbFieldOf b = if 1 ≤ b.toNat then ftbFieldsAll[b.toNat - 1]? else none := by
  unfold ftbFieldOf
  generalize b.toNat = n
  by_cases hn : n < 4
  · interval_cases n <;> rfl
  · obtain ⟨k, rfl⟩ := Nat.exists_eq_add_of_le' (not_lt.mp hn)
    rfl

theorem setTrailerBit_eq_or (b : BitVec 3) (t : FtbField) :
    setTrailerBit b t = b ||| BitVec.ofNat 3 (2 ^ (ftbFieldIndex t).val) := by
  cases t <;> rfl

theorem tfSet_ne_full {b : BitVec 3} {t : FtbField} (h : b.getLsbD (ftbFieldIndex t).val = false) : b ≠ 0b111 := by
  rintro rfl
  cases t <;> cases h

/-- Settles O41: the encoder agrees with the table, and a TF_SET bit that is 0 keeps FTB_FINALIZE from building. -/
theorem trailerFieldTable : Obligations.TrailerFieldTable := by
  refine ⟨trailerEncode_eq_some_iff, fun c t u v e tf h => ⟨?_, getTrailer_setTrailer_ne tf t u e⟩,
    setTrailerBit_getLsbD, ftbFieldOf_eq, fun s t h hw hbit => ?_⟩
  · exact getTrailer_setTrailer c tf t v e ((trailerEncode_eq_some_iff c t v e).mpr h)
  · exact Effect.exec_eq (.ftbFinalizeMissing h hw (.inr (tfSet_ne_full hbit)))

/-- Settles O42: a value is illegal when the table of R272 stores nothing for it. -/
theorem ftbSetStoresOrFails : Obligations.FtbSetStoresOrFails := by
  refine fun b v s => ⟨decodeOfEncode (.ftbSet b v), fun hf => Effect.exec_eq (.ftbSetId b v hf), fun t hf =>
    ⟨fun h => Effect.exec_eq (.ftbSetSticky b v t hf h), fun h hl => ?_, fun e h hl => ?_⟩⟩
  · exact Effect.exec_eq (.ftbSetIllegal b v t hf h (trailerEncode_eq_none hl))
  · rw [← setTrailerBit_eq_or]
    exact Effect.exec_eq (.ftbSet b v t e hf h ((trailerEncode_eq_some_iff _ t v e).mpr hl))

/-- Settles O43. -/
theorem ftbFinalizeBuildsOrRefuses : Obligations.FtbFinalizeBuildsOrRefuses :=
  ⟨decodeOfEncode .ftbFinalize, fun _ => ⟨fun h => Effect.exec_eq (.ftbFinalizeSticky h),
    fun h hw => Effect.exec_eq (.ftbFinalizeLayout h hw), fun h hw hm => Effect.exec_eq (.ftbFinalizeMissing h hw hm),
    fun h hw hr ht => Effect.exec_eq (.ftbFinalize h hw hr ht)⟩⟩

end Sys2Proof.Machine
end

section
/-! The interface and the read-out (45_status_readout.md R290 to R298): a step on each kind of request, and what the
read commands answer, as numbers and as bytes. -/

namespace Sys2Proof.Machine

/-! The step. -/

/-- Settles O9: each outcome of `step_cases` is a next state. -/
theorem stepIsTotal : Obligations.StepIsTotal := by
  intro s
  rcases step_cases s with ⟨-, hs⟩ | ⟨rest, -, hs⟩ | ⟨x, rest, q, d, e, -, -, hs⟩ <;> exact ⟨_, hs⟩

/-- Settles O8: the words that run an instruction are those that decode to a well-formed one. -/
theorem stepRunsPresentedInstruction : Obligations.StepRunsPresentedInstruction :=
  ⟨fun s x rest i hr hx hw => step_of_runnable s x rest i hr ((runnable_eq_some_iff x i).mpr ⟨hx, hw⟩),
    step_of_unrunnable, step_of_reset, step_of_nil⟩

/-! The status views. -/

/-- Fields put side by side are a number in mixed radix: the high one counts in units of the low one's range. -/
theorem toNat_append_eq_add {m n : Nat} (x : BitVec m) (y : BitVec n) : (x ++ y).toNat = x.toNat * 2 ^ n + y.toNat := by
  rw [BitVec.toNat_append, ← Nat.shiftLeft_add_eq_or_of_lt y.isLt, Nat.shiftLeft_eq]

theorem statusView_eq_ofNat (r : Regs) :
    statusView r = BitVec.ofNat 32 (r.seqErr.toNat + r.lutErr.toNat * 2 ^ 8 + r.pcbErr.toNat * 2 ^ 16
      + r.ftbErr.toNat * 2 ^ 24) := by
  refine eq_ofNat _ _ ?_
  simp only [statusView, toNat_append_eq_add]
  omega

theorem infoView_eq_ofNat (r : Regs) :
    infoView r = BitVec.ofNat 32 (r.seqK.toNat + r.pcbLutSet.toNat * 2 ^ 4 + r.pfSclkSet.toNat * 2 ^ 5
      + r.pcbValid.toNat * 2 ^ 6 + r.ftbWrapped.toNat * 2 ^ 7 + r.tfSet.toNat * 2 ^ 8 + r.outValid.toNat * 2 ^ 11) := by
  refine eq_ofNat _ _ ?_
  simp only [infoView, toNat_append_eq_add, BitVec.toNat_ofBool, BitVec.ofNat_eq_ofNat, BitVec.toNat_ofNat]
  omega

/-- Settles O45: the two views are the numbers of R292 and R293. -/
theorem statusReadouts : Obligations.StatusReadouts := by
  refine ⟨⟨decodeOfEncode .nop, decodeOfEncode .status, decodeOfEncode .info, decodeOfEncode .rdResult⟩, fun s =>
    ⟨Effect.exec_eq .nop, ?_, ?_, ?_⟩⟩
  · rw [← statusView_eq_ofNat]
    exact Effect.exec_eq .status
  · rw [← infoView_eq_ofNat]
    exact Effect.exec_eq .info
  · rw [BitVec.ofNat_toNat]
    exact Effect.exec_eq .rdResult

/-! The final image read out. -/

/-- Settles O46. -/
theorem outReadAnswersByte : Obligations.OutReadAnswersByte := fun v _ =>
  ⟨decodeOfEncode (.outRead v), fun h => Effect.exec_eq (.outReadRange v h),
    fun h hv => Effect.exec_eq (.outReadInvalid v h hv), fun h hv => Effect.exec_eq (.outRead v h hv)⟩

/-- A four-byte read is its bytes, the last one highest (20_memory.md R62). -/
theorem memRead_four_eq_append (m : Memory) (a : Nat) :
    memRead m a 4 = Cells.read m (a + 3) ++ Cells.read m (a + 2) ++ Cells.read m (a + 1) ++ Cells.read m a := by
  have hread : ∀ i < 4, Cells.read m (a + i) = (memRead m a 4).extractLsb' (8 * i) 8 := fun i =>
    read_eq_extractLsb' fun k hk => by rw [memRead_getLsbD _ _ _ _ hk, decide_eq_true (by omega), Bool.true_and]
  have h0 := hread 0 (by omega)
  rw [Nat.add_zero] at h0
  rw [hread 3 (by omega), hread 2 (by omega), hread 1 (by omega), h0]
  simp only [BitVec.extractLsb'_append_extractLsb'_eq_extractLsb']
  exact (extract_all _).symm

/-- Settles O47: the bound is on naturals in the model too, and the four bytes are those of `memRead`. -/
theorem outRead32AnswersWord : Obligations.OutRead32AnswersWord := by
  refine fun v s => ⟨decodeOfEncode (.outRead32 v), fun h => Effect.exec_eq (.outRead32Range v h),
    fun h hv => Effect.exec_eq (.outRead32Invalid v h hv), fun h hv => ?_⟩
  rw [← memRead_four_eq_append]
  exact Effect.exec_eq (.outRead32 v h hv)

end Sys2Proof.Machine
end

section
/-! What a command that fails writes (60_exceptions.md R316, R317), and how the first error climbs from the sequence to
the final image (R313): both are read off `Effect`. -/

namespace Sys2Proof.Machine

/-! The head of a command. -/

theorem pcbFieldOf_isSome_iff (b : Byte) : (pcbFieldOf b).isSome ↔ 1 ≤ b.toNat ∧ b.toNat ≤ 15 := by
  have hlen : pcbFieldsAll.length = 15 := rfl
  rw [pcbFieldOf_eq]
  split <;> simp [hlen] <;> omega

theorem ftbFieldOf_isSome_iff (b : Byte) : (ftbFieldOf b).isSome ↔ 1 ≤ b.toNat ∧ b.toNat ≤ 3 := by
  have hlen : ftbFieldsAll.length = 3 := rfl
  rw [ftbFieldOf_eq]
  split <;> simp [hlen] <;> omega

section
variable {c : Config} {r q : Regs} {i : Instr} {d : Word} {e : Byte}

/-- ENC and the LUT instructions have no head. -/
theorem headOf_of_packerTriple {x : Byte × Byte × Word} (h : packerTriple i = some x) : headOf i r = r := by
  cases i <;> first | rfl | cases h

theorem headOf_pcbSet_of_some {b : Byte} {f : PcbField} (v : Word) (hf : pcbFieldOf b = some f) :
    headOf (.pcbSet b v) r = invalidatePcb r :=
  if_pos ((pcbFieldOf_isSome_iff b).mp (by simp [hf]))

theorem headOf_pcbSet_of_none {b : Byte} (v : Word) (hf : pcbFieldOf b = none) : headOf (.pcbSet b v) r = r :=
  if_neg (mt (pcbFieldOf_isSome_iff b).mpr (by simp [hf]))

theorem headOf_ftbSet_of_some {b : Byte} {t : FtbField} (v : Word) (hf : ftbFieldOf b = some t) :
    headOf (.ftbSet b v) r = invalidateOut r :=
  if_pos ((ftbFieldOf_isSome_iff b).mp (by simp [hf]))

theorem headOf_ftbSet_of_none {b : Byte} (v : Word) (hf : ftbFieldOf b = none) : headOf (.ftbSet b v) r = r :=
  if_neg (mt (ftbFieldOf_isSome_iff b).mpr (by simp [hf]))

/-- A failing command has done its head only, or has also recorded its status in its own stage, which had no error. -/
theorem Effect.regs_of_status_ne_zero (he : Effect c r i q d e) (h : e ≠ 0) :
    q = headOf i r ∨ ∃ st, recordsIn i = some st ∧ stageErr st r = 0 ∧ q = setStageErr st e (headOf i r) := by
  cases he with
  | packIllegal _ _ _ _ hi => exact .inl (headOf_of_packerTriple hi).symm
  | pcbSetId _ v hf => exact .inl (headOf_pcbSet_of_none v hf).symm
  | ftbSetId _ v hf => exact .inl (headOf_ftbSet_of_none v hf).symm
  | pcbSetSticky _ v _ hf => exact .inl (headOf_pcbSet_of_some v hf).symm
  | ftbSetSticky _ v _ hf => exact .inl (headOf_ftbSet_of_some v hf).symm
  | seqPushSticky | lutSetSticky | pcbLoadSticky | pcbFinalizeSticky | pcbFinalizeLayout | pcbFinalizeMissing
  | ftbWrapSticky | ftbFinalizeSticky | ftbFinalizeLayout | ftbFinalizeMissing | seqReadRange | lutReadRange
  | pcbReadRange | pcbReadInvalid | outReadRange | outReadInvalid | outRead32Range | outRead32Invalid =>
    exact .inl rfl
  | seqPushFull _ _ _ h0 | seqPushIllegal _ _ _ h0 => exact .inr ⟨.seq, rfl, h0, rfl⟩
  | lutSetSelector _ h0 | lutSetFailed _ _ h0 | lutSetBound _ _ h0 => exact .inr ⟨.lut, rfl, h0, rfl⟩
  | pcbSetIllegal _ v _ hf h0 => exact .inr ⟨.pcb, rfl, h0, by rw [headOf_pcbSet_of_some v hf]; rfl⟩
  | pcbLoadFailed h0 => exact .inr ⟨.pcb, rfl, h0, rfl⟩
  | ftbWrapFailed h0 | ftbWrapMissing h0 => exact .inr ⟨.ftb, rfl, h0, rfl⟩
  | ftbSetIllegal _ v _ hf h0 => exact .inr ⟨.ftb, rfl, h0, by rw [headOf_ftbSet_of_some v hf]; rfl⟩
  | _ => exact absurd rfl h

end

/-- An instruction that answers a status other than 0 has an `Effect` of that status. -/
theorem exec_next_of_status_ne_zero {i : Instr} {s t : State} (hx : exec i s = .next t) (ht : statusOf t ≠ some 0) :
    ∃ q d e, Effect s.cfg s.regs i q d e ∧ e ≠ 0 ∧ t.regs = q ∧ t.cfg = s.cfg ∧ t.requests = s.requests
      ∧ statusOf t = some e := by
  obtain ⟨q, d, e, he, rfl⟩ := exec_next i s t hx
  rw [statusOf_responseWord _ rfl] at ht
  exact ⟨q, d, e, he, fun h0 => ht (congrArg some h0), rfl, rfl, rfl, statusOf_responseWord _ rfl⟩

/-- Settles O54: the whole next state of a failing instruction is read off its `Effect`. -/
theorem failingCommandWrites : Obligations.FailingCommandWrites := by
  intro i s t hx ht
  obtain ⟨q, d, e, he, h0, rfl, hcfg, hreq, hst⟩ := exec_next_of_status_ne_zero hx ht
  refine ⟨hcfg, hreq, (he.regs_of_status_ne_zero h0).imp_right ?_⟩
  rintro ⟨st, hrec, herr, hq⟩
  exact ⟨st, e, hrec, herr, hst, hq⟩

/-- To perform a list of instructions, perform the first as its `Effect` says and the others from there. -/
theorem exists_execAll_cons {P : State → Prop} {s : State} {i : Instr} {is : List Instr} {q : Regs} {d : Word} {e : Byte}
    (he : Effect s.cfg s.regs i q d e)
    (h : ∃ t, execAll { cfg := s.cfg, regs := q, requests := s.requests, response := some (responseWord d e) } is = some t
      ∧ P t) : ∃ t, execAll s (i :: is) = some t ∧ P t := by
  rwa [execAll_cons_of_exec he.exec_eq]

/-- Settles O55: each stage copies the error of the one below, SEQ_CLEAR does not reach the copies, and FTB_FINALIZE
answers the last one. -/
theorem errorsPropagateUpward : Obligations.ErrorsPropagateUpward := by
  intro s f i hseq hlut hpcb hftb hsel
  obtain ⟨cmd, hc, -⟩ := (selectCommand_slot_iff _ f i).mpr hsel
  refine exists_execAll_cons (.lutSetFailed f cmd hlut hc hseq) ?_
  refine exists_execAll_cons (.pcbLoadFailed hpcb hseq) ?_
  refine exists_execAll_cons (.ftbWrapFailed hftb hseq) ?_
  refine exists_execAll_cons .seqClear ?_
  refine exists_execAll_cons (.ftbFinalizeSticky hseq) ?_
  exact ⟨_, rfl, rfl, rfl, rfl, rfl, statusOf_responseWord _ rfl, rfl⟩

end Sys2Proof.Machine
end

section
/-! A finalize that fails records nothing (60_exceptions.md R314): the commands that supply what is missing still work,
and a finalize that succeeded leaves what it needs in place. Both finalizes are one statement about a list of items,
each with the test that it is missing and the command that supplies it. -/

namespace Sys2Proof.Machine

/-! Supplying what is missing. -/

section
variable {ι : Type} {missing : ι → Regs → Bool} {cmd : ι → Instr} {c : Config} {P : Regs → Prop} {xs : List ι}

/-- From the registers `r` the command of `x` supplies it, takes away no item that is there, and keeps `P`. -/
def Supplies (missing : ι → Regs → Bool) (cmd : ι → Instr) (c : Config) (P : Regs → Prop) (x : ι) (r : Regs) : Prop :=
  ∃ q d e, Effect c r (cmd x) q d e ∧ P q ∧ ∀ y, y = x ∨ missing y r = false → missing y q = false

/-- The commands of a list of items supply all of them. -/
theorem execAll_supplies {s : State} (hc : s.cfg = c) (hs : P s.regs)
    (hstep : ∀ x ∈ xs, ∀ r, P r → Supplies missing cmd c P x r) :
    ∃ t, execAll s (xs.map cmd) = some t ∧ t.cfg = c ∧ P t.regs
      ∧ ∀ y, y ∈ xs ∨ missing y s.regs = false → missing y t.regs = false := by
  subst hc
  induction xs generalizing s with
  | nil => exact ⟨s, rfl, rfl, hs, fun y hy => hy.resolve_left List.not_mem_nil⟩
  | cons x xs ih =>
    obtain ⟨q, d, e, he, hq, hx⟩ := hstep x List.mem_cons_self s.regs hs
    refine exists_execAll_cons he ?_
    obtain ⟨t, ht, hcfg, hP, hsup⟩ := ih (s := { s with regs := q, response := some (responseWord d e) }) hq
      fun y hy => hstep y (List.mem_cons_of_mem x hy)
    refine ⟨t, ht, hcfg, hP, fun y hy => hsup y ?_⟩
    rw [List.mem_cons, or_assoc, or_left_comm] at hy
    exact hy.imp_right (hx y)

theorem execAll_append_of_execAll {s t : State} {is : List Instr} (h : execAll s is = some t) (js : List Instr) :
    execAll s (is ++ js) = execAll t js := by
  induction is generalizing s with
  | nil => rw [List.nil_append, Option.some.inj h]
  | cons i is ih =>
    obtain ⟨u, hu, ht⟩ := execAll_cons h
    rw [List.cons_append, execAll_cons_of_exec hu, ih ht]

/-- A finalize that answered MissingRequiredField succeeds once the items missing have been supplied. -/
theorem finalize_after_supplies {fin : Instr} {q : Regs} {valid : Regs → Bool} {s : State}
    (hfail : Effect s.cfg s.regs fin q 0 3) (hq : P q) (hxs : ∀ y, y ∈ xs ∨ missing y q = false)
    (hstep : ∀ x ∈ xs, ∀ r, P r → Supplies missing cmd s.cfg P x r)
    (hdone : ∀ r, P r → (∀ y, missing y r = false) → ∃ q d, Effect s.cfg r fin q d 0 ∧ valid q = true) :
    ∃ t u, exec fin s = .next t ∧ statusOf t = some 3 ∧ execAll t (xs.map cmd ++ [fin]) = some u
      ∧ statusOf u = some 0 ∧ valid u.regs = true := by
  obtain ⟨t, ht, hcfg, hP, hsup⟩ :=
    execAll_supplies (s := { s with regs := q, response := some (responseWord 0 3) }) rfl hq hstep
  obtain ⟨p, d, he, hv⟩ := hdone t.regs hP fun y => hsup y (hxs y)
  have hlast : exec fin t = answerWith t p d 0 := Effect.exec_eq (hcfg ▸ he)
  exact ⟨_, _, hfail.exec_eq, statusOf_responseWord _ rfl,
    (execAll_append_of_execAll ht _).trans (execAll_cons_of_exec hlast []), statusOf_responseWord _ rfl, hv⟩

end

/-! PCB_FINALIZE. -/

/-- What PCB_FINALIZE needs (R230). -/
inductive PcbItem where
  | table
  | clock
  | sequence

/-- PCB_FINALIZE would find the item missing. -/
def PcbItem.missing (x : PcbItem) (r : Regs) : Bool :=
  match x with
  | .table => !r.pcbLutSet
  | .clock => !r.pfSclkSet
  | .sequence => decide (r.pf.dmEn = 1 ∧ r.pf.dmSeq = 0)

/-- The command that supplies an item: the table, the clock frequency `mhz`, the device mode sequence `dm`. -/
def PcbItem.supply (mhz dm : Word) (x : PcbItem) : Instr :=
  match x with
  | .table => .pcbLoadLut
  | .clock => .pcbSet 0x0B mhz
  | .sequence => .pcbSet 0x06 dm

/-- The items PCB_FINALIZE finds missing. -/
def pcbLacking (r : Regs) : List PcbItem := [.table, .clock, .sequence].filter fun x => x.missing r

theorem mem_pcbLacking_iff (x : PcbItem) (r : Regs) : x ∈ pcbLacking r ↔ x.missing r = true := by
  cases x <;> simp [pcbLacking]

theorem pcbSupplies_eq (r : Regs) (mhz dm : Word) :
    pcbSupplies r mhz dm = (pcbLacking r).map (PcbItem.supply mhz dm) := by
  simp only [pcbSupplies, pcbLacking, List.filter_cons, List.filter_nil, PcbItem.missing]
  cases r.pcbLutSet <;> cases r.pfSclkSet <;> by_cases hd : r.pf.dmEn = 1 ∧ r.pf.dmSeq = 0 <;>
    simp only [hd] <;> rfl

section
variable {c : Config} {r : Regs} {l : Byte}

theorem deviceModeSeq_ne_zero {v w : Word} (h : fieldTable c .deviceModeSeq v w.toNat) : w ≠ 0 := by
  obtain ⟨hv, -, hlow, -⟩ := h
  rintro rfl
  simp [← hv] at hlow

/-- Each of the three commands supplies its item and leaves the other two. -/
theorem PcbItem.supplies {mhz dm : Word} (x : PcbItem) (h : r.pcbErr = 0 ∧ r.lutErr = l) (hl : x = .table → l = 0)
    (hclk : x = .clock → .serialClkFreq ∈ c.family.fields ∧ ∃ w : Word, fieldTable c .serialClkFreq mhz w.toNat)
    (hseq : x = .sequence → .deviceModeSeq ∈ c.family.fields ∧ ∃ w : Word, fieldTable c .deviceModeSeq dm w.toNat) :
    Supplies PcbItem.missing (PcbItem.supply mhz dm) c (fun q => q.pcbErr = 0 ∧ q.lutErr = l) x r := by
  cases x with
  | table =>
    refine ⟨_, _, _, .pcbLoad h.1 (h.2.trans (hl rfl)), h, fun y hy => ?_⟩
    cases y with
    | table => rfl
    | clock | sequence => exact hy.resolve_left nofun
  | clock =>
    obtain ⟨hm, w, hw⟩ := hclk rfl
    refine ⟨_, _, _, .pcbSet _ _ _ w rfl h.1 hm ((fieldEncode_eq_some_iff _ _ _ _).mpr hw), h, fun y hy => ?_⟩
    cases y with
    | clock => simp [missing]
    | table | sequence => exact hy.resolve_left nofun
  | sequence =>
    obtain ⟨hm, w, hw⟩ := hseq rfl
    refine ⟨_, _, _, .pcbSet _ _ _ w rfl h.1 hm ((fieldEncode_eq_some_iff _ _ _ _).mpr hw), h, fun y hy => ?_⟩
    cases y with
    | sequence => exact decide_eq_false fun hz => deviceModeSeq_ne_zero hw hz.2
    | table => exact hy.resolve_left nofun
    | clock => simpa [missing] using hy

theorem Effect.pcbFinalize_of_supplied (h : r.pcbErr = 0) (hw : layoutWf c = true)
    (hall : ∀ x : PcbItem, x.missing r = false) : Effect c r .pcbFinalize (finishPcb c r) c.layout.pcbSize 0 :=
  .pcbFinalize h hw (by simpa [PcbItem.missing] using hall .table) (by simpa [PcbItem.missing] using hall .clock)
    (of_decide_eq_false (hall .sequence))

end

/-- The PCB_FINALIZE half of R314: LUT_ERR is what the load of the table needs besides. -/
theorem pcbFinalize_after_supplies {s : State} {mhz dm : Word} (h : s.regs.pcbErr = 0) (hw : layoutWf s.cfg = true)
    (hmiss : pcbMissing s.regs) (hlut : s.regs.pcbLutSet = false → s.regs.lutErr = 0)
    (hclk : s.regs.pfSclkSet = false → PcbField.serialClkFreq ∈ s.cfg.family.fields
      ∧ ∃ e : Word, fieldTable s.cfg .serialClkFreq mhz e.toNat)
    (hseq : s.regs.pf.dmEn = 1 ∧ s.regs.pf.dmSeq = 0 → PcbField.deviceModeSeq ∈ s.cfg.family.fields
      ∧ ∃ e : Word, fieldTable s.cfg .deviceModeSeq dm e.toNat) :
    ∃ t u, exec .pcbFinalize s = .next t ∧ statusOf t = some 3
      ∧ execAll t (pcbSupplies s.regs mhz dm ++ [.pcbFinalize]) = some u ∧ statusOf u = some 0
      ∧ u.regs.pcbValid = true := by
  rw [pcbSupplies_eq]
  refine finalize_after_supplies (missing := PcbItem.missing) (valid := Regs.pcbValid)
    (P := fun q => q.pcbErr = 0 ∧ q.lutErr = s.regs.lutErr) (.pcbFinalizeMissing h hw hmiss) ⟨h, rfl⟩ (fun y => ?_)
    (fun x hx r hr => ?_) fun r hr hall => ⟨_, _, .pcbFinalize_of_supplied hr.1 hw hall, rfl⟩
  · rw [mem_pcbLacking_iff]
    cases hy : y.missing s.regs
    · exact .inr (by cases y <;> exact hy)
    · exact .inl rfl
  · rw [mem_pcbLacking_iff] at hx
    refine x.supplies hr ?_ ?_ ?_ <;> rintro rfl
    · exact hlut (by simpa [PcbItem.missing] using hx)
    · exact hclk (by simpa [PcbItem.missing] using hx)
    · exact hseq (of_decide_eq_true hx)

/-! FTB_FINALIZE. -/

/-- What FTB_FINALIZE needs (R276). -/
inductive FtbItem where
  | block
  | trailer (t : FtbField)

/-- FTB_FINALIZE would find the item missing. -/
def FtbItem.missing (x : FtbItem) (r : Regs) : Bool :=
  match x with
  | .block => !r.ftbWrapped
  | .trailer t => !r.tfSet.getLsbD (ftbFieldIndex t).val

/-- The command that supplies an item: the wrapped block, the value `v t` of the trailer field `t`. -/
def FtbItem.supply (v : FtbField → Word) (x : FtbItem) : Instr :=
  match x with
  | .block => .ftbWrap
  | .trailer t => .ftbSet (ftbIdOf t) (v t)

/-- The items FTB_FINALIZE finds missing. -/
def ftbLacking (r : Regs) : List FtbItem := (.block :: ftbFieldsAll.map .trailer).filter fun x => x.missing r

theorem mem_ftbLacking_iff (x : FtbItem) (r : Regs) : x ∈ ftbLacking r ↔ x.missing r = true := by
  cases x <;> simp [ftbLacking, mem_ftbFieldsAll]

theorem ftbSupplies_eq (r : Regs) (v : FtbField → Word) :
    ftbSupplies r v = (ftbLacking r).map (FtbItem.supply v) := by
  have hblock : FtbItem.block.missing r = !r.ftbWrapped := rfl
  have htrailer : ((ftbFieldsAll.filter fun t => !r.tfSet.getLsbD (ftbFieldIndex t).val).map fun t =>
        Instr.ftbSet (ftbIdOf t) (v t))
      = ((ftbFieldsAll.map FtbItem.trailer).filter fun x => x.missing r).map (FtbItem.supply v) := by
    rw [List.filter_map, List.map_map]
    rfl
  rw [ftbSupplies, ftbLacking, List.filter_cons, hblock, htrailer]
  cases r.ftbWrapped <;> rfl

theorem ftbFieldOf_ftbIdOf (t : FtbField) : ftbFieldOf (ftbIdOf t) = some t := by
  cases t <;> rfl

theorem tfSet_eq_full {b : BitVec 3} (h : ∀ t, b.getLsbD (ftbFieldIndex t).val = true) : b = 0b111 := by
  have h0 : b.getLsbD 0 = true := h .pageSize
  have h1 : b.getLsbD 1 = true := h .sectorSize
  have h2 : b.getLsbD 2 = true := h .ipCmdSerialClkFreq
  refine BitVec.eq_of_getLsbD_eq fun k hk => ?_
  interval_cases k <;> assumption

section
variable {c : Config} {r : Regs} {e : Byte} {b : Bool}

/-- Each of the four commands supplies its item and leaves the other three. -/
theorem FtbItem.supplies {v : FtbField → Word} (x : FtbItem) (h : r.ftbErr = 0 ∧ r.pcbErr = e ∧ r.pcbValid = b)
    (hblock : x = .block → e = 0 ∧ b = true)
    (htrailer : ∀ t, x = .trailer t → ∃ w : Word, trailerTable c t (v t) w.toNat) :
    Supplies FtbItem.missing (FtbItem.supply v) c (fun q => q.ftbErr = 0 ∧ q.pcbErr = e ∧ q.pcbValid = b) x r := by
  cases x with
  | block =>
    obtain ⟨he, hb⟩ := hblock rfl
    refine ⟨_, _, _, .ftbWrap h.1 (h.2.1.trans he) (h.2.2.trans hb), h, fun y hy => ?_⟩
    cases y with
    | block => rfl
    | trailer t => exact hy.resolve_left nofun
  | trailer t =>
    obtain ⟨w, hw⟩ := htrailer t rfl
    refine ⟨_, _, _, .ftbSet _ _ t w (ftbFieldOf_ftbIdOf t) h.1 ((trailerEncode_eq_some_iff _ _ _ _).mpr hw), h,
      fun y hy => ?_⟩
    cases y with
    | block => exact hy.resolve_left nofun
    | trailer u =>
      simp only [missing, storeTrailer_tfSet, setTrailerBit_getLsbD]
      rcases hy with hy | hy
      · cases hy
        simp
      · simp only [missing, Bool.not_eq_false'] at hy
        simp [hy]

theorem Effect.ftbFinalize_of_supplied (h : r.ftbErr = 0) (hw : layoutWf c = true)
    (hall : ∀ x : FtbItem, x.missing r = false) : Effect c r .ftbFinalize (finishFtb c r) c.layout.totalSize 0 :=
  .ftbFinalize h hw (by simpa [FtbItem.missing] using hall .block)
    (tfSet_eq_full fun t => by simpa [FtbItem.missing] using hall (.trailer t))

end

/-- The FTB_FINALIZE half of R314: a valid peripheral image is what the wrapping needs besides. -/
theorem ftbFinalize_after_supplies {s : State} {v : FtbField → Word} (h : s.regs.ftbErr = 0)
    (hw : layoutWf s.cfg = true) (hmiss : ftbMissing s.regs)
    (hblock : s.regs.ftbWrapped = false → s.regs.pcbErr = 0 ∧ s.regs.pcbValid = true)
    (htrailer : ∀ f, s.regs.tfSet.getLsbD (ftbFieldIndex f).val = false →
      ∃ e : Word, trailerTable s.cfg f (v f) e.toNat) :
    ∃ t u, exec .ftbFinalize s = .next t ∧ statusOf t = some 3
      ∧ execAll t (ftbSupplies s.regs v ++ [.ftbFinalize]) = some u ∧ statusOf u = some 0
      ∧ u.regs.outValid = true := by
  rw [ftbSupplies_eq]
  refine finalize_after_supplies (missing := FtbItem.missing) (valid := Regs.outValid)
    (P := fun q => q.ftbErr = 0 ∧ q.pcbErr = s.regs.pcbErr ∧ q.pcbValid = s.regs.pcbValid)
    (.ftbFinalizeMissing h hw hmiss) ⟨h, rfl, rfl⟩ (fun y => ?_) (fun x hx r hr => ?_)
    fun r hr hall => ⟨_, _, .ftbFinalize_of_supplied hr.1 hw hall, rfl⟩
  · rw [mem_ftbLacking_iff]
    cases hy : y.missing s.regs
    · exact .inr (by cases y <;> exact hy)
    · exact .inl rfl
  · rw [mem_ftbLacking_iff] at hx
    refine x.supplies hr ?_ ?_
    · rintro rfl
      exact hblock (by simpa [FtbItem.missing] using hx)
    · rintro t rfl
      exact htrailer t (by simpa [FtbItem.missing] using hx)

/-! Failing and repeating. -/

section
variable {s t : State}

/-- A failing command that records in no stage has done its head only. -/
theorem exec_regs_of_status_ne_zero {i : Instr} (hi : recordsIn i = none) (hx : exec i s = .next t)
    (ht : statusOf t ≠ some 0) : t.regs = headOf i s.regs := by
  obtain ⟨q, d, e, he, h0, rfl, -⟩ := exec_next_of_status_ne_zero hx ht
  refine (he.regs_of_status_ne_zero h0).resolve_right ?_
  rintro ⟨st, hst, -⟩
  cases hi.symm.trans hst

theorem Effect.pcbFinalize_again {c : Config} {r q : Regs} {d : Word} {e : Byte} (he : Effect c r .pcbFinalize q d e)
    (h0 : e = 0) : Effect c q .pcbFinalize q d 0 := by
  cases he with
  | packed _ _ _ _ hi | packIllegal _ _ _ _ hi => cases hi
  | pcbFinalizeSticky h => exact absurd h0 h
  | pcbFinalizeLayout | pcbFinalizeMissing => exact absurd h0 (by decide)
  | pcbFinalize h hw hl hs hd => exact .pcbFinalize (r := finishPcb c r) h hw hl hs hd

theorem Effect.ftbFinalize_again {c : Config} {r q : Regs} {d : Word} {e : Byte} (he : Effect c r .ftbFinalize q d e)
    (h0 : e = 0) : Effect c q .ftbFinalize q d 0 := by
  cases he with
  | packed _ _ _ _ hi | packIllegal _ _ _ _ hi => cases hi
  | ftbFinalizeSticky h => exact absurd h0 h
  | ftbFinalizeLayout | ftbFinalizeMissing => exact absurd h0 (by decide)
  | ftbFinalize h hw hr ht => exact .ftbFinalize (r := finishFtb c r) h hw hr ht

/-- What an instruction that answered status 0 does when it is performed again. -/
theorem exec_again {i : Instr} (hx : exec i s = .next t) (ht : statusOf t = some 0)
    (hagain : ∀ {c r q d e}, Effect c r i q d e → e = 0 → Effect c q i q d 0) :
    ∃ u, exec i t = .next u ∧ u.regs = t.regs := by
  obtain ⟨q, d, e, he, rfl⟩ := exec_next i s t hx
  rw [statusOf_responseWord _ rfl] at ht
  have hq := hagain he (Option.some.inj ht)
  exact ⟨_, Effect.exec_eq (s := { s with regs := q, response := some (responseWord d e) }) hq, rfl⟩

end

/-- Settles O60: a finalize records in no stage, its items can all be supplied, and it needs no register it writes. -/
theorem finalizeFailureIsNotSticky : Obligations.FinalizeFailureIsNotSticky :=
  ⟨fun _ _ => exec_regs_of_status_ne_zero rfl, fun _ _ => exec_regs_of_status_ne_zero rfl,
    fun _ _ _ => pcbFinalize_after_supplies, fun _ _ => ftbFinalize_after_supplies,
    fun _ _ hx ht => exec_again hx ht Effect.pcbFinalize_again,
    fun _ _ hx ht => exec_again hx ht Effect.ftbFinalize_again⟩

end Sys2Proof.Machine
end

section
/-! Reset and the four CLEAR commands (70_reset_and_hazards.md R340, R341). A CLEAR writes the registers of its own
stage only, so the four commute, and together they write every register but RESULT. -/

namespace Sys2Proof.Machine

/-- Settles O11: an unlisted cell of an array reads 0, and each other register of `regsReset` holds its value. -/
theorem resetSetsEveryRegister : Obligations.ResetSetsEveryRegister :=
  have hseq (i : Nat) : seqRead regsReset i = 0 := seqRead_eq_zero_of_replicate rfl i
  ⟨fun _ => ⟨_, rfl, rfl, rfl, rfl⟩,
    rfl, fun i _ => hseq i, rfl, rfl,
    Cells.read_nil, rfl,
    rfl, rfl, rfl, rfl, rfl, rfl, rfl, rfl, rfl, rfl, rfl, rfl, rfl, rfl, rfl, rfl,
    Cells.read_nil, rfl, rfl,
    Cells.read_nil, rfl,
    Cells.read_nil, rfl, rfl, rfl, rfl, rfl, rfl, Cells.read_nil, rfl⟩

/-- The registers after the CLEAR command of a stage (R180, R202, R227, R273). -/
def clearStage (r : Regs) (st : Stage) : Regs :=
  match st with
  | .seq => clearSeq r
  | .lut => clearLut r
  | .pcb => clearPcb r
  | .ftb => clearFtb r

theorem Effect.clear (c : Config) (r : Regs) (st : Stage) : Effect c r (clearOf st) (clearStage r st) 0 0 := by
  cases st with
  | seq => exact .seqClear
  | lut => exact .lutClear
  | pcb => exact .pcbClear
  | ftb => exact .ftbClear

/-- No two stages share a register. -/
theorem clearStage_comm (r : Regs) (a b : Stage) :
    clearStage (clearStage r a) b = clearStage (clearStage r b) a := by
  cases a <;> cases b <;> rfl

theorem foldl_clearStage_eq_reset (r : Regs) :
    [Stage.seq, .lut, .pcb, .ftb].foldl clearStage r = { regsReset with result := r.result } := rfl

/-- A list of CLEAR commands clears the stages one after the other. -/
theorem execAll_map_clearOf (sts : List Stage) (s : State) :
    ∃ t, execAll s (sts.map clearOf) = some t ∧ t.regs = sts.foldl clearStage s.regs := by
  induction sts generalizing s with
  | nil => exact ⟨s, rfl, rfl⟩
  | cons st sts ih => exact exists_execAll_cons (.clear s.cfg s.regs st) (ih _)

theorem exists_stages_of_perm_map_clearOf {is : List Instr} {sts : List Stage} (h : is.Perm (sts.map clearOf)) :
    ∃ sts' : List Stage, is = sts'.map clearOf ∧ sts'.Perm sts :=
  (congrFun₂ (List.eq_map_comp_perm clearOf) is sts).mpr h

/-- Settles O53: the four commands are the CLEARs of the four stages in some order, and the order does not matter. -/
theorem clearsGiveReset : Obligations.ClearsGiveReset := by
  intro is s hperm
  obtain ⟨sts, rfl, hsts⟩ := exists_stages_of_perm_map_clearOf (sts := [.seq, .lut, .pcb, .ftb]) hperm
  obtain ⟨t, ht, hregs⟩ := execAll_map_clearOf sts s
  refine ⟨t, ht, hregs.trans ?_⟩
  calc sts.foldl clearStage s.regs
    _ = [Stage.seq, .lut, .pcb, .ftb].foldl clearStage s.regs :=
      hsts.foldl_eq' (fun a _ b _ r => clearStage_comm r a b) s.regs
    _ = { State.reset.regs with result := s.regs.result } := foldl_clearStage_eq_reset s.regs

end Sys2Proof.Machine
end

section
/-! A LUT instruction on its own (30_encoding.md R95; 40_instruction_encoder.md section 2; log 5): the packer is given
the triple of its row, so it does what ENC of that triple does. -/

namespace Sys2Proof.Machine

section
variable {row : LutRow} (hr : row ∈ lutRows) (p : BitVec 2) (d : Byte)
include hr

theorem packerTriple_lutRow :
    packerTriple (row.make p d) = some (row.opcode, p.setWidth 8, d.setWidth 32) := by
  revert row
  simp only [lutRows, ← List.forall_iff_forall_mem, List.Forall]
  and_intros <;> rfl

theorem exec_lutRow_eq_exec_enc (s : State) :
    exec (row.make p d) s = exec (.enc row.opcode (p.setWidth 8) (d.setWidth 32)) s :=
  exec_of_packerTriple s (packerTriple_lutRow hr p d)

/-- The pad class and the operand of a LUT instruction are always in range, so its opcode alone decides. -/
theorem tripleLegal_lutRow_iff (f : Family) :
    tripleLegal f row.opcode (p.setWidth 8) (d.setWidth 32) ↔ row.opcode.setWidth 6 ∈ f.opcodes := by
  have hp : (p.setWidth 8).toNat < 4 := by
    rw [BitVec.toNat_setWidth_of_le (by omega)]
    exact p.isLt
  have hd : (d.setWidth 32).toNat < 256 := by
    rw [BitVec.toNat_setWidth_of_le (by omega)]
    exact d.isLt
  exact ⟨fun ⟨_, hmem, _, _⟩ => hmem, fun hmem => ⟨lutRow_opcode_lt hr, hmem, hp, hd⟩⟩

end

/-- Settles O17: the two outcomes are those of ENC (R130, R131), by whether the family has the opcode. -/
theorem lutInstructionPerformedAsEnc : Obligations.LutInstructionPerformedAsEnc := by
  intro row hr p d s
  obtain ⟨-, hlegal, hillegal⟩ := encPacksOrRejects row.opcode (p.setWidth 8) (d.setWidth 32) s
  rw [tripleLegal_lutRow_iff hr, BitVec.toNat_setWidth_of_le (by omega),
    BitVec.toNat_setWidth_of_le (by omega)] at hlegal
  rw [tripleLegal_lutRow_iff hr] at hillegal
  rw [exec_lutRow_eq_exec_enc hr]
  exact ⟨hlegal, hillegal⟩

end Sys2Proof.Machine
end
